-- ==== Sys2Proof/Word.lean ====
section
/-! DEFINITION. The word types of the machine: registers and addresses are 64 bits (spec 00_scope R6, 10_state R10
and R12), an instruction word is 32 bits (30_encoding R47), memory is bytes. -/

namespace Sys2Proof

/-- A general register, the program counter, a virtual address: 64 bits. -/
abbrev Word := BitVec 64

/-- One byte of memory. -/
abbrev Byte := BitVec 8

/-- One instruction word (30_encoding R47, PRESUMED GK3: log 8). -/
abbrev InstrWord := BitVec 32

end Sys2Proof
end

