-- ==== Sys2Proof/Config.lean ====
section
/-! DEFINITION. The vocabulary of the spec (Exception levels, Security states, translation regimes, TLB entries), the
implementation parameters a machine is built with, and the values the spec leaves open, which have no body. -/

namespace Sys2Proof

/-- The four Exception levels (10_state R11). -/
inductive El where
  | el0 | el1 | el2 | el3
deriving DecidableEq, Repr, Inhabited

/-- An abstract finite type in the spec (10_state R22); the four names are PRESUMED from GK10 and GK22 (log 3). -/
inductive SecurityState where
  | secure | nonSecure | realm | root
deriving DecidableEq, Repr, Inhabited

/-- Translation regimes. The instruction names the first two (41_tlbi_rvaa_operation R70); `el2` (EL2 without E2H) and
`el3` are the regimes R78 says it never touches. -/
inductive Regime where
  | el10 | el20 | el2 | el3
deriving DecidableEq, Repr, Inhabited

/-- Translation granules (20_memory R36 (c)). -/
inductive Granule where
  | g4K | g16K | g64K
deriving DecidableEq, Repr, Inhabited

/-- Size of a translation table entry (20_memory R36 (d)). -/
inductive DescBits where
  | d64 | d128
deriving DecidableEq, Repr, Inhabited

/-- A VMID. The spec gives no width (10_state R23); 16 bits are PRESUMED from GK10 (log 4). -/
abbrev Vmid := BitVec 16

/-- A half-open block `[base, base + size)` of virtual addresses. -/
structure VaBlock where
  base : Nat
  size : Nat
deriving DecidableEq, Repr, Inhabited

/-- A TLB entry, with the attributes of 10_state R25 and no other. `covers` is a set of virtual addresses, written as
blocks in one canonical form (`TlbEntry.wf`, log 32); `vmid = none` is an entry that carries none. -/
structure TlbEntry where
  stage1   : Bool
  descBits : DescBits
  leaf     : Bool
  level    : Int
  granule  : Granule
  covers   : List VaBlock
  ss       : SecurityState
  regime   : Regime
  vmid     : Option Vmid
  isGlobal : Bool
  asid     : Nat
deriving DecidableEq, Repr, Inhabited

/-- Blocks in canonical form: none empty, strictly rising with a gap between neighbours, inside the 2^64 addresses. -/
def VaBlock.canonical : List VaBlock → Bool
  | [] => true
  | [b] => decide (0 < b.size) && decide (b.base + b.size ≤ 2 ^ 64)
  | b :: c :: rest =>
    decide (0 < b.size) && decide (b.base + b.size < c.base) && VaBlock.canonical (c :: rest)

/-- An entry's address set is in canonical form (log 32). -/
def TlbEntry.wf (e : TlbEntry) : Bool := VaBlock.canonical e.covers

/-- The implementation parameters (00_scope R5 and R6, 92_eei_decisions D2 and D20): fixed for a machine, written by no
step, held in State so that every statement quantifies over them (log 1). `isPairs` is the relation ISDomain: the pair
`(p, q)` says that PE `q` is in the Inner Shareable domain of PE `p`; every PE is in its own without a pair. -/
structure Config where
  featTLBIRANGE : Bool
  featXS        : Bool
  featHCX       : Bool
  featFGT       : Bool
  featRME       : Bool
  featD128      : Bool
  featLPA2      : Bool
  haveEL2       : Bool
  haveEL3       : Bool
  noEl3Security : SecurityState
  hasSecure     : Bool
  hasNonSecure  : Bool
  hasRealm      : Bool
  isPairs       : List (Nat × Nat)
deriving DecidableEq, Repr

/-- What a memory system chooses for an instruction fetch: the TLB entries it is translated with and its XS attribute
(10_state R26, 20_memory R41: log 36). The fetch uses those of the entries that the PE's TLB holds. -/
structure FetchChoice where
  used : List TlbEntry
  xs   : Bool
deriving DecidableEq, Repr, Inhabited

/-- FREE VALUE (log 36): the choice for the fetch of a PE that the schedule does not name, by the PE's number and the
number of accesses it has made. -/
opaque Config.freeFetch : Nat → Nat → FetchChoice

/-- FREE VALUE (log 12): where a range ends whose start and size add up to more than 2^64. The formula as written, a
64-bit adder that wraps and an empty range are all cases of it (41_tlbi_rvaa_operation R74, GK23). -/
opaque Config.endPastTop : Nat → Nat → Nat

/-- FREE VALUE (log 21): what the TLBs of a PE hold after reset. The spec: "any finite set of entries, including stale
ones" (10_state R29). -/
opaque Config.resetTlb : List TlbEntry

/-- FREE VALUE (log 3): the Security state `SecurityStateAtEL` names when `SCR_EL3.{NSE, NS}` is the reserved
combination; the spec states none (10_state R17, GK22). -/
opaque Config.reservedSecurityState : SecurityState

/-- FREE VALUE (log 17): the IL bit of the syndrome of the `n`-th exception a PE raises, when it is an Undefined one;
the spec states none (60_exceptions R90). -/
opaque Config.undefinedIl : Nat → BitVec 1

end Sys2Proof
end

