-- ==== Sys2Proof/Syntax.lean ====
section
/-! DEFINITION. The instructions: one constructor per row of spec/opcode_table.json. -/

namespace Sys2Proof

/-- The two instructions (00_scope R1). `t` is the number of the operand register `X[t]` (30_encoding R48); that it is
at most 31 is `Instr.wellFormed`'s check. -/
inductive Instr where
  /-- `TLBI RVAALE1, Xt` (40_tlbi_rvaale1 R61). -/
  | tlbiRvaale1 (t : Nat)
  /-- `TLBI RVAALE1NXS, Xt` (40_tlbi_rvaale1 R62). -/
  | tlbiRvaale1nxs (t : Nat)
deriving DecidableEq, Repr

/-- The number of the operand register. -/
def Instr.operandReg : Instr → Nat
  | .tlbiRvaale1 t => t
  | .tlbiRvaale1nxs t => t

end Sys2Proof
end

