-- ==== Sys2Proof/WellFormed.lean ====
section
/-! DEFINITION. When an instruction term is one the encoding can hold: the register number fits the 5-bit `Rt` field
(30_encoding R48). -/

namespace Sys2Proof

/-- The one check: `0 <= t <= 31` (30_encoding R48). -/
def Instr.wellFormed (i : Instr) : Bool := decide (i.operandReg < 32)

end Sys2Proof
end

