-- ==== Sys2Proof/Decode.lean ====
section
/-! DEFINITION. Decoding, total on any bytes (30_encoding R45 to R48, R59), and after it the encoder, from the same
rows. -/

namespace Sys2Proof

/-- The five fields that identify a System instruction (30_encoding R45). -/
structure SysFields where
  op0 : BitVec 2
  op1 : BitVec 3
  crn : BitVec 4
  crm : BitVec 4
  op2 : BitVec 3
deriving DecidableEq, Repr

/-- Why bytes do not decode. -/
inductive DecodeError where
  /-- Fewer than the four bytes of an instruction word. -/
  | truncated
  /-- A word that is neither instruction of this spec (30_encoding R59, D1). -/
  | otherInstruction (w : InstrWord)
deriving DecidableEq, Repr

/-- A row of the encoding table: its fields and the instruction it stands for. -/
structure DecodeRow where
  fields : SysFields
  make   : Nat → Instr

/-- The fields of the first row of 30_encoding R46. -/
def rvaale1Fields : SysFields := { op0 := 0b01, op1 := 0b000, crn := 0b1000, crm := 0b0110, op2 := 0b111 }

/-- The fields of the second row of 30_encoding R46. -/
def rvaale1nxsFields : SysFields := { op0 := 0b01, op1 := 0b000, crn := 0b1001, crm := 0b0110, op2 := 0b111 }

/-- The two rows of 30_encoding R46. -/
def decodeTable : List DecodeRow :=
  [{ fields := rvaale1Fields, make := .tlbiRvaale1 }, { fields := rvaale1nxsFields, make := .tlbiRvaale1nxs }]

/-- The word of a System instruction without result (30_encoding R47, PRESUMED GK3: log 8):
`1101010100 L=0 op0 op1 CRn CRm op2 Rt`, most significant first. -/
def sysWord (f : SysFields) (rt : BitVec 5) : InstrWord :=
  0b1101010100#10 ++ 0#1 ++ f.op0 ++ f.op1 ++ f.crn ++ f.crm ++ f.op2 ++ rt

/-- The bits a row fixes: all but `Rt` (30_encoding R47). -/
def sysMask : InstrWord := 0xFFFFFFE0

/-- Decode one word: the row whose fixed bits it has, with `t = w[4:0]`; every other word is refused by name
(30_encoding R47, R59). -/
def decodeWord (w : InstrWord) : Except DecodeError Instr :=
  match decodeTable.find? (fun r => w &&& sysMask == sysWord r.fields 0) with
  | some r => .ok (r.make (w.extractLsb' 0 5).toNat)
  | none => .error (.otherInstruction w)

/-- The word stored little-endian in four bytes, the lowest address first (20_memory R32, PRESUMED GK5: log 7). -/
def wordOfBytes (b0 b1 b2 b3 : Byte) : InstrWord := b3 ++ b2 ++ b1 ++ b0

/-- Decode the instruction at the head of some bytes; the rest is handed back. -/
def decode : List Byte → Except DecodeError (Instr × List Byte)
  | b0 :: b1 :: b2 :: b3 :: rest =>
    match decodeWord (wordOfBytes b0 b1 b2 b3) with
    | .ok i => .ok (i, rest)
    | .error r => .error r
  | _ => .error .truncated

/-- The four bytes of a word, the lowest address first (20_memory R32). -/
def bytesOfWord (w : InstrWord) : List Byte :=
  [w.extractLsb' 0 8, w.extractLsb' 8 8, w.extractLsb' 16 8, w.extractLsb' 24 8]

/-- The fields of an instruction's row (30_encoding R46). -/
def Instr.fields : Instr → SysFields
  | .tlbiRvaale1 _ => rvaale1Fields
  | .tlbiRvaale1nxs _ => rvaale1nxsFields

/-- The word of a well-formed instruction (30_encoding R46, R47). -/
def encode (i : Instr) : InstrWord := sysWord i.fields (BitVec.ofNat 5 i.operandReg)

/-- The bytes of a well-formed instruction. -/
def encodeBytes (i : Instr) : List Byte := bytesOfWord (encode i)

/-- The bytes that a table word of `nbits` bits stands for: bit 0 of `w` is the least significant bit of the word, every
bit above `nbits` is 0, and the word is stored little-endian. -/
def tableWordBytes (nbits w : Nat) : List Byte := bytesOfWord (BitVec.ofNat 32 (w % 2 ^ nbits))

/-- The instruction the decoder reads from a word of spec/opcode_table.json; none where it refuses. -/
def decodeTableWord (nbits w : Nat) : Option Instr :=
  match decode (tableWordBytes nbits w) with
  | .ok (i, _) => some i
  | .error _ => none

end Sys2Proof
end

