-- ==== Sys2Proof/Machine/Memory.lean ====
section
/-! DEFINITION. Memory: the bytes of a 2^64-byte address space, as pairs of address and byte in one canonical form. An
unlisted address holds NO value, and reading it faults at the fetch that wanted it (log 27). -/

namespace Sys2Proof.Machine

/-- The listed bytes, addresses strictly rising. -/
abbrev Memory := List Host.Cell

/-- Addresses strictly rising, each in the 2^64-byte space and at or above `lo`. No entry can equal what an unlisted
address reads as, since that is no value. -/
def Memory.wfFrom (lo : Nat) : Memory → Bool
  | [] => true
  | c :: rest => decide (lo ≤ c.1) && decide (c.1 < 2 ^ 64) && Memory.wfFrom (c.1 + 1) rest

/-- The canonical form of memory. -/
def Memory.wf (m : Memory) : Bool := Memory.wfFrom 0 m

/-- The byte at an address, if one is listed. -/
def Memory.read : Memory → Nat → Option Byte
  | [], _ => none
  | c :: rest, a => if c.1 = a then some c.2 else Memory.read rest a

/-- Store one byte at an address, keeping the canonical form. -/
def Memory.write : Memory → Nat → Byte → Memory
  | [], a, b => [(a, b)]
  | c :: rest, a, b =>
    if a < c.1 then (a, b) :: c :: rest
    else if a = c.1 then (a, b) :: rest
    else c :: Memory.write rest a b

/-- Store bytes at consecutive addresses. -/
def Memory.writeBytes (m : Memory) (a : Nat) : List Byte → Memory
  | [] => m
  | b :: bs => Memory.writeBytes (Memory.write m a b) (a + 1) bs

/-- The four bytes from an address on, or none if one of them is not listed. -/
def Memory.readWordBytes (m : Memory) (a : Nat) : Option (List Byte) :=
  match m.read a, m.read (a + 1), m.read (a + 2), m.read (a + 3) with
  | some b0, some b1, some b2, some b3 => some [b0, b1, b2, b3]
  | _, _, _, _ => none

end Sys2Proof.Machine
end

