-- ==== Sys2Proof/Machine/State.lean ====
section
/-! DEFINITION. The state of the machine, as plain data, and the state after reset. Every piece of state is named with
its rule in INVENTORY.md, '## State'. -/

namespace Sys2Proof.Machine

/-- PSTATE: the current Exception level (10_state R11), the interrupt masks and the stack pointer selection that
exception entry writes (60_exceptions R94). `sp = true` selects SP_ELx. -/
structure PState where
  el : El
  d  : Bool
  a  : Bool
  i  : Bool
  f  : Bool
  sp : Bool
deriving DecidableEq, Repr

/-- The registers of one Exception level that exception entry uses (60_exceptions R94). -/
structure ExBank where
  elr  : Word
  spsr : PState
  esr  : Word
  vbar : Word
  sp   : Word
deriving DecidableEq, Repr

/-- HCR_EL2, the fields of 10_state R15. -/
structure HcrEl2 where
  ttlb : Bool
  fb   : Bool
  e2h  : Bool
  tge  : Bool
deriving DecidableEq, Repr

/-- HFGITR_EL2, the field of 10_state R16. -/
structure HfgitrEl2 where
  tlbirvaale1 : Bool
deriving DecidableEq, Repr

/-- SCR_EL3, the fields of 10_state R17 and the two of R20's "other bits of SCR_EL3" (GK10: log 2). -/
structure ScrEl3 where
  fgten : Bool
  ns    : Bool
  nse   : Bool
  eel2  : Bool
  hxen  : Bool
deriving DecidableEq, Repr

/-- HCRX_EL2, the fields of 10_state R18. -/
structure HcrxEl2 where
  fnxs   : Bool
  fgtnxs : Bool
deriving DecidableEq, Repr

/-- VTTBR_EL2, the field that holds the VMID (10_state R23, GK10: log 4). -/
structure VttbrEl2 where
  vmid : Vmid
deriving DecidableEq, Repr

/-- VTCR_EL2, the field that selects an 8-bit or a 16-bit VMID (GK10: log 4). -/
structure VtcrEl2 where
  vs : Bool
deriving DecidableEq, Repr

/-- The translation control register of a regime: its DS bit (41_tlbi_rvaa_operation R72, GK6: log 10). -/
structure Tcr where
  ds : Bool
deriving DecidableEq, Repr

/-- The control registers of one PE (60_exceptions R101, D28: log 35), by field (10_state R14). -/
structure SysRegs where
  hcrEl2    : HcrEl2
  hfgitrEl2 : HfgitrEl2
  scrEl3    : ScrEl3
  hcrxEl2   : HcrxEl2
  vttbrEl2  : VttbrEl2
  vtcrEl2   : VtcrEl2
  tcrEl1    : Tcr
  tcrEl2    : Tcr
deriving DecidableEq, Repr

/-- Answers for the helpers the spec leaves open (10_state R20 to R23, D3, D9: log 2, log 10). `none`: the body of GK10
or GK6 answers; `some v`: this machine's helper answers `v`. -/
structure Helpers where
  el2Enabled     : Option Bool
  hcrxEl2Enabled : Option Bool
  elIsInHost     : Option Bool
  ssEl1          : Option SecurityState
  ssEl2          : Option SecurityState
  validSsEl1     : Option Bool
  validSsEl2     : Option Bool
  vmid           : Option Vmid
  largeEl10      : Option Bool
  largeEl20      : Option Bool
deriving DecidableEq, Repr

/-- A memory access in flight (10_state R26): the entries it was translated with, its XS attribute, whether it has
completed. -/
structure Access where
  used     : List TlbEntry
  xs       : Bool
  complete : Bool
deriving DecidableEq, Repr

/-- What executing an instruction can raise (60_exceptions R92): both kinds and no other. -/
inductive Raised where
  /-- `Undefined` (60_exceptions R90). -/
  | undefined
  /-- `SystemAccessTrap(EL2, ec)` with its syndrome (60_exceptions R91). -/
  | trapEl2 (ec : BitVec 6) (iss : BitVec 25)
deriving DecidableEq, Repr

/-- A program placed in a PE's memory (70_reset_and_hazards R114 (1)): `words` instruction words from address `base`. -/
structure Program where
  base  : Word
  words : Nat
deriving DecidableEq, Repr

/-- One PE (60_exceptions R101). -/
structure Pe where
  regs     : Vector Word 31
  pc       : Word
  pstate   : PState
  spEl0    : Word
  ex1      : ExBank
  ex2      : ExBank
  ex3      : ExBank
  sys      : SysRegs
  helpers  : Helpers
  tlb      : List TlbEntry
  inFlight : List Access
  mem      : Memory
  program  : Option Program
  raised   : List Raised
deriving DecidableEq, Repr

/-- Which PEs an invalidation reaches (00_scope R9). -/
inductive Shareability where
  | nsh | ish
deriving DecidableEq, Repr

/-- The `level` argument: D0 passes one value, `TLBILevel_Last` (41_tlbi_rvaa_operation R70). -/
inductive TlbiLevel where
  | last
deriving DecidableEq, Repr

/-- Which memory accesses completion waits for (41_tlbi_rvaa_operation R82). -/
inductive TlbiAttr where
  | allAttr | excludeXS
deriving DecidableEq, Repr

/-- The seven arguments of `TLBI_RVAA` (41_tlbi_rvaa_operation R70); `vmid = none` is `VMID_NONE`. -/
structure TlbiCall where
  ss     : SecurityState
  regime : Regime
  vmid   : Option Vmid
  sh     : Shareability
  level  : TlbiLevel
  attr   : TlbiAttr
  xt     : Word
deriving DecidableEq, Repr

/-- The removal of one operation on one PE: the PE, and the entries that were required to go when they went (what R82
calls `RemovedRequired(op, p)`). -/
structure Removal where
  pe       : Nat
  required : List TlbEntry
deriving DecidableEq, Repr

/-- An issued invalidation operation (10_state R27). `large` is LargeBaseAddr at issue (D9: log 10). -/
structure Op where
  call      : TlbiCall
  issuer    : Nat
  el2en     : Bool
  large     : Bool
  performed : List Removal
  complete  : Bool
deriving DecidableEq, Repr

/-- One move of one agent (D14: log 22). Operations and accesses are named by their place in their lists. -/
inductive Move where
  /-- PE `p` runs its next instruction, fetched with the choice `fetched` of its memory system. -/
  | run (p : Nat) (fetched : FetchChoice)
  /-- The invalidation agent performs operation `op` on PE `p`, and removes the entries `drops` besides the required
  ones (log 23). -/
  | perform (op p : Nat) (drops : List TlbEntry)
  /-- The invalidation agent declares operation `op` complete. -/
  | declare (op : Nat)
  /-- The memory system of PE `p` completes its access `a`. -/
  | finish (p a : Nat)
deriving DecidableEq, Repr

/-- The machine. The PEs stand in the order of their numbers: `before`, then `pe` (the one whose instruction runs next,
so its number is `before.length`), then `after`. `schedule` is the model's own field (log 22). -/
structure State where
  cfg      : Config
  before   : List Pe
  pe       : Pe
  after    : List Pe
  ops      : List Op
  schedule : List Move
deriving DecidableEq, Repr

/-- Why the machine stops with a fault. -/
inductive Fault where
  /-- Raised by fetch: a byte of the instruction word at `pc` has no value, since nothing wrote it (log 27). Safe: the
  spec gives no contents, and nothing is proved past the stop. -/
  | unwrittenFetch
deriving DecidableEq, Repr

/-- Why the machine refuses to go on. -/
inductive Refusal where
  /-- Raised by exec for an instruction that has no meaning yet. Safe. -/
  | notModelled (mnemonic : String)
  /-- Raised by fetch: `pc` is not a multiple of 4 (20_memory R33, D4: log 6). Safe: the spec refuses it. -/
  | misalignedPc
  /-- Raised by fetch: `pc = 2^64 - 4` (10_state R12, D4: log 6). Safe: the spec refuses it. -/
  | pcAtTop
  /-- Raised by fetch: the word is neither instruction of this spec (30_encoding R59, D1). Safe: the spec refuses it. -/
  | otherInstruction (w : InstrWord)
deriving DecidableEq, Repr

/-- What a PE's fetch finds. -/
inductive Fetched where
  /-- The PE's run has ended, and it fetches nothing: it exited its program (70_reset_and_hazards R114 (2)), or raised
  an exception (60_exceptions R94, D15). -/
  | ended
  | fault (r : Fault)
  | refused (r : Refusal)
  | instr (i : Instr)
deriving DecidableEq, Repr

/-- PSTATE after reset: the highest implemented Exception level (PRESUMED GK13: log 20), interrupts masked and SP_ELx
selected (PRESUMED, the family's reset values: log 19). -/
def PState.reset (c : Config) : PState :=
  { el := if c.haveEL3 then .el3 else if c.haveEL2 then .el2 else .el1
    d := true, a := true, i := true, f := true, sp := true }

/-- The exception registers of a level after reset (DESIGN CHOICE: log 20). -/
def ExBank.reset (c : Config) : ExBank :=
  { elr := 0, spsr := PState.reset c, esr := 0, vbar := 0, sp := 0 }

/-- The control registers after reset (DESIGN CHOICE: log 20). -/
def SysRegs.reset : SysRegs :=
  { hcrEl2 := { ttlb := false, fb := false, e2h := false, tge := false }
    hfgitrEl2 := { tlbirvaale1 := false }
    scrEl3 := { fgten := false, ns := false, nse := false, eel2 := false, hxen := false }
    hcrxEl2 := { fnxs := false, fgtnxs := false }
    vttbrEl2 := { vmid := 0 }
    vtcrEl2 := { vs := false }
    tcrEl1 := { ds := false }
    tcrEl2 := { ds := false } }

/-- No helper is answered for: the bodies of GK10 and GK6 answer (DESIGN CHOICE: log 2). -/
def Helpers.documented : Helpers :=
  { el2Enabled := none, hcrxEl2Enabled := none, elIsInHost := none, ssEl1 := none, ssEl2 := none
    validSsEl1 := none, validSsEl2 := none, vmid := none, largeEl10 := none, largeEl20 := none }

/-- The configuration of the reset machine (DESIGN CHOICE: log 1). -/
def resetConfig : Config :=
  { featTLBIRANGE := true, featXS := true, featHCX := true, featFGT := true, featRME := true, featD128 := true
    featLPA2 := true, haveEL2 := true, haveEL3 := true, noEl3Security := .nonSecure
    hasSecure := true, hasNonSecure := true, hasRealm := true, isPairs := [] }

/-- Any list of entries as a finite set of entries: no repeats, address sets in canonical form (log 21). -/
def tlbOfEntries (l : List TlbEntry) : List TlbEntry := (l.filter TlbEntry.wf).dedup

/-- A PE after reset (10_state R29): in-flight accesses empty as the spec says, the TLBs any set of entries (log 21),
the registers at the values of log 19 and log 20, no program placed, nothing raised. -/
def Pe.reset (c : Config) : Pe :=
  { regs := Vector.replicate 31 0, pc := 0, pstate := PState.reset c, spEl0 := 0
    ex1 := ExBank.reset c, ex2 := ExBank.reset c, ex3 := ExBank.reset c
    sys := SysRegs.reset, helpers := Helpers.documented
    tlb := tlbOfEntries Config.resetTlb, inFlight := [], mem := [], program := none, raised := [] }

/-- The machine right after reset (10_state R29, 70_reset_and_hazards R105): one PE (log 30), no issued operation. -/
def State.reset : State :=
  { cfg := resetConfig, before := [], pe := Pe.reset resetConfig, after := [], ops := [], schedule := [] }

end Sys2Proof.Machine
end

