-- ==== Sys2Proof/Machine/Flags.lean ====
section
/-! DEFINITION. The hardware has no condition flag (10_state R13); what its instructions test are control bits. Here are
the helper functions of D0's pseudocode (10_state R19 to R23: log 2) and the trap and upgrade conditions the
instructions test (10_state R15 to R18). -/

namespace Sys2Proof.Machine

/-- `EL2Enabled()` (10_state R20): false when EL2 is not implemented; otherwise the supplied answer, or GK10's body: EL3
not implemented, or `SCR_EL3.NS == 1`, or `SCR_EL3.EEL2 == 1`. -/
def el2Enabled (c : Config) (p : Pe) : Bool :=
  c.haveEL2 && p.helpers.el2Enabled.getD (!c.haveEL3 || p.sys.scrEl3.ns || p.sys.scrEl3.eel2)

/-- `IsHCRXEL2Enabled()` (10_state R20), or GK10's body: FEAT_HCX, EL2 enabled, and EL3 not implemented or
`SCR_EL3.HXEn == 1`. -/
def hcrxEl2Enabled (c : Config) (p : Pe) : Bool :=
  p.helpers.hcrxEl2Enabled.getD (c.featHCX && el2Enabled c p && (!c.haveEL3 || p.sys.scrEl3.hxen))

/-- `ELIsInHost(EL0)` (10_state R21): EL2 enabled and `HCR_EL2.{E2H, TGE} == {1, 1}` (GK8, GK10). -/
def elIsInHost (c : Config) (p : Pe) : Bool :=
  p.helpers.elIsInHost.getD (el2Enabled c p && p.sys.hcrEl2.e2h && p.sys.hcrEl2.tge)

/-- The Security state that `SCR_EL3.NS`, or `SCR_EL3.{NSE, NS}` with FEAT_RME, selects for the levels below EL3
(10_state R17, R22; coding PRESUMED GK22: log 3). None for the reserved combination; the fixed state of the
implementation when there is no EL3 (GK10). -/
def selectedSecurity (c : Config) (p : Pe) : Option SecurityState :=
  if c.haveEL3 = false then some c.noEl3Security
  else if c.featRME = false then some (if p.sys.scrEl3.ns then .nonSecure else .secure)
  else
    match p.sys.scrEl3.nse, p.sys.scrEl3.ns with
    | false, false => some .secure
    | false, true => some .nonSecure
    | true, false => none
    | true, true => some .realm

/-- `SecurityStateAtEL(EL1)` (10_state R22). -/
def securityStateEl1 (c : Config) (p : Pe) : SecurityState :=
  p.helpers.ssEl1.getD ((selectedSecurity c p).getD Config.reservedSecurityState)

/-- `SecurityStateAtEL(EL2)` (10_state R22). -/
def securityStateEl2 (c : Config) (p : Pe) : SecurityState :=
  p.helpers.ssEl2.getD ((selectedSecurity c p).getD Config.reservedSecurityState)

/-- Which Security states the implementation has below EL3 (GK10). -/
def implementsSecurity (c : Config) : SecurityState → Bool
  | .secure => c.hasSecure
  | .nonSecure => c.hasNonSecure
  | .realm => c.hasRealm
  | .root => false

/-- The selected combination is not the reserved one and its state is implemented (GK10, GK22). -/
def selectedSecurityValid (c : Config) (p : Pe) : Bool :=
  match selectedSecurity c p with
  | some ss => c.haveEL3 = false || implementsSecurity c ss
  | none => false

/-- `ValidSecurityStateAtEL(EL1)` (10_state R22). -/
def validSecurityStateEl1 (c : Config) (p : Pe) : Bool := p.helpers.validSsEl1.getD (selectedSecurityValid c p)

/-- `ValidSecurityStateAtEL(EL2)` (10_state R22). -/
def validSecurityStateEl2 (c : Config) (p : Pe) : Bool := p.helpers.validSsEl2.getD (selectedSecurityValid c p)

/-- `VMID[]` (10_state R23), or GK10's body: VTTBR_EL2.VMID, 8 or 16 bits of it by VTCR_EL2.VS, when EL2 is enabled, and
zero otherwise. PRESUMED (log 4), for GK10 does not say it: `VS = 1` selects 16 bits, and `VS = 0` the low 8 bits with
zeros above. -/
def currentVmid (c : Config) (p : Pe) : Vmid :=
  p.helpers.vmid.getD
    (if el2Enabled c p then
      if p.sys.vtcrEl2.vs then p.sys.vttbrEl2.vmid else (p.sys.vttbrEl2.vmid.setWidth 8).setWidth 16
    else 0)

/-- `LargeBaseAddr` for a regime at this moment (41_tlbi_rvaa_operation R72, D9), or GK6's body: FEAT_LPA2 and the DS
bit of the regime's translation control register (log 10). -/
def largeBaseAddr (c : Config) (p : Pe) : Regime → Bool
  | .el20 => p.helpers.largeEl20.getD (c.featLPA2 && p.sys.tcrEl2.ds)
  | _ => p.helpers.largeEl10.getD (c.featLPA2 && p.sys.tcrEl1.ds)

/-- The coarse trap: EL2 enabled and `HCR_EL2.TTLB == 1` (10_state R15). -/
def coarseTrap (c : Config) (p : Pe) : Bool := el2Enabled c p && p.sys.hcrEl2.ttlb

/-- The fine-grained trap of the base encoding (10_state R16, R17; 40_tlbi_rvaale1 R61). -/
def fineTrapBase (c : Config) (p : Pe) : Bool :=
  el2Enabled c p && c.featFGT && (!c.haveEL3 || p.sys.scrEl3.fgten) && p.sys.hfgitrEl2.tlbirvaale1

/-- The fine-grained trap of the nXS encoding, further gated by FEAT_HCX and `HCRX_EL2.FGTnXS` (10_state R18;
40_tlbi_rvaale1 R62, U6: log 37). -/
def fineTrapNxs (c : Config) (p : Pe) : Bool :=
  el2Enabled c p && c.featFGT && (!c.haveEL3 || p.sys.scrEl3.fgten) && c.featHCX
    && (!hcrxEl2Enabled c p || !p.sys.hcrxEl2.fgtnxs) && p.sys.hfgitrEl2.tlbirvaale1

/-- The shareability of an operation issued at EL1: `HCR_EL2.FB` widens it when EL2 is enabled (10_state R15). -/
def el1Shareability (c : Config) (p : Pe) : Shareability :=
  if el2Enabled c p && p.sys.hcrEl2.fb then .ish else .nsh

/-- The attribute of the base encoding at EL1: `HCRX_EL2.FnXS` can turn it to ExcludeXS (10_state R18). -/
def el1BaseAttr (c : Config) (p : Pe) : TlbiAttr :=
  if c.featXS && c.featHCX && hcrxEl2Enabled c p && p.sys.hcrxEl2.fnxs then .excludeXS else .allAttr

end Sys2Proof.Machine
end

