-- ==== Sys2Proof/Machine/Operands.lean ====
section
/-! DEFINITION. The one operand form of the hardware: a general register whose 64 bits are fields (10_state R10,
30_encoding R48 to R56), and the arithmetic that turns the fields into a range of virtual addresses
(41_tlbi_rvaa_operation R71 to R75, R83). -/

namespace Sys2Proof.Machine

/-- `X[t, 64]` on a PE: registers 0 to 30, and register 31 reads as zero (10_state R10, PRESUMED GK4: log 5). -/
def readX (p : Pe) (t : Nat) : Word := p.regs[t]?.getD 0

/-- The fields of the operand (30_encoding R56). `res0` is ignored (R50, log 39). -/
structure Operand where
  tg    : BitVec 2
  scale : BitVec 2
  num   : BitVec 5
  ttl   : BitVec 2
  base  : BitVec 37
deriving DecidableEq, Repr

/-- `DecodeOperand` (30_encoding R56; positions R49, PRESUMED GK2 for TG, SCALE and NUM: log 9). -/
def decodeOperand (xt : Word) : Operand :=
  { tg := xt.extractLsb' 46 2, scale := xt.extractLsb' 44 2, num := xt.extractLsb' 39 5
    ttl := xt.extractLsb' 37 2, base := xt.extractLsb' 0 37 }

/-- `EncodeOperand` (30_encoding R56): the fields side by side, bits [63:48] zero. -/
def encodeOperand (o : Operand) : Word := 0#16 ++ o.tg ++ o.scale ++ o.num ++ o.ttl ++ o.base

/-- The granule a `TG` value names; 0b00 is reserved and names none (30_encoding R51, 41_tlbi_rvaa_operation R71). -/
def granuleOfTg (tg : BitVec 2) : Option Granule :=
  if tg = 0b01 then some .g4K
  else if tg = 0b10 then some .g16K
  else if tg = 0b11 then some .g64K
  else none

/-- `g`, the logarithm of the granule size in bytes (41_tlbi_rvaa_operation R71). -/
def granuleLog2 : Granule → Nat
  | .g4K => 12
  | .g16K => 14
  | .g64K => 16

/-- `G`, the granule size in bytes (41_tlbi_rvaa_operation R71, GK21). -/
def granuleBytes (g : Granule) : Nat := 2 ^ granuleLog2 g

/-- `s`, the bit of the virtual address at which the field BaseADDR starts (41_tlbi_rvaa_operation R72): bit 16 for all
granules under description (a), the granule's own bit under description (b). -/
def baseShift (large : Bool) (g : Granule) : Nat := if large then 16 else granuleLog2 g

/-- `BaseVA = sext_64(base : Zeros(s))` (41_tlbi_rvaa_operation R72; the upper bits PRESUMED GK7, D10, the low ones D11:
log 11). -/
def baseVa (large : Bool) (g : Granule) (base : BitVec 37) : Word :=
  (base.signExtend 64) <<< baseShift large g

/-- `Size = (num + 1) * 2^(5*scale + 1) * G` bytes (41_tlbi_rvaa_operation R73). -/
def rangeSize (g : Granule) (num : BitVec 5) (scale : BitVec 2) : Nat :=
  (num.toNat + 1) * 2 ^ (5 * scale.toNat + 1) * granuleBytes g

/-- The effective level hint `ttl'` (41_tlbi_rvaa_operation R75): 0b01 with the 16K granule counts as 0b00 when
FEAT_LPA2 is not implemented (D30: log 15). -/
def effectiveTtl (c : Config) (g : Granule) (ttl : BitVec 2) : BitVec 2 :=
  if ttl = 0b01 ∧ g = .g16K ∧ c.featLPA2 = false then 0b00 else ttl

/-- The logarithm of the size in bytes of a leaf entry at level `ttl'` (PRESUMED GK18: log 14), for the levels that R83
puts a condition on; none for level 3 and for no hint. -/
def leafLog2 (g : Granule) (ttl : BitVec 2) : Option Nat :=
  if ttl = 0b01 then some (match g with | .g4K => 30 | .g16K => 36 | .g64K => 42)
  else if ttl = 0b10 then some (match g with | .g4K => 21 | .g16K => 25 | .g64K => 29)
  else none

/-- The UNPREDICTABLE set (41_tlbi_rvaa_operation R83): the hint names level 1 or 2 and the starting address is no
multiple of the leaf entry size of that level. -/
def unpredictableRange (g : Granule) (ttl : BitVec 2) (start : Nat) : Bool :=
  match leafLog2 g ttl with
  | some n => decide (start % 2 ^ n ≠ 0)
  | none => false

/-- `End` (41_tlbi_rvaa_operation R74): `start + size` over unbounded naturals; where that passes 2^64 the spec does not
settle it, and it is a free value (log 12). -/
def rangeEnd (start size : Nat) : Nat :=
  if start + size ≤ 2 ^ 64 then start + size else Config.endPastTop start size

/-- What an operand asks for: a granule, the addresses `start <= v < stop` over unbounded naturals, the effective hint
(41_tlbi_rvaa_operation R71 to R75). -/
structure Request where
  granule : Granule
  start   : Nat
  stop    : Nat
  ttl     : BitVec 2
deriving DecidableEq, Repr

/-- The request an operand spells (41_tlbi_rvaa_operation R71 to R75), and none where the spec gives the operand no
range: a reserved granule (R84: log 13). -/
def requestOf (c : Config) (large : Bool) (xt : Word) : Option Request :=
  let o := decodeOperand xt
  match granuleOfTg o.tg with
  | none => none
  | some g =>
    let start := (baseVa large g o.base).toNat
    some { granule := g, start := start, stop := rangeEnd start (rangeSize g o.num o.scale)
           ttl := effectiveTtl c g o.ttl }

end Sys2Proof.Machine
end

