-- ==== Sys2Proof/Machine/Ops.lean ====
section
/-! DEFINITION. The named operations over the state: the PEs by number, taking an exception and returning from one,
finishing an instruction, issuing an invalidation, placing a program. -/

namespace Sys2Proof.Machine

/-- Every PE, in the order of their numbers (60_exceptions R101). -/
def State.allPes (s : State) : List Pe := s.before ++ s.pe :: s.after

/-- `NPE` (00_scope R6): at least one by construction. -/
def State.npe (s : State) : Nat := s.allPes.length

/-- The number of the PE whose instruction runs. -/
def State.peId (s : State) : Nat := s.before.length

/-- PE number `p`. -/
def State.peAt (s : State) (p : Nat) : Option Pe := s.allPes[p]?

/-- The state with the running PE replaced. -/
def State.withPe (s : State) (p : Pe) : State := { s with pe := p }

/-- The state with PE number `p` changed by `f`; nothing changes if there is none. -/
def State.modifyPe (s : State) (p : Nat) (f : Pe → Pe) : State :=
  if p < s.before.length then { s with before := s.before.modify p f }
  else if p = s.before.length then { s with pe := f s.pe }
  else { s with after := s.after.modify (p - s.before.length - 1) f }

/-- The state with operation number `k` changed by `f`. -/
def State.modifyOp (s : State) (k : Nat) (f : Op → Op) : State := { s with ops := s.ops.modify k f }

/-- The state with PE number `p` the one whose instruction runs; nothing changes if there is none. -/
def State.focus (s : State) (p : Nat) : State :=
  match s.allPes[p]? with
  | some q => { s with before := s.allPes.take p, pe := q, after := s.allPes.drop (p + 1) }
  | none => s

/-- The state with another schedule. -/
def State.withSchedule (s : State) (ms : List Move) : State := { s with schedule := ms }

/-! ### Exceptions -/

/-- The levels an exception can be taken to. -/
inductive TargetEl where
  | el1 | el2 | el3
deriving DecidableEq, Repr

/-- The target as an Exception level. -/
def TargetEl.toEl : TargetEl → El
  | .el1 => .el1
  | .el2 => .el2
  | .el3 => .el3

/-- The exception registers of a level. -/
def Pe.bank (p : Pe) : TargetEl → ExBank
  | .el1 => p.ex1
  | .el2 => p.ex2
  | .el3 => p.ex3

/-- The PE with the exception registers of a level replaced. -/
def Pe.setBank (p : Pe) (b : ExBank) : TargetEl → Pe
  | .el1 => { p with ex1 := b }
  | .el2 => { p with ex2 := b }
  | .el3 => { p with ex3 := b }

/-- `ESR_ELx` for a cause (60_exceptions R90, R91, PRESUMED GK12: log 17): EC in [31:26], IL in bit 25, ISS in [24:0].
A trap has IL = 1; an Undefined exception has EC = 0x00, no syndrome, and an IL the spec does not state, free for each
exception (`n` counts those the PE raised before). -/
def syndrome (n : Nat) : Raised → Word
  | .undefined => 0#32 ++ 0#6 ++ Config.undefinedIl n ++ 0#25
  | .trapEl2 ec iss => 0#32 ++ ec ++ 1#1 ++ iss

/-- The offset into the vectors (60_exceptions R94, PRESUMED GK13: log 16): 0x400 from a lower level, 0x200 from the
same level with SP_ELx, 0x000 from the same level with SP_EL0. -/
def vectorOffset (ps : PState) (tgt : TargetEl) : Word :=
  if ps.el = tgt.toEl then (if ps.sp then 0x200 else 0x000) else 0x400

/-- TAKING AN EXCEPTION to a level (60_exceptions R94, PRESUMED GK13: log 16): ELR gets the address of the instruction
that raised it, SPSR the old PSTATE, ESR the cause; PSTATE goes to the level with D, A, I, F masked and SP_ELx selected;
`pc` goes to the vector. The cause is recorded, so that the run is never final (R114, D15). -/
def Pe.takeException (p : Pe) (r : Raised) (tgt : TargetEl) : Pe :=
  let b := p.bank tgt
  let q := p.setBank { b with elr := p.pc, spsr := p.pstate, esr := syndrome p.raised.length r } tgt
  { q with
    pstate := { el := tgt.toEl, d := true, a := true, i := true, f := true, sp := true }
    pc := b.vbar + vectorOffset p.pstate tgt
    raised := r :: p.raised }

/-- RETURN FROM AN EXCEPTION (60_exceptions R95): `pc` from ELR and PSTATE from SPSR of the level. No instruction of
this spec calls it (ERET is out of scope, R4: log 34). -/
def Pe.exceptionReturn (p : Pe) (tgt : TargetEl) : Pe :=
  { p with pc := (p.bank tgt).elr, pstate := (p.bank tgt).spsr }

/-- The stack pointer PSTATE selects (60_exceptions R94: "selects SP_ELx"). -/
def Pe.currentSp (p : Pe) : Word :=
  match p.pstate.sp, p.pstate.el with
  | true, .el1 => p.ex1.sp
  | true, .el2 => p.ex2.sp
  | true, .el3 => p.ex3.sp
  | _, _ => p.spEl0

/-- Where an Undefined exception is taken (60_exceptions R90, PRESUMED GK12: log 18): from EL0 to EL1, or to EL2 when
EL2 is enabled and `HCR_EL2.TGE == 1`; from another level to that level. -/
def undefinedTarget (c : Config) (p : Pe) : TargetEl :=
  match p.pstate.el with
  | .el0 => if el2Enabled c p && p.sys.hcrEl2.tge then .el2 else .el1
  | .el1 => .el1
  | .el2 => .el2
  | .el3 => .el3

/-- `raise Undefined()` (60_exceptions R90). -/
def raiseUndefined (s : State) : State :=
  s.withPe (s.pe.takeException .undefined (undefinedTarget s.cfg s.pe))

/-- The syndrome of a trapped System instruction (60_exceptions R91, PRESUMED GK12: log 17):
`op0[21:20] op2[19:17] op1[16:14] CRn[13:10] Rt[9:5] CRm[4:1] Direction[0] = 0`. -/
def trapIss (f : SysFields) (t : Nat) : BitVec 25 :=
  0#3 ++ f.op0 ++ f.op2 ++ f.op1 ++ f.crn ++ BitVec.ofNat 5 t ++ f.crm ++ 0#1

/-- `raise SystemAccessTrap(EL2, 0x18)` by the instruction with these fields (60_exceptions R91). -/
def raiseSystemAccessTrap (f : SysFields) (t : Nat) (s : State) : State :=
  s.withPe (s.pe.takeException (.trapEl2 0x18 (trapIss f t)) .el2)

/-! ### Finishing and issuing -/

/-- An instruction finished without an exception: `pc <- pc + 4` (10_state R12, PRESUMED GK5: log 6). Fetch never runs
an instruction at `2^64 - 4`, where the sum would wrap. -/
def retire (s : State) : State := s.withPe { s.pe with pc := s.pe.pc + 4 }

/-- The record of an operation issued now by the running PE (10_state R27, 41_tlbi_rvaa_operation R70). -/
def newOp (call : TlbiCall) (s : State) : Op :=
  { call := call, issuer := s.peId, el2en := el2Enabled s.cfg s.pe
    large := largeBaseAddr s.cfg s.pe call.regime, performed := [], complete := false }

/-- `TLBI_RVAA(...)` (41_tlbi_rvaa_operation R70): the record joins the issued operations. No TLB changes yet; removal
and completion are moves of the agent (R81, R82). -/
def tlbiRvaa (call : TlbiCall) (s : State) : State := { s with ops := s.ops ++ [newOp call s] }

/-! ### Placing a program -/

/-- A program's bytes, in the order of its words (20_memory R32). -/
def programBytes : List InstrWord → List Byte
  | [] => []
  | w :: ws => bytesOfWord w ++ programBytes ws

/-- Place a program at address `a` of a PE and start it there (70_reset_and_hazards R114 (1), (2): log 28). Refused,
by none, when `a` is no multiple of 4 or an instruction would stand at `2^64 - 4` or beyond (10_state R12). -/
def loadProgram (a : Word) (ws : List InstrWord) (p : Pe) : Option Pe :=
  if a.toNat % 4 = 0 ∧ a.toNat + 4 * ws.length ≤ 2 ^ 64 - 4 then
    some { p with mem := p.mem.writeBytes a.toNat (programBytes ws)
                  pc := a, program := some { base := a, words := ws.length } }
  else none

/-- A PE has exited its program when `pc == A + 4n` (70_reset_and_hazards R114 (2)). -/
def Pe.exited (p : Pe) : Bool :=
  match p.program with
  | some g => decide (p.pc = g.base + BitVec.ofNat 64 (4 * g.words))
  | none => false

/-- A PE has raised an exception: a fault was recorded (70_reset_and_hazards R114 (3), D15: log 16). -/
def Pe.faulted (p : Pe) : Bool := !p.raised.isEmpty

/-- The PE's run has ended: it exited, or it took an exception, after which no handler instruction is executed
(60_exceptions R94, D15: log 16). -/
def Pe.ended (p : Pe) : Bool := p.exited || p.faulted

/-- An instruction fetch is a memory access of the PE (20_memory R41, D24): it is in flight from now on, translated with
the chosen entries of the TLB (10_state R26, 70_reset_and_hazards R108: log 36). -/
def Pe.recordFetch (p : Pe) (f : FetchChoice) : Pe :=
  { p with inFlight := p.inFlight ++
      [{ used := p.tlb.filter (fun e => f.used.contains e), xs := f.xs, complete := false }] }

end Sys2Proof.Machine
end

