-- ==== Sys2Proof/Machine/Agent.lean ====
section
/-! DEFINITION. What an issued operation does: which entries it must remove (41_tlbi_rvaa_operation R76 to R80, R83,
R84), on which PEs, the removal and completion (R81, R82), and the moves of the agents that do it. -/

namespace Sys2Proof.Machine

/-- `Kind(e)` (41_tlbi_rvaa_operation R76). -/
def kindMatches (c : Config) (r : Request) (e : TlbEntry) : Bool :=
  e.stage1 && e.leaf &&
    (match e.descBits with
     | .d64 => r.ttl = 0b00 || e.level = (r.ttl.toNat : Int)
     | .d128 => c.featD128 && r.ttl = 0b00)

/-- The block and the request share an address: the larger of their starts lies below both ends. -/
def blockMeets (r : Request) (b : VaBlock) : Bool :=
  decide (max r.start b.base < min r.stop (b.base + b.size))

/-- `Addr(e)` (41_tlbi_rvaa_operation R77): at least one address of the range is translated by the entry (D22: log 33).
-/
def addrMatches (r : Request) (e : TlbEntry) : Bool := e.covers.any (blockMeets r)

/-- `Ctx(e)` (41_tlbi_rvaa_operation R78; the VMID condition only for EL1&0 and only if EL2 was enabled at issue, D29:
log 31). ASID and global are not consulted (R79). -/
def contextMatches (op : Op) (e : TlbEntry) : Bool :=
  e.ss = op.call.ss && e.regime = op.call.regime &&
    (!(op.call.regime = .el10 && op.el2en) || e.vmid = op.call.vmid)

/-- `Gran(e)` (41_tlbi_rvaa_operation R80; per entry, D25: log 33). -/
def granuleMatches (r : Request) (e : TlbEntry) : Bool := e.granule = r.granule

/-- The range is predictable for this entry: the UNPREDICTABLE set takes the requirement away for 64-bit entries only
(41_tlbi_rvaa_operation R83: log 14). -/
def predictableFor (r : Request) (e : TlbEntry) : Bool :=
  !(unpredictableRange r.granule r.ttl r.start) || e.descBits = .d128

/-- The range an operation's operand asks for (10_state R27: the operand and LargeBaseAddr as they were at issue). -/
def Op.request (c : Config) (op : Op) : Option Request := requestOf c op.large op.call.xt

/-- An operation requires the removal of an entry (41_tlbi_rvaa_operation R81, `Required`). An operand that has no range
requires nothing (log 13). -/
def Op.requires (c : Config) (op : Op) (e : TlbEntry) : Bool :=
  match op.request c with
  | none => false
  | some r =>
    kindMatches c r e && addrMatches r e && contextMatches op e && granuleMatches r e && predictableFor r e

/-- PE `q` is in the Inner Shareable domain of PE `p` (00_scope R6, D20: log 30): every PE is in its own. -/
def inIsDomain (c : Config) (p q : Nat) : Bool := decide (q = p) || c.isPairs.contains (p, q)

/-- `Scope(op)` (41_tlbi_rvaa_operation R81, GK16), as a test on a PE number. -/
def Op.inScope (c : Config) (op : Op) (p : Nat) : Bool :=
  match op.call.sh with
  | .nsh => decide (p = op.issuer)
  | .ish => inIsDomain c op.issuer p

/-- The numbers of the machine's PEs in the scope of an operation. -/
def State.scope (s : State) (op : Op) : List Nat := (List.range s.npe).filter (op.inScope s.cfg)

/-- The operation has been performed on PE `p`. -/
def Op.performedOn (op : Op) (p : Nat) : Bool := op.performed.any (fun x => x.pe == p)

/-- `RemovedRequired(op, p)` (41_tlbi_rvaa_operation R82): what was required on PE `p` when the removal was performed.
-/
def Op.removedRequired (op : Op) (p : Nat) : List TlbEntry :=
  (op.performed.filter (fun x => x.pe == p)).flatMap Removal.required

/-- What a removal leaves of a TLB (41_tlbi_rvaa_operation R81): no required entry, and of the rest what the agent's
choice does not drop (D13: log 23). -/
def tlbAfter (c : Config) (op : Op) (drops tlb : List TlbEntry) : List TlbEntry :=
  tlb.filter (fun e => !op.requires c e && !drops.contains e)

/-- The agent performs operation `k` on PE `p` (41_tlbi_rvaa_operation R81): once, and only on a PE of its scope; any
other such move changes nothing (log 22). -/
def performOp (k p : Nat) (drops : List TlbEntry) (s : State) : State :=
  match s.ops[k]?, s.peAt p with
  | some op, some q =>
    if op.inScope s.cfg p && !op.performedOn p then
      (s.modifyPe p (fun x => { x with tlb := tlbAfter s.cfg op drops x.tlb })).modifyOp k
        (fun o => { o with performed := o.performed ++ [{ pe := p, required := q.tlb.filter (op.requires s.cfg) }] })
    else s
  | _, _ => s

/-- `Waits(op, a)` on PE `p` (41_tlbi_rvaa_operation R82). -/
def Op.waits (op : Op) (p : Nat) (a : Access) : Bool :=
  a.used.any (fun e => (op.removedRequired p).contains e) && (op.call.attr = .allAttr || !a.xs)

/-- The condition of R82: performed on every PE of the scope, and every access there that the operation waits for has
completed. -/
def State.completable (s : State) (op : Op) : Bool :=
  (s.scope op).all (fun p =>
    op.performedOn p &&
      (match s.peAt p with
       | some q => q.inFlight.all (fun a => !op.waits p a || a.complete)
       | none => true))

/-- The agent declares operation `k` complete (10_state R27, 41_tlbi_rvaa_operation R82): the mark is set when the
condition holds; a move that comes too early changes nothing (log 24). -/
def declareOp (k : Nat) (s : State) : State :=
  match s.ops[k]? with
  | some op => if s.completable op then s.modifyOp k (fun o => { o with complete := true }) else s
  | none => s

/-- The memory system of PE `p` completes its access `a` (10_state R26). -/
def finishAccess (p a : Nat) (s : State) : State :=
  s.modifyPe p (fun q => { q with inFlight := q.inFlight.modify a (fun x => { x with complete := true }) })

/-- One move of an agent that is no PE; a PE's move is `step`'s. -/
def agentMove (m : Move) (s : State) : State :=
  match m with
  | .run _ _ => s
  | .perform k p drops => performOp k p drops s
  | .declare k => declareOp k s
  | .finish p a => finishAccess p a s

end Sys2Proof.Machine
end

