-- ==== Sys2Proof/Machine/Tlbi.lean ====
section
/-! DEFINITION. The meanings of the two instructions (40_tlbi_rvaale1 R60 to R62), over shared operations. -/

namespace Sys2Proof.Machine

/-- The call for the EL1&0 regime, with the current VMID, and the end of the instruction (40_tlbi_rvaale1 R61, R62). -/
def issueEl10 (sh : Shareability) (attr : TlbiAttr) (t : Nat) (s : State) : State :=
  retire (tlbiRvaa
    { ss := securityStateEl1 s.cfg s.pe, regime := .el10, vmid := some (currentVmid s.cfg s.pe), sh := sh
      level := .last, attr := attr, xt := readX s.pe t } s)

/-- The call for the EL2&0 regime, with no VMID, and the end of the instruction (40_tlbi_rvaale1 R61, R62). -/
def issueEl20 (attr : TlbiAttr) (t : Nat) (s : State) : State :=
  retire (tlbiRvaa
    { ss := securityStateEl2 s.cfg s.pe, regime := .el20, vmid := none, sh := .nsh
      level := .last, attr := attr, xt := readX s.pe t } s)

/-- The EL2 arm, the same for both encodings but for the attribute (40_tlbi_rvaale1 R61, R62). -/
def atEl2 (attr : TlbiAttr) (t : Nat) (s : State) : State :=
  if elIsInHost s.cfg s.pe then issueEl20 attr t s else issueEl10 .nsh attr t s

/-- The EL3 arm, the same for both encodings but for the attribute: with FEAT_RME and an invalid Security state the
instruction does nothing (40_tlbi_rvaale1 R61, R62). -/
def atEl3 (attr : TlbiAttr) (t : Nat) (s : State) : State :=
  if elIsInHost s.cfg s.pe then
    if s.cfg.featRME && !validSecurityStateEl2 s.cfg s.pe then retire s else issueEl20 attr t s
  else
    if s.cfg.featRME && !validSecurityStateEl1 s.cfg s.pe then retire s else issueEl10 .nsh attr t s

/-- `TLBI RVAALE1, Xt` (40_tlbi_rvaale1 R60, R61). -/
def execTlbiRvaale1 (t : Nat) (s : State) : Host.Outcome State Fault Refusal :=
  if s.cfg.featTLBIRANGE = false then .next (raiseUndefined s)
  else
    match s.pe.pstate.el with
    | .el0 => .next (raiseUndefined s)
    | .el1 =>
      if coarseTrap s.cfg s.pe then .next (raiseSystemAccessTrap rvaale1Fields t s)
      else if fineTrapBase s.cfg s.pe then .next (raiseSystemAccessTrap rvaale1Fields t s)
      else .next (issueEl10 (el1Shareability s.cfg s.pe) (el1BaseAttr s.cfg s.pe) t s)
    | .el2 => .next (atEl2 .allAttr t s)
    | .el3 => .next (atEl3 .allAttr t s)

/-- `TLBI RVAALE1NXS, Xt` (40_tlbi_rvaale1 R60, R62). -/
def execTlbiRvaale1nxs (t : Nat) (s : State) : Host.Outcome State Fault Refusal :=
  if s.cfg.featTLBIRANGE = false then .next (raiseUndefined s)
  else if s.cfg.featXS = false then .next (raiseUndefined s)
  else
    match s.pe.pstate.el with
    | .el0 => .next (raiseUndefined s)
    | .el1 =>
      if coarseTrap s.cfg s.pe then .next (raiseSystemAccessTrap rvaale1nxsFields t s)
      else if fineTrapNxs s.cfg s.pe then .next (raiseSystemAccessTrap rvaale1nxsFields t s)
      else .next (issueEl10 (el1Shareability s.cfg s.pe) .excludeXS t s)
    | .el2 => .next (atEl2 .excludeXS t s)
    | .el3 => .next (atEl3 .excludeXS t s)

end Sys2Proof.Machine
end

