-- ==== Sys2Proof/Machine/Dispatch.lean ====
section
/-! DEFINITION. Which meaning each instruction has. -/

namespace Sys2Proof.Machine

def exec (i : Instr) (s : State) : Host.Outcome State Fault Refusal :=
  match i with
  | .tlbiRvaale1 t => Sys2Proof.Machine.execTlbiRvaale1 t s
  | .tlbiRvaale1nxs t => Sys2Proof.Machine.execTlbiRvaale1nxs t s

end Sys2Proof.Machine
end

