-- ==== Sys2Proof/Machine/Fetch.lean ====
section
/-! DEFINITION. What a PE fetches (10_state R12, 20_memory R32 and R33, 70_reset_and_hazards R114, D1, D4). -/

namespace Sys2Proof.Machine

/-- The instruction from the bytes of a word. -/
def decodeFetched (bytes : List Byte) : Fetched :=
  match decode bytes with
  | .ok (i, _) => .instr i
  | .error (.otherInstruction w) => .refused (.otherInstruction w)
  | .error .truncated => .fault .unwrittenFetch

/-- Fetch at `pc`: nothing for a PE whose run has ended (R114 (2), D15); refused at a misaligned `pc` and at `2^64 - 4`
(D4); a fault where a byte has no value; else what the word decodes to. -/
def fetch (p : Pe) : Fetched :=
  if p.ended then .ended
  else if p.pc.toNat % 4 ≠ 0 then .refused .misalignedPc
  else if p.pc.toNat = 2 ^ 64 - 4 then .refused .pcAtTop
  else
    match p.mem.readWordBytes p.pc.toNat with
    | some bytes => decodeFetched bytes
    | none => .fault .unwrittenFetch

/-- The PE with an instruction's bytes stored at its `pc`, no program end there, and no exception that ended its run. -/
def Pe.withWordAtPc (p : Pe) (bytes : List Byte) : Pe :=
  { p with mem := p.mem.writeBytes p.pc.toNat bytes, program := none, raised := [] }

end Sys2Proof.Machine
end

