-- ==== Sys2Proof/Machine/Step.lean ====
section
/-! DEFINITION. One step of the machine: one move of one agent (D14: log 22). -/

namespace Sys2Proof.Machine

/-- The running PE fetches and runs one instruction, and the fetch is in flight from then on (20_memory R41); a PE whose
run has ended does nothing (70_reset_and_hazards R114, D15). -/
def stepPe (f : FetchChoice) (s : State) : Host.Outcome State Fault Refusal :=
  match fetch s.pe with
  | .ended => .next s
  | .fault r => .fault r
  | .refused r => .refused r
  | .instr i => exec i (s.withPe (s.pe.recordFetch f))

/-- One step: the next move of the schedule, or, when it is empty, the running PE's next instruction,
fetched with a free choice (log 36). A move of a PE that
does not exist changes nothing. -/
def step (s : State) : Host.Outcome State Fault Refusal :=
  match s.schedule with
  | [] => stepPe (Config.freeFetch s.peId s.pe.inFlight.length) s
  | .run p f :: ms => if p < s.npe then stepPe f ((s.withSchedule ms).focus p) else .next (s.withSchedule ms)
  | m :: ms => .next (agentMove m (s.withSchedule ms))

/-- The state in which the very next step fetches and runs the table word: its bytes at the running PE's `pc`, no
program end and no ended run in the way, and no other agent's move before it. -/
def State.withFetchWord (s : State) (nbits w : Nat) : State :=
  (s.withPe (s.pe.withWordAtPc (tableWordBytes nbits w))).withSchedule []

end Sys2Proof.Machine
end

