-- ==== Sys2Proof/Safety.lean ====
section
/-! DEFINITION. What a good state and a finished run are: the invariant every step keeps, and the final states of
70_reset_and_hazards R114. -/

namespace Sys2Proof.Machine

/-- A state is final when every PE that was given a program has exited, no fault was recorded, and every issued
operation has been performed on every PE of its scope and is complete (70_reset_and_hazards R114 (3)). -/
def State.final (s : State) : Bool :=
  s.allPes.all (fun p => (p.program.isNone || p.exited) && !p.faulted) &&
    s.ops.all (fun op => (s.scope op).all op.performedOn && op.complete)

/-- The Exception level exists in this implementation (60_exceptions R98). -/
def elImplemented (c : Config) : El → Bool
  | .el0 => true
  | .el1 => true
  | .el2 => c.haveEL2
  | .el3 => c.haveEL3

/-- A PE is well formed: memory in canonical form, the TLB a set of entries in canonical form, `pc` and the vector bases
multiples of 4 (10_state R12), an Exception level that is implemented, and, until it takes an exception, `pc` at a word
of its program or at the program's end (70_reset_and_hazards R114 (2)). -/
structure Pe.WellFormed (c : Config) (p : Pe) : Prop where
  memCanonical : p.mem.wf = true
  tlbNodup     : p.tlb.Nodup
  tlbEntries   : ∀ e ∈ p.tlb, e.wf = true
  pcAligned    : p.pc.toNat % 4 = 0
  vbar1Aligned : p.ex1.vbar.toNat % 4 = 0
  vbar2Aligned : p.ex2.vbar.toNat % 4 = 0
  vbar3Aligned : p.ex3.vbar.toNat % 4 = 0
  elLegal      : elImplemented c p.pstate.el = true
  inProgram    : ∀ g, p.program = some g →
    g.base.toNat % 4 = 0 ∧ g.base.toNat + 4 * g.words ≤ 2 ^ 64 - 4 ∧
    (p.raised = [] → g.base.toNat ≤ p.pc.toNat ∧ p.pc.toNat ≤ g.base.toNat + 4 * g.words)

/-- An operation is well formed in a state: its arguments are of the forms D0 passes (41_tlbi_rvaa_operation R70), its
issuer exists, it was performed at most once on a PE and only on PEs of its scope (R81). -/
structure Op.WellFormed (s : State) (op : Op) : Prop where
  issuerExists  : op.issuer < s.npe
  argumentForms : (op.call.regime = .el10 ∧ op.call.vmid.isSome = true) ∨
                  (op.call.regime = .el20 ∧ op.call.vmid = none ∧ op.call.sh = .nsh)
  broadcastEl2  : op.call.sh = .ish → op.el2en = true
  performedOnce : (op.performed.map Removal.pe).Nodup
  performedIn   : ∀ x ∈ op.performed, x.pe ∈ s.scope op

/-- What a performed operation left behind holds from then on: on every PE where it was performed no required entry
stands in the TLB, and what it removed there was required (41_tlbi_rvaa_operation R81). -/
def Op.Cleaned (s : State) (op : Op) : Prop :=
  ∀ x ∈ op.performed,
    (∀ e ∈ x.required, op.requires s.cfg e = true) ∧
    ∀ p, s.peAt x.pe = some p → ∀ e ∈ p.tlb, op.requires s.cfg e = false

/-- The complete mark is set only where the condition of 41_tlbi_rvaa_operation R82 holds. -/
def Op.CompleteIsTrue (s : State) (op : Op) : Prop := op.complete = true → s.completable op = true

/-- The invariant of the machine. -/
structure State.Inv (s : State) : Prop where
  pes       : ∀ p ∈ s.allPes, p.WellFormed s.cfg
  opForms   : ∀ op ∈ s.ops, op.WellFormed s
  cleaned   : ∀ op ∈ s.ops, op.Cleaned s
  completed : ∀ op ∈ s.ops, op.CompleteIsTrue s

/-! ### Runs and fairness -/

/-- An infinite run: state `n + 1` is what move `n` makes of state `n` (D14: any interleaving). -/
def IsRun (σ : Nat → State) (μ : Nat → Move) : Prop :=
  ∀ n, step ((σ n).withSchedule [μ n]) = .next (σ (n + 1))

/-- Operation `k` is still to be performed on PE `p` of its scope. -/
def State.performPending (s : State) (k p : Nat) : Prop :=
  ∃ op, s.ops[k]? = some op ∧ p ∈ s.scope op ∧ op.performedOn p = false

/-- Access `a` of PE `p` is still to complete. -/
def State.finishPending (s : State) (p a : Nat) : Prop :=
  ∃ q x, s.peAt p = some q ∧ q.inFlight[a]? = some x ∧ x.complete = false

/-- Operation `k` meets the condition of completion and is still to be marked. -/
def State.declarePending (s : State) (k : Nat) : Prop :=
  ∃ op, s.ops[k]? = some op ∧ s.completable op = true ∧ op.complete = false

/-- A move that stays pending from some state on is made at or after it. -/
def WeaklyFair (σ : Nat → State) (μ : Nat → Move) (pending : State → Prop) (made : Move → Prop) : Prop :=
  ∀ n, (∀ m, n ≤ m → pending (σ m)) → ∃ m, n ≤ m ∧ made (μ m)

/-- WEAK FAIRNESS (70_reset_and_hazards R111, D14): every issued operation is eventually performed everywhere in its
scope, and every access in flight eventually completes; the mark of completion is not put off forever (log 24, log 38).
-/
structure Fair (σ : Nat → State) (μ : Nat → Move) : Prop where
  performs : ∀ k p, WeaklyFair σ μ (fun s => s.performPending k p) (fun m => ∃ drops, m = .perform k p drops)
  finishes : ∀ p a, WeaklyFair σ μ (fun s => s.finishPending p a) (fun m => m = .finish p a)
  declares : ∀ k, WeaklyFair σ μ (fun s => s.declarePending k) (fun m => m = .declare k)

end Sys2Proof.Machine
end

