-- ==== Sys2Proof/Certificates/Slice0/Obligations.lean ====
section
/-! DEFINITION. The statements for the provers, from the rules of spec/. A statement that rests on a choice of the
model, or on what the spec itself marks as decision or general knowledge, names the log entry. Every statement holds for
every configuration, every set of helper answers and every schedule, since all three are fields of the state. -/

open Sys2Proof Sys2Proof.Machine

/-! ### Terms used below -/

/-- An access that an operation waits for (41_tlbi_rvaa_operation R82): it used an entry the operation removed as
required, and the attribute does not exclude it. -/
def OpWaitsFor (op : Op) (p : Nat) (a : Access) : Prop :=
  (∃ e ∈ a.used, ∃ x ∈ op.performed, x.pe = p ∧ e ∈ x.required) ∧ (op.call.attr = .allAttr ∨ a.xs = false)

/-! ### Encoding -/

/-- Words written out from the encoding rows (30_encoding R46; their place in the word is GK3's: log 8), stored
little-endian (20_memory R32, GK5: log 7), decode to the instruction they stand for, and neighbours are refused. -/
def Obligations.SpecWordsDecode : Prop :=
  decode [0xE0, 0x86, 0x08, 0xD5] = .ok (.tlbiRvaale1 0, []) ∧
  decode [0xF1, 0x86, 0x08, 0xD5] = .ok (.tlbiRvaale1 17, []) ∧
  decode [0xFF, 0x86, 0x08, 0xD5] = .ok (.tlbiRvaale1 31, []) ∧
  decode [0xE5, 0x96, 0x08, 0xD5] = .ok (.tlbiRvaale1nxs 5, []) ∧
  decode [0xFE, 0x96, 0x08, 0xD5] = .ok (.tlbiRvaale1nxs 30, []) ∧
  decode [0xE0, 0xA6, 0x08, 0xD5] = .error (.otherInstruction 0xD508A6E0) ∧
  decode [0xE0, 0x86, 0x28, 0xD5] = .error (.otherInstruction 0xD52886E0)

/-- Decode and encode agree both ways: every well-formed instruction comes back from its bytes, and bytes that decode
are the bytes of a well-formed instruction (30_encoding R47, R48, R59; layout GK3: log 8). -/
def Obligations.DecodeAndEncodeAgree : Prop :=
  (∀ (i : Instr) (rest : List Byte), i.wellFormed = true → decode (encodeBytes i ++ rest) = .ok (i, rest)) ∧
  (∀ (bs : List Byte) (i : Instr) (rest : List Byte),
    decode bs = .ok (i, rest) → i.wellFormed = true ∧ bs = encodeBytes i ++ rest)

/-- A word is the instruction of a row exactly when its fixed bits are the row's, with `t = w[4:0]`; every other word is
refused by name; and the word of an instruction has the fields of the rows in their places (30_encoding R46, R47, R59;
layout GK3: log 8). -/
def Obligations.WordsDecodeByMaskAndMatch : Prop :=
  (∀ (w : InstrWord) (t : Nat), decodeWord w = .ok (.tlbiRvaale1 t) ↔
    w &&& 0xFFFFFFE0#32 = 0xD50886E0#32 ∧ t = w.toNat % 32) ∧
  (∀ (w : InstrWord) (t : Nat), decodeWord w = .ok (.tlbiRvaale1nxs t) ↔
    w &&& 0xFFFFFFE0#32 = 0xD50896E0#32 ∧ t = w.toNat % 32) ∧
  (∀ w : InstrWord, w &&& 0xFFFFFFE0#32 ≠ 0xD50886E0#32 → w &&& 0xFFFFFFE0#32 ≠ 0xD50896E0#32 →
    decodeWord w = .error (.otherInstruction w)) ∧
  (∀ i : Instr, i.wellFormed = true →
    (encode i).extractLsb' 22 10 = 0b1101010100#10 ∧ (encode i).extractLsb' 21 1 = 0#1 ∧
    (encode i).extractLsb' 19 2 = 0b01#2 ∧ (encode i).extractLsb' 16 3 = 0b000#3 ∧
    (encode i).extractLsb' 12 4 = (match i with | .tlbiRvaale1 _ => 0b1000#4 | .tlbiRvaale1nxs _ => 0b1001#4) ∧
    (encode i).extractLsb' 8 4 = 0b0110#4 ∧ (encode i).extractLsb' 5 3 = 0b111#3 ∧
    ((encode i).extractLsb' 0 5).toNat = i.operandReg)

/-! ### Fetch and step -/

/-- A step runs the decoded instruction: with no other move before it, `step` is `exec` of what the four bytes at `pc`
decode to, the fetch now an access in flight; when the schedule's next move is PE `p`'s, `step` is `exec` with PE `p` as
the running PE, its fetch in flight with the entries and the XS attribute the move chose, all other PEs as they were.
(10_state R12, 20_memory R32, R41, 70_reset_and_hazards R114; conventions log 6, log 7, log 22, log 28, log 36.) -/
def Obligations.StepRunsTheDecodedInstruction : Prop :=
  (∀ (s : State) (i : Instr) (b0 b1 b2 b3 : Byte), s.schedule = [] → s.pe.exited = false → s.pe.raised = [] →
    s.pe.pc.toNat % 4 = 0 → s.pe.pc.toNat ≠ 2 ^ 64 - 4 →
    s.pe.mem.read s.pe.pc.toNat = some b0 → s.pe.mem.read (s.pe.pc.toNat + 1) = some b1 →
    s.pe.mem.read (s.pe.pc.toNat + 2) = some b2 → s.pe.mem.read (s.pe.pc.toNat + 3) = some b3 →
    decode [b0, b1, b2, b3] = .ok (i, []) →
    ∃ a : Access, a.complete = false ∧ (∀ e ∈ a.used, e ∈ s.pe.tlb) ∧
      step s = exec i { s with pe := { s.pe with inFlight := s.pe.inFlight ++ [a] } }) ∧
  (∀ (s : State) (p : Nat) (q : Pe) (f : FetchChoice) (ms : List Move) (i : Instr) (b0 b1 b2 b3 : Byte),
    s.schedule = .run p f :: ms → s.peAt p = some q → q.exited = false → q.raised = [] →
    q.pc.toNat % 4 = 0 → q.pc.toNat ≠ 2 ^ 64 - 4 →
    q.mem.read q.pc.toNat = some b0 → q.mem.read (q.pc.toNat + 1) = some b1 →
    q.mem.read (q.pc.toNat + 2) = some b2 → q.mem.read (q.pc.toNat + 3) = some b3 →
    decode [b0, b1, b2, b3] = .ok (i, []) →
    ∃ s' : State, step s = exec i s' ∧
      s'.pe = { q with inFlight := q.inFlight ++
        [{ used := q.tlb.filter (fun e => f.used.contains e), xs := f.xs, complete := false }] } ∧
      s'.peId = p ∧ s'.allPes = s.allPes.set p s'.pe ∧ s'.cfg = s.cfg ∧ s'.ops = s.ops ∧ s'.schedule = ms)

/-- Where fetch stops, on a PE with no other move before it: nothing happens after the program's end (R114 (2)) and
after an exception, which ends the PE's run (60_exceptions R94, D15: log 16), a misaligned `pc` and `pc = 2^64 - 4` are
refused (20_memory R33, 10_state R12, D4: log 6), a byte with no value faults (log 27), a word that is neither
instruction is refused by name (30_encoding R59, D1). -/
def Obligations.FetchStopsWhereTheSpecStops : Prop :=
  (∀ (s : State) (g : Program), s.schedule = [] → s.pe.program = some g →
    s.pe.pc = g.base + BitVec.ofNat 64 (4 * g.words) → step s = .next s) ∧
  (∀ s : State, s.schedule = [] → s.pe.raised ≠ [] → step s = .next s) ∧
  (∀ s : State, s.schedule = [] → s.pe.exited = false → s.pe.raised = [] → s.pe.pc.toNat % 4 ≠ 0 →
    step s = .refused .misalignedPc) ∧
  (∀ s : State, s.schedule = [] → s.pe.exited = false → s.pe.raised = [] → s.pe.pc.toNat = 2 ^ 64 - 4 →
    step s = .refused .pcAtTop) ∧
  (∀ (s : State) (d : Nat), s.schedule = [] → s.pe.exited = false → s.pe.raised = [] →
    s.pe.pc.toNat % 4 = 0 →
    s.pe.pc.toNat ≠ 2 ^ 64 - 4 → d < 4 → s.pe.mem.read (s.pe.pc.toNat + d) = none →
    step s = .fault .unwrittenFetch) ∧
  (∀ (s : State) (w : InstrWord), s.schedule = [] → s.pe.exited = false → s.pe.raised = [] →
    s.pe.pc.toNat % 4 = 0 →
    s.pe.pc.toNat ≠ 2 ^ 64 - 4 → s.pe.mem.readWordBytes s.pe.pc.toNat = some (bytesOfWord w) →
    w &&& 0xFFFFFFE0#32 ≠ 0xD50886E0#32 → w &&& 0xFFFFFFE0#32 ≠ 0xD50896E0#32 →
    step s = .refused (.otherInstruction w))

/-- A placed program is what the PE fetches (70_reset_and_hazards R114 (1), (2): the model's convention, log 28): word
`k` stands at `A + 4k` and is what fetch there decodes, the PE starts at `A`, has exited exactly at `A + 4n`, and a
program that starts off a multiple of 4 or reaches `2^64 - 4` is not placed (10_state R12, log 6). -/
def Obligations.LoadedProgramIsFetched : Prop :=
  (∀ (a : Word) (ws : List InstrWord) (p q : Pe), loadProgram a ws p = some q →
    q.pc = a ∧ (∀ (k : Nat) (w : InstrWord), ws[k]? = some w →
      q.mem.readWordBytes (a.toNat + 4 * k) = some (bytesOfWord w) ∧
      (p.raised = [] →
        (∀ i : Instr, decodeWord w = .ok i →
          fetch { q with pc := a + BitVec.ofNat 64 (4 * k) } = .instr i) ∧
        (w &&& 0xFFFFFFE0#32 ≠ 0xD50886E0#32 → w &&& 0xFFFFFFE0#32 ≠ 0xD50896E0#32 →
          fetch { q with pc := a + BitVec.ofNat 64 (4 * k) } = .refused (.otherInstruction w)))) ∧
    (∀ x : Word, ({ q with pc := x } : Pe).exited = true ↔ x.toNat = a.toNat + 4 * ws.length) ∧
    (p.mem.wf = true → q.mem.wf = true) ∧
    q.regs = p.regs ∧ q.pstate = p.pstate ∧ q.sys = p.sys ∧ q.tlb = p.tlb ∧ q.inFlight = p.inFlight) ∧
  (∀ (a : Word) (ws : List InstrWord) (p : Pe), a.toNat % 4 ≠ 0 ∨ 2 ^ 64 - 4 < a.toNat + 4 * ws.length →
    loadProgram a ws p = none)

/-- No fetch beyond the list is made (70_reset_and_hazards R114 (2): log 28): along every run from a state that meets
the invariant a PE that was given a program fetches an instruction only at one of its words. -/
def Obligations.NoFetchBeyondTheProgram : Prop :=
  ∀ (n : Nat) (s t : State) (p : Nat) (q : Pe) (g : Program) (i : Instr), s.Inv → Sys2Proof.core.run n s = .next t →
    t.peAt p = some q → q.program = some g → fetch q = .instr i →
    ∃ k : Nat, k < g.words ∧ q.pc = g.base + BitVec.ofNat 64 (4 * k)

/-- A fetch is a memory access (20_memory R41, 10_state R26, D24: log 36). Free: its memory system may translate it with
any entries of the PE's TLB and give it either XS attribute, so until an operation is performed a fetch may use an entry
it requires to go (70_reset_and_hazards R108). Counted: an operation then performed on the PE waits for every access in
flight there that used an entry it removed, unless its attribute excludes it. -/
def Obligations.FetchesAreAccessesInFlight : Prop :=
  (∀ (s : State) (p : Nat) (q : Pe) (i : Instr) (ms : List Move) (used : List TlbEntry) (xs : Bool),
    s.peAt p = some q → fetch q = .instr i → (∀ e ∈ used, e ∈ q.tlb) →
    ∃ (f : FetchChoice) (t : State) (q' : Pe) (a : Access),
      step { s with schedule := .run p f :: ms } = .next t ∧ t.peAt p = some q' ∧ q'.inFlight = q.inFlight ++ [a] ∧
      (∀ e, e ∈ a.used ↔ e ∈ used) ∧ a.xs = xs ∧ a.complete = false) ∧
  (∀ (s t : State) (k p : Nat) (drops : List TlbEntry) (ms : List Move) (op op' : Op) (q : Pe) (a : Access) (e : TlbEntry),
    s.schedule = .perform k p drops :: ms → s.ops[k]? = some op → s.peAt p = some q →
    p ∈ s.scope op → op.performedOn p = false → a ∈ q.inFlight → e ∈ a.used → e ∈ q.tlb →
    op.requires s.cfg e = true → (op.call.attr = .allAttr ∨ a.xs = false) →
    step s = .next t → t.ops[k]? = some op' →
    ∃ q' : Pe, t.peAt p = some q' ∧ a ∈ q'.inFlight ∧ e ∉ q'.tlb ∧ OpWaitsFor op' p a)

/-! ### What the instructions do -/

/-- The record of an operation just issued by the running PE: neither performed anywhere nor complete (10_state R27). -/
def issuedOp (s : State) (call : TlbiCall) : Op :=
  { call := call, issuer := s.before.length, el2en := el2Enabled s.cfg s.pe
    large := largeBaseAddr s.cfg s.pe call.regime, performed := [], complete := false }

/-- The state after an instruction that issued one operation: the record joins the issued ones, `pc` advances by 4
(10_state R12), nothing else changes. -/
def afterIssue (s : State) (call : TlbiCall) : State :=
  { s with ops := s.ops ++ [issuedOp s call], pe := { s.pe with pc := s.pe.pc + 4 } }

/-- The operand `X[t]`: register 31 (and no other number the encoding has) reads as zero (GK4: log 5). -/
def operandOf (s : State) (t : Nat) : Word := if h : t < 31 then s.pe.regs[t] else 0

/-- TLBI RVAALE1 at EL1, not trapped, issues one operation on the EL1&0 regime of the current VMID, widened by
`HCR_EL2.FB` and weakened by `HCRX_EL2.FnXS` (40_tlbi_rvaale1 R61; R63 rows 6 and 7; that operands with a reserved
granule or an end past 2^64 issue too is the model's choice, log 12 and log 13). -/
def Obligations.BaseEncodingIssuesAtEl1 : Prop :=
  ∀ (s : State) (t : Nat), s.cfg.featTLBIRANGE = true → s.pe.pstate.el = .el1 →
    ¬(el2Enabled s.cfg s.pe = true ∧ s.pe.sys.hcrEl2.ttlb = true) →
    ¬(el2Enabled s.cfg s.pe = true ∧ s.cfg.featFGT = true ∧
      (s.cfg.haveEL3 = false ∨ s.pe.sys.scrEl3.fgten = true) ∧ s.pe.sys.hfgitrEl2.tlbirvaale1 = true) →
    exec (.tlbiRvaale1 t) s = .next (afterIssue s
      { ss := securityStateEl1 s.cfg s.pe, regime := .el10, vmid := some (currentVmid s.cfg s.pe)
        sh := if el2Enabled s.cfg s.pe = true ∧ s.pe.sys.hcrEl2.fb = true then .ish else .nsh
        level := .last
        attr := if s.cfg.featXS = true ∧ s.cfg.featHCX = true ∧ hcrxEl2Enabled s.cfg s.pe = true ∧
          s.pe.sys.hcrxEl2.fnxs = true then .excludeXS else .allAttr
        xt := operandOf s t })

/-- TLBI RVAALE1NXS at EL1, not trapped, issues one ExcludeXS operation on the EL1&0 regime of the current VMID; its
fine-grained trap has the further gates FEAT_HCX and `HCRX_EL2.FGTnXS` (40_tlbi_rvaale1 R62; R63 rows 6 and 7; that
operands with a reserved granule or an end past 2^64 issue too is the model's choice, log 12 and log 13). -/
def Obligations.NxsEncodingIssuesAtEl1 : Prop :=
  ∀ (s : State) (t : Nat), s.cfg.featTLBIRANGE = true → s.cfg.featXS = true → s.pe.pstate.el = .el1 →
    ¬(el2Enabled s.cfg s.pe = true ∧ s.pe.sys.hcrEl2.ttlb = true) →
    ¬(el2Enabled s.cfg s.pe = true ∧ s.cfg.featFGT = true ∧
      (s.cfg.haveEL3 = false ∨ s.pe.sys.scrEl3.fgten = true) ∧ s.cfg.featHCX = true ∧
      (hcrxEl2Enabled s.cfg s.pe = false ∨ s.pe.sys.hcrxEl2.fgtnxs = false) ∧
      s.pe.sys.hfgitrEl2.tlbirvaale1 = true) →
    exec (.tlbiRvaale1nxs t) s = .next (afterIssue s
      { ss := securityStateEl1 s.cfg s.pe, regime := .el10, vmid := some (currentVmid s.cfg s.pe)
        sh := if el2Enabled s.cfg s.pe = true ∧ s.pe.sys.hcrEl2.fb = true then .ish else .nsh
        level := .last, attr := .excludeXS, xt := operandOf s t })

/-- At EL2 both encodings issue one local operation: on the EL2&0 regime with no VMID in host mode, on the EL1&0 regime
of the current VMID otherwise; the base encoding waits for all accesses (40_tlbi_rvaale1 R61, R62; R63 rows 8 and 9;
that operands with a reserved granule or an end past 2^64 issue too is the model's choice, log 12 and log 13). -/
def Obligations.BothEncodingsIssueAtEl2 : Prop :=
  ∀ (s : State) (t : Nat), s.cfg.featTLBIRANGE = true → s.pe.pstate.el = .el2 →
    (elIsInHost s.cfg s.pe = true →
      exec (.tlbiRvaale1 t) s = .next (afterIssue s
        { ss := securityStateEl2 s.cfg s.pe, regime := .el20, vmid := none, sh := .nsh, level := .last
          attr := .allAttr, xt := operandOf s t }) ∧
      (s.cfg.featXS = true → exec (.tlbiRvaale1nxs t) s = .next (afterIssue s
        { ss := securityStateEl2 s.cfg s.pe, regime := .el20, vmid := none, sh := .nsh, level := .last
          attr := .excludeXS, xt := operandOf s t }))) ∧
    (elIsInHost s.cfg s.pe = false →
      exec (.tlbiRvaale1 t) s = .next (afterIssue s
        { ss := securityStateEl1 s.cfg s.pe, regime := .el10, vmid := some (currentVmid s.cfg s.pe), sh := .nsh
          level := .last, attr := .allAttr, xt := operandOf s t }) ∧
      (s.cfg.featXS = true → exec (.tlbiRvaale1nxs t) s = .next (afterIssue s
        { ss := securityStateEl1 s.cfg s.pe, regime := .el10, vmid := some (currentVmid s.cfg s.pe), sh := .nsh
          level := .last, attr := .excludeXS, xt := operandOf s t })))

/-- At EL3 both encodings issue the operation they issue at EL2, for the Security state SCR_EL3 selects, when FEAT_RME
is not implemented or that state is valid (40_tlbi_rvaale1 R61, R62; R63 rows 11 and 13; that operands with a reserved
granule or an end past 2^64 issue too is the model's choice, log 12 and log 13). -/
def Obligations.BothEncodingsIssueAtEl3 : Prop :=
  ∀ (s : State) (t : Nat), s.cfg.featTLBIRANGE = true → s.pe.pstate.el = .el3 →
    (elIsInHost s.cfg s.pe = true → (s.cfg.featRME = false ∨ validSecurityStateEl2 s.cfg s.pe = true) →
      exec (.tlbiRvaale1 t) s = .next (afterIssue s
        { ss := securityStateEl2 s.cfg s.pe, regime := .el20, vmid := none, sh := .nsh, level := .last
          attr := .allAttr, xt := operandOf s t }) ∧
      (s.cfg.featXS = true → exec (.tlbiRvaale1nxs t) s = .next (afterIssue s
        { ss := securityStateEl2 s.cfg s.pe, regime := .el20, vmid := none, sh := .nsh, level := .last
          attr := .excludeXS, xt := operandOf s t }))) ∧
    (elIsInHost s.cfg s.pe = false → (s.cfg.featRME = false ∨ validSecurityStateEl1 s.cfg s.pe = true) →
      exec (.tlbiRvaale1 t) s = .next (afterIssue s
        { ss := securityStateEl1 s.cfg s.pe, regime := .el10, vmid := some (currentVmid s.cfg s.pe), sh := .nsh
          level := .last, attr := .allAttr, xt := operandOf s t }) ∧
      (s.cfg.featXS = true → exec (.tlbiRvaale1nxs t) s = .next (afterIssue s
        { ss := securityStateEl1 s.cfg s.pe, regime := .el10, vmid := some (currentVmid s.cfg s.pe), sh := .nsh
          level := .last, attr := .excludeXS, xt := operandOf s t })))

/-- At EL3 with FEAT_RME and an invalid Security state for the target level both encodings do nothing but advance `pc`
(40_tlbi_rvaale1 R61 and R62, the two `return` arms; R63 rows 10 and 12). -/
def Obligations.InvalidSecurityStateAtEl3DoesNothing : Prop :=
  ∀ (s : State) (t : Nat), s.cfg.featTLBIRANGE = true → s.cfg.featRME = true → s.pe.pstate.el = .el3 →
    (if elIsInHost s.cfg s.pe then validSecurityStateEl2 s.cfg s.pe else validSecurityStateEl1 s.cfg s.pe) = false →
    exec (.tlbiRvaale1 t) s = .next { s with pe := { s.pe with pc := s.pe.pc + 4 } } ∧
    (s.cfg.featXS = true →
      exec (.tlbiRvaale1nxs t) s = .next { s with pe := { s.pe with pc := s.pe.pc + 4 } })

/-- Both encodings answer a next state in every state and for every operand: none of them stops the machine, whatever
the configuration, the level, the controls or the register's value (60_exceptions R92; that a reserved granule and an
end past 2^64 run too is the model's choice, log 12 and log 13; that an exception is taken, and is a next state, is its
choice too, log 16). -/
def Obligations.ExecNeverStops : Prop :=
  ∀ (i : Instr) (s : State), ∃ t : State, exec i s = .next t

/-- The registers an instruction never writes and the state it never touches (40_tlbi_rvaale1 R65): general registers,
control registers, stack pointers, vector bases, memory, TLBs, accesses in flight, other PEs, other operations. The
exception registers change only with an exception, and then only those of the level it is taken to. -/
def Obligations.InstructionsLeaveTheRestUnchanged : Prop :=
  ∀ (i : Instr) (s t : State), exec i s = .next t →
    t.pe.regs = s.pe.regs ∧ t.pe.sys = s.pe.sys ∧ t.pe.helpers = s.pe.helpers ∧ t.pe.spEl0 = s.pe.spEl0 ∧
    (∀ l : TargetEl, (t.pe.bank l).sp = (s.pe.bank l).sp ∧ (t.pe.bank l).vbar = (s.pe.bank l).vbar) ∧
    (∀ a : Nat, t.pe.mem.read a = s.pe.mem.read a) ∧ t.pe.mem = s.pe.mem ∧ t.pe.program = s.pe.program ∧
    t.pe.tlb = s.pe.tlb ∧ t.pe.inFlight = s.pe.inFlight ∧
    t.cfg = s.cfg ∧ t.before = s.before ∧ t.after = s.after ∧ t.schedule = s.schedule ∧
    (t.ops = s.ops ∨ ∃ op, t.ops = s.ops ++ [op]) ∧
    (t.pe.raised = s.pe.raised →
      t.pe.pstate = s.pe.pstate ∧ ∀ l : TargetEl, t.pe.bank l = s.pe.bank l) ∧
    (t.pe.raised ≠ s.pe.raised → t.ops = s.ops ∧
      ∀ l : TargetEl, l.toEl ≠ t.pe.pstate.el → t.pe.bank l = s.pe.bank l)

/-- The program counter changes in two ways only: by 4, or by exception entry (40_tlbi_rvaale1 R66, 10_state R12; where
entry goes is GK13's: log 16). -/
def Obligations.PcAdvancesOrGoesToTheVector : Prop :=
  ∀ (i : Instr) (s t : State), exec i s = .next t →
    (t.pe.raised = s.pe.raised ∧ t.pe.pc = s.pe.pc + 4) ∨
    (∃ (r : Raised) (l : TargetEl), t.pe.raised = r :: s.pe.raised ∧ t.pe.pstate.el = l.toEl ∧
      (t.pe.pc = (s.pe.bank l).vbar + 0x400 ∨ t.pe.pc = (s.pe.bank l).vbar + 0x200 ∨ t.pe.pc = (s.pe.bank l).vbar))

/-- Both encodings, where both reach a call, issue the same operation but for the attribute; at EL1 with `HCRX_EL2.FnXS`
in effect the two are the same operation; at EL2 and EL3 the base encoding's attribute is AllAttr; and the trap
conditions differ only in the fine-grained trap (40_tlbi_rvaale1 R64, which the spec derives from R61 and R62). -/
def Obligations.EncodingsDifferOnlyInTheAttribute : Prop :=
  ∀ (n : Nat) (s a b : State), exec (.tlbiRvaale1 n) s = .next a → exec (.tlbiRvaale1nxs n) s = .next b →
    (∀ x y : Op, a.ops = s.ops ++ [x] → b.ops = s.ops ++ [y] →
      y = { x with call := { x.call with attr := .excludeXS } } ∧
      (s.pe.pstate.el = .el1 → s.cfg.featXS = true → s.cfg.featHCX = true → hcrxEl2Enabled s.cfg s.pe = true →
        s.pe.sys.hcrxEl2.fnxs = true → x = y) ∧
      (s.pe.pstate.el = .el2 ∨ s.pe.pstate.el = .el3 → x.call.attr = .allAttr)) ∧
    (s.cfg.featXS = true → (∀ iss : BitVec 25, b.pe.raised = .trapEl2 0x18 iss :: s.pe.raised →
      ∃ iss' : BitVec 25, a.pe.raised = .trapEl2 0x18 iss' :: s.pe.raised)) ∧
    (∀ iss : BitVec 25, a.pe.raised = .trapEl2 0x18 iss :: s.pe.raised → b.pe.raised = s.pe.raised →
      s.pe.sys.hcrEl2.ttlb = false ∧ s.pe.sys.hfgitrEl2.tlbirvaale1 = true ∧
      (s.cfg.featHCX = false ∨ (hcrxEl2Enabled s.cfg s.pe = true ∧ s.pe.sys.hcrxEl2.fgtnxs = true)))

/-- The operand is `X[t]` at the instruction's own step: register 31 gives zero (GK4: log 5), and registers other than
the operand's have no part in the operation (10_state R10, 30_encoding R48). -/
def Obligations.OperandIsTheNamedRegister : Prop :=
  (∀ p : Pe, readX p 31 = 0) ∧
  (∀ (p : Pe) (t : Nat) (h : t < 31), readX p t = p.regs[t]) ∧
  (∀ (i : Instr) (s t : State) (op : Op), exec i s = .next t → t.ops = s.ops ++ [op] →
    op.call.xt = readX s.pe i.operandReg)

/-! ### Exceptions -/

/-- The instruction is the nXS encoding. -/
def isNxs : Instr → Bool
  | .tlbiRvaale1 _ => false
  | .tlbiRvaale1nxs _ => true

/-- The first exception that applies, in the order of 60_exceptions R93. -/
def firstException (i : Instr) (s : State) : Option Raised :=
  if s.cfg.featTLBIRANGE = false then some .undefined
  else if isNxs i = true ∧ s.cfg.featXS = false then some .undefined
  else if s.pe.pstate.el = .el0 then some .undefined
  else if s.pe.pstate.el = .el1 ∧ el2Enabled s.cfg s.pe = true ∧ s.pe.sys.hcrEl2.ttlb = true then
    some (.trapEl2 0x18 (trapIss i.fields i.operandReg))
  else if s.pe.pstate.el = .el1 ∧ el2Enabled s.cfg s.pe = true ∧ s.cfg.featFGT = true ∧
      (s.cfg.haveEL3 = false ∨ s.pe.sys.scrEl3.fgten = true) ∧
      (isNxs i = true → s.cfg.featHCX = true ∧
        (hcrxEl2Enabled s.cfg s.pe = false ∨ s.pe.sys.hcrxEl2.fgtnxs = false)) ∧
      s.pe.sys.hfgitrEl2.tlbirvaale1 = true then
    some (.trapEl2 0x18 (trapIss i.fields i.operandReg))
  else none

/-- An execution raises at most one exception, the first that applies in the order: FEAT_TLBIRANGE (placed first by D7:
log 29), FEAT_XS for nXS, EL0, `HCR_EL2.TTLB`, `HFGITR_EL2.TLBIRVAALE1`; an execution that raises none issues exactly
one operation, but where a `return` arm applies (EL3, FEAT_RME, an invalid Security state), which issues none
(60_exceptions R90, R91, R92, R93; that an exception is taken and every operand issues: log 16, log 12, log 13). -/
def Obligations.OneExceptionInTheOrderOfTheSpec : Prop :=
  ∀ (i : Instr) (s t : State), exec i s = .next t →
    t.pe.raised = (firstException i s).toList ++ s.pe.raised ∧
    ((firstException i s).isSome → t.ops = s.ops) ∧
    (firstException i s = none →
      ¬(s.pe.pstate.el = .el3 ∧ s.cfg.featRME = true ∧
        (if elIsInHost s.cfg s.pe then validSecurityStateEl2 s.cfg s.pe else validSecurityStateEl1 s.cfg s.pe) = false) →
      ∃ op, t.ops = s.ops ++ [op]) ∧
    (s.pe.pstate.el = .el3 → s.cfg.featRME = true →
      (if elIsInHost s.cfg s.pe then validSecurityStateEl2 s.cfg s.pe else validSecurityStateEl1 s.cfg s.pe) = false →
      t.ops = s.ops)

/-- `Undefined` in exactly three cases, with no operation issued (60_exceptions R90). That the exception is taken, and
is a next state, is the model's choice (log 16), and so is that the other cases answer a next state for every operand
(log 12, log 13). -/
def Obligations.UndefinedInExactlyThreeCases : Prop :=
  ∀ (i : Instr) (s : State), ∃ t : State, exec i s = .next t ∧
    ((t.pe.raised = .undefined :: s.pe.raised ↔
      (s.cfg.featTLBIRANGE = false ∨ (isNxs i = true ∧ s.cfg.featXS = false) ∨
        s.pe.pstate.el = .el0)) ∧
     (t.pe.raised = .undefined :: s.pe.raised → t.ops = s.ops))

/-- Where an Undefined exception goes and what it reports is GK12's (log 17, log 18): from EL0 to EL1, or to EL2 when
EL2 is enabled and `HCR_EL2.TGE == 1`; from another level to that level; EC 0x00, no syndrome. -/
def Obligations.UndefinedTargetAndSyndrome : Prop :=
  ∀ (i : Instr) (s t : State), exec i s = .next t → t.pe.raised = .undefined :: s.pe.raised →
    t.pe.pstate.el =
      (if s.pe.pstate.el = .el0 then
        (if el2Enabled s.cfg s.pe = true ∧ s.pe.sys.hcrEl2.tge = true then .el2 else .el1)
      else s.pe.pstate.el) ∧
    ∀ l : TargetEl, l.toEl = t.pe.pstate.el →
      (t.pe.bank l).esr.toNat / 2 ^ 26 = 0 ∧ (t.pe.bank l).esr.toNat % 2 ^ 25 = 0

/-- A trapped instruction reports EC 0x18, IL 1 and its own encoding in ESR_EL2, and is taken to EL2 (60_exceptions R91;
the syndrome's layout is GK12's: log 17). -/
def Obligations.TrapSyndromeNamesTheInstruction : Prop :=
  ∀ (i : Instr) (s t : State) (ec : BitVec 6) (iss : BitVec 25), exec i s = .next t →
    t.pe.raised = .trapEl2 ec iss :: s.pe.raised →
    ec = 0x18 ∧ t.pe.pstate.el = .el2 ∧ t.pe.ex2.esr.toNat = 0x18 * 2 ^ 26 + 2 ^ 25 + iss.toNat ∧
    (i.wellFormed = true → iss.toNat =
      (match i with | .tlbiRvaale1 n => 0x1E200C + 32 * n | .tlbiRvaale1nxs n => 0x1E240C + 32 * n))

/-- Taking an exception (60_exceptions R94, GK13: the model's choice to take it is log 16): ELR holds the address of the
instruction, SPSR the old PSTATE; D, A, I, F are masked and the level's own stack pointer is selected; `pc` is the
vector base plus 0x400 from a lower level, 0x200 from the same level with SP_ELx, 0x000 with SP_EL0. -/
def Obligations.ExceptionEntrySavesAndVectors : Prop :=
  ∀ (i : Instr) (s t : State) (l : TargetEl), exec i s = .next t → t.pe.raised ≠ s.pe.raised →
    t.pe.pstate.el = l.toEl →
    (t.pe.bank l).elr = s.pe.pc ∧ (t.pe.bank l).spsr = s.pe.pstate ∧
    t.pe.pstate.d = true ∧ t.pe.pstate.a = true ∧ t.pe.pstate.i = true ∧ t.pe.pstate.f = true ∧
    t.pe.currentSp = (s.pe.bank l).sp ∧
    t.pe.pc = (s.pe.bank l).vbar +
      (if s.pe.pstate.el ≠ l.toEl then 0x400 else if s.pe.pstate.sp = true then 0x200 else 0x000)

/-- Returning from an exception undoes its entry: `pc` and PSTATE are as they were, so the instruction can run again
(60_exceptions R94, R95; no instruction of this spec returns, log 34). -/
def Obligations.ExceptionReturnRestores : Prop :=
  ∀ (p : Pe) (r : Raised) (l : TargetEl),
    ((p.takeException r l).exceptionReturn l).pc = p.pc ∧
    ((p.takeException r l).exceptionReturn l).pstate = p.pstate ∧
    ((p.takeException r l).exceptionReturn l).regs = p.regs

/-- The fine-grained trap, with the coarse one off: the base encoding is trapped, the nXS encoding only with FEAT_HCX
and unless `HCRX_EL2.FGTnXS` exempts it (10_state R16, R17, R18; U6: log 37). That both answer a next state, trapped or
not and for every operand, is the model's choice (log 16, log 12, log 13). -/
def Obligations.FineGrainedTrapGates : Prop :=
  ∀ (s : State) (n : Nat), s.cfg.featTLBIRANGE = true → s.cfg.featXS = true → s.pe.pstate.el = .el1 →
    el2Enabled s.cfg s.pe = true → s.pe.sys.hcrEl2.ttlb = false → s.cfg.featFGT = true →
    s.pe.sys.hfgitrEl2.tlbirvaale1 = true →
    ∃ a b : State, exec (.tlbiRvaale1 n) s = .next a ∧ exec (.tlbiRvaale1nxs n) s = .next b ∧
      (a.pe.raised ≠ s.pe.raised ↔ (s.cfg.haveEL3 = true → s.pe.sys.scrEl3.fgten = true)) ∧
      (b.pe.raised ≠ s.pe.raised ↔ (s.cfg.haveEL3 = true → s.pe.sys.scrEl3.fgten = true) ∧ s.cfg.featHCX = true ∧
        ¬(hcrxEl2Enabled s.cfg s.pe = true ∧ s.pe.sys.hcrxEl2.fgtnxs = true))

/-- The hypervisor's controls apply at EL1 with EL2 enabled only: elsewhere there is no trap, the operation stays local
and the attribute is the encoding's own (60_exceptions R96). The premise that HCRX_EL2 takes effect only with EL2
enabled is GK10's; 40_tlbi_rvaale1 R61 corner case (2) leaves it to the helper (log 2). -/
def Obligations.HypervisorControlsNeedEl1AndEl2Enabled : Prop :=
  ∀ (i : Instr) (s t : State), exec i s = .next t →
    (el2Enabled s.cfg s.pe = false ∨ s.pe.pstate.el = .el2 ∨ s.pe.pstate.el = .el3) →
    (hcrxEl2Enabled s.cfg s.pe = true → el2Enabled s.cfg s.pe = true) →
    (∀ (ec : BitVec 6) (iss : BitVec 25), t.pe.raised ≠ .trapEl2 ec iss :: s.pe.raised) ∧
    (∀ op : Op, t.ops = s.ops ++ [op] → op.call.sh = .nsh ∧
      op.call.attr = (match i with | .tlbiRvaale1 _ => .allAttr | .tlbiRvaale1nxs _ => .excludeXS))

/-- No exception depends on the operand (40_tlbi_rvaale1 R65): with every general register replaced, the instruction
raises the same exception, to the same level, with the same `pc`, and issues an operation in the same cases (the last
since operands with a reserved granule or an end past 2^64 issue too, the model's choice: log 12, log 13). -/
def Obligations.ExceptionsDoNotReadTheOperand : Prop :=
  ∀ (i : Instr) (s t : State) (regs : Vector Word 31), exec i s = .next t →
    ∃ u : State, exec i { s with pe := { s.pe with regs := regs } } = .next u ∧
      u.pe = { t.pe with regs := regs } ∧ u.ops.length = t.ops.length ∧
      u.ops.map (fun op => { op with call := { op.call with xt := 0 } }) =
        t.ops.map (fun op => { op with call := { op.call with xt := 0 } })

/-! ### The operand -/

/-- The fields of the operand are the bits 30_encoding R56 names, as numbers; assembling them gives the operand with
bits [63:48] cleared, and taking the assembled operand apart gives the fields (positions of TG, SCALE and NUM GK2's: log
9); and TG names the granules of the table of R51, with the sizes of 41_tlbi_rvaa_operation R71. -/
def Obligations.OperandFieldsRoundTrip : Prop :=
  (∀ xt : Word, (decodeOperand xt).tg.toNat = xt.toNat / 2 ^ 46 % 4 ∧
    (decodeOperand xt).scale.toNat = xt.toNat / 2 ^ 44 % 4 ∧ (decodeOperand xt).num.toNat = xt.toNat / 2 ^ 39 % 32 ∧
    (decodeOperand xt).ttl.toNat = xt.toNat / 2 ^ 37 % 4 ∧ (decodeOperand xt).base.toNat = xt.toNat % 2 ^ 37) ∧
  (∀ xt : Word, (encodeOperand (decodeOperand xt)).toNat = xt.toNat % 2 ^ 48) ∧
  (∀ o : Operand, decodeOperand (encodeOperand o) = o) ∧
  (∀ o : Operand, (encodeOperand o).toNat = o.tg.toNat * 2 ^ 46 + o.scale.toNat * 2 ^ 44 + o.num.toNat * 2 ^ 39 +
    o.ttl.toNat * 2 ^ 37 + o.base.toNat) ∧
  (granuleOfTg 0b00 = none ∧ granuleOfTg 0b01 = some .g4K ∧ granuleOfTg 0b10 = some .g16K ∧
    granuleOfTg 0b11 = some .g64K) ∧
  (granuleBytes .g4K = 4096 ∧ granuleBytes .g16K = 16384 ∧ granuleBytes .g64K = 65536)

/-- Operand bits [63:48] have no effect: two operands that agree below bit 48 require the same entries of every
operation and every TLB (30_encoding R50; ignoring them is D19: log 39). -/
def Obligations.Res0BitsHaveNoEffect : Prop :=
  ∀ (c : Config) (op : Op) (xt xt' : Word) (e : TlbEntry), xt.toNat % 2 ^ 48 = xt'.toNat % 2 ^ 48 →
    ({ op with call := { op.call with xt := xt } } : Op).requires c e =
      ({ op with call := { op.call with xt := xt' } } : Op).requires c e

/-- The starting address (41_tlbi_rvaa_operation R72): the field stands at bit 12, 14 or 16 by granule under description
(b) and at bit 16 for all granules under (a); the bits below are zero (D11) and the bits above copy the field's top bit
(GK7, D10: log 11). -/
def Obligations.StartingAddressPlacesTheField : Prop :=
  ∀ (large : Bool) (g : Granule) (base : BitVec 37) (n : Nat),
    n = (match large, g with | false, .g4K => 12 | false, .g16K => 14 | false, .g64K => 16 | true, _ => 16) →
    (baseVa large g base).toNat / 2 ^ n % 2 ^ 37 = base.toNat ∧
    (baseVa large g base).toNat % 2 ^ n = 0 ∧
    (baseVa large g base).toNat / 2 ^ (n + 37) =
      (if base.toNat < 2 ^ 36 then 0 else 2 ^ (64 - (n + 37)) - 1)

/-- The size of the range (41_tlbi_rvaa_operation R73): `(num + 1) * 2^(5*scale + 1)` granules of 2^12, 2^14 or 2^16
bytes; at least 2 granules and at most 2^21; `num = 31` at one scale is `num = 0` at the next. -/
def Obligations.RangeSizeFormula : Prop :=
  (∀ (g : Granule) (num : BitVec 5) (scale : BitVec 2),
    rangeSize g num scale = (num.toNat + 1) * 2 ^ (5 * scale.toNat + 1) *
      (match g with | .g4K => 4096 | .g16K => 16384 | .g64K => 65536) ∧
    2 * granuleBytes g ≤ rangeSize g num scale ∧ rangeSize g num scale ≤ 2 ^ 21 * granuleBytes g) ∧
  (∀ g : Granule, rangeSize g 0 0 = 2 * granuleBytes g ∧ rangeSize g 31 3 = 2 ^ 21 * granuleBytes g) ∧
  (∀ (g : Granule) (scale : BitVec 2), scale.toNat < 3 → rangeSize g 31 scale = rangeSize g 0 (scale + 1))

/-- The effective level hint (41_tlbi_rvaa_operation R75; D30: log 15): 0b01 counts as 0b00 with the 16K granule when
FEAT_LPA2 is not implemented, and every other hint is itself. -/
def Obligations.EffectiveLevelHint : Prop :=
  ∀ (c : Config) (g : Granule) (ttl : BitVec 2),
    (ttl = 0b01 → g = .g16K → c.featLPA2 = false → effectiveTtl c g ttl = 0b00) ∧
    (ttl ≠ 0b01 ∨ g ≠ .g16K ∨ c.featLPA2 = true → effectiveTtl c g ttl = ttl)

/-! ### The issued operation -/

/-- An entry translates an address when one of its blocks holds it (10_state R25, log 32). -/
def TlbEntryTranslates (e : TlbEntry) (v : Nat) : Prop :=
  ∃ b ∈ e.covers, b.base ≤ v ∧ v < b.base + b.size

/-- Which entries must go: for an operand with a granule, an entry is required exactly when it meets the five
requirements of 41_tlbi_rvaa_operation R76 to R80 and, being a 64-bit entry, the range is not in the UNPREDICTABLE set
of R83. The range is R74's, and where its end passes 2^64 the end is a free value (log 12). (The reading of "any of the
VAs" is D22, of the VMID condition D29, of the granule D25: log 31, log 33; the UNPREDICTABLE set GK18: log 14.) -/
def Obligations.RequiredEntriesMeetTheFiveRequirements : Prop :=
  ∀ (c : Config) (op : Op) (e : TlbEntry) (g : Granule) (o : Operand) (stop : Nat), o = decodeOperand op.call.xt →
    granuleOfTg o.tg = some g →
    stop = (if (baseVa op.large g o.base).toNat + rangeSize g o.num o.scale ≤ 2 ^ 64 then
        (baseVa op.large g o.base).toNat + rangeSize g o.num o.scale
      else Config.endPastTop (baseVa op.large g o.base).toNat (rangeSize g o.num o.scale)) →
    (op.requires c e = true ↔
      (e.stage1 = true ∧ e.leaf = true ∧
        ((e.descBits = .d64 ∧
            (effectiveTtl c g o.ttl = 0b00 ∨ e.level = ((effectiveTtl c g o.ttl).toNat : Int))) ∨
         (c.featD128 = true ∧ e.descBits = .d128 ∧ effectiveTtl c g o.ttl = 0b00))) ∧
      (∃ v : Nat, (baseVa op.large g o.base).toNat ≤ v ∧ v < stop ∧ TlbEntryTranslates e v) ∧
      (e.ss = op.call.ss ∧ e.regime = op.call.regime ∧
        (op.call.regime = .el10 → op.el2en = true → e.vmid = op.call.vmid)) ∧
      e.granule = g ∧
      (e.descBits = .d64 →
        unpredictableRange g (effectiveTtl c g o.ttl) (baseVa op.large g o.base).toNat = false))

/-- ASID and the global attribute are not consulted (41_tlbi_rvaa_operation R79). -/
def Obligations.AsidAndGlobalAreIgnored : Prop :=
  ∀ (c : Config) (op : Op) (e : TlbEntry) (isGlobal : Bool) (asid : Nat),
    op.requires c { e with isGlobal := isGlobal, asid := asid } = op.requires c e

/-- Operands whose range the spec withdraws or does not settle (log 12, log 13, log 14): with a reserved granule nothing
is required; in the UNPREDICTABLE set no 64-bit entry is (R83), and no 128-bit one since the hint is not 0b00 (R76), so
nothing is; with an end past 2^64 the range starts where the operand says and ends at a free value, so an empty range
requires nothing. (41_tlbi_rvaa_operation R74, R76, R83, R84: the choice to run on such operands is the model's.) -/
def Obligations.OperandsWithoutASettledRange : Prop :=
  (∀ (c : Config) (op : Op) (e : TlbEntry), (decodeOperand op.call.xt).tg = 0b00 → op.requires c e = false) ∧
  (∀ (c : Config) (op : Op) (e : TlbEntry) (g : Granule) (start size : Nat),
    granuleOfTg (decodeOperand op.call.xt).tg = some g →
    start = (baseVa op.large g (decodeOperand op.call.xt).base).toNat →
    size = rangeSize g (decodeOperand op.call.xt).num (decodeOperand op.call.xt).scale → 2 ^ 64 < start + size →
    (op.requires c e = true → ∃ v, start ≤ v ∧ v < Config.endPastTop start size ∧ TlbEntryTranslates e v) ∧
    (Config.endPastTop start size ≤ start → op.requires c e = false)) ∧
  (∀ (c : Config) (op : Op) (e : TlbEntry) (g : Granule), granuleOfTg (decodeOperand op.call.xt).tg = some g →
    unpredictableRange g (effectiveTtl c g (decodeOperand op.call.xt).ttl)
      (baseVa op.large g (decodeOperand op.call.xt).base).toNat = true →
    op.requires c e = false)

/-- The UNPREDICTABLE set (41_tlbi_rvaa_operation R83; the leaf entry sizes are GK18's: log 14): hint 0b01 or 0b10 and a
starting address that is no multiple of the leaf entry size of that level. -/
def Obligations.UnpredictableSetIsMisalignment : Prop :=
  ∀ (g : Granule) (ttl : BitVec 2) (start : Nat), unpredictableRange g ttl start = true ↔
    (ttl = 0b01 ∧ ¬(match g with | .g4K => 2 ^ 30 | .g16K => 2 ^ 36 | .g64K => 2 ^ 42) ∣ start) ∨
    (ttl = 0b10 ∧ ¬(match g with | .g4K => 2 ^ 21 | .g16K => 2 ^ 25 | .g64K => 2 ^ 29) ∣ start)

/-- Which PEs an operation reaches (41_tlbi_rvaa_operation R81, GK16; ISDomain is the open parameter D20: log 30): the
issuer alone, or the PEs of its Inner Shareable domain, the issuer among them. -/
def Obligations.ScopeOfAnOperation : Prop :=
  ∀ (s : State) (op : Op), op.issuer < s.npe →
    (op.call.sh = .nsh → ∀ p, p ∈ s.scope op ↔ p = op.issuer) ∧
    (op.call.sh = .ish → ∀ p, p ∈ s.scope op ↔ p < s.npe ∧ (p = op.issuer ∨ (op.issuer, p) ∈ s.cfg.isPairs)) ∧
    op.issuer ∈ s.scope op

/-- The removal on one PE (41_tlbi_rvaa_operation R81; which further entries go is free, D13: log 23). Sound: what is
left is a part of the TLB with no required entry, the operation is marked performed there with what was required, and
nothing else of the machine changes. Complete: every part of the TLB with no required entry can be what is left. -/
def Obligations.RemovalLeavesAnyAllowedSet : Prop :=
  ∀ (s : State) (k p : Nat) (drops : List TlbEntry) (ms : List Move) (op : Op) (q : Pe),
    s.schedule = .perform k p drops :: ms → s.ops[k]? = some op → s.peAt p = some q →
    p ∈ s.scope op → op.performedOn p = false →
    (∃ (t : State) (tlb : List TlbEntry), step s = .next t ∧
      (∀ e ∈ tlb, e ∈ q.tlb ∧ op.requires s.cfg e = false) ∧
      t.allPes = s.allPes.set p { q with tlb := tlb } ∧
      t.ops = s.ops.set k { op with performed := op.performed ++
        [{ pe := p, required := q.tlb.filter (fun e => op.requires s.cfg e) }] } ∧
      t.cfg = s.cfg ∧ t.peId = s.peId ∧ t.schedule = ms) ∧
    (∀ keep : List TlbEntry, (∀ e ∈ keep, e ∈ q.tlb ∧ op.requires s.cfg e = false) →
      ∃ (drops' : List TlbEntry) (t : State) (q' : Pe),
        step { s with schedule := .perform k p drops' :: ms } = .next t ∧ t.peAt p = some q' ∧
        ∀ e, e ∈ q'.tlb ↔ e ∈ keep)

/-- The agent performs an operation on a PE once, and only on PEs of its scope (41_tlbi_rvaa_operation R81): any other
such move changes nothing but the schedule (log 22). -/
def Obligations.RemovalOnceAndInScopeOnly : Prop :=
  ∀ (s : State) (k p : Nat) (drops : List TlbEntry) (ms : List Move),
    s.schedule = .perform k p drops :: ms →
    (∀ op, s.ops[k]? = some op → p ∉ s.scope op ∨ op.performedOn p = true) →
    step s = .next { s with schedule := ms }

/-- Completion (41_tlbi_rvaa_operation R82; that the mark is set by a move of the agent, which may come late, is the
model's choice: log 24): the agent's declaration marks an operation complete exactly when it has been performed on every
PE of its scope and every access there that it waits for has completed; the mark is all that changes; and both
attributes perform the same invalidation, for what an operation requires does not depend on its attribute. -/
def Obligations.CompletionCondition : Prop :=
  ∀ (s : State) (k : Nat) (ms : List Move) (op : Op), s.schedule = .declare k :: ms → s.ops[k]? = some op →
    ((∀ p ∈ s.scope op, op.performedOn p = true ∧
        ∀ q, s.peAt p = some q → ∀ a ∈ q.inFlight, OpWaitsFor op p a → a.complete = true) →
      step s = .next { s with schedule := ms, ops := s.ops.set k { op with complete := true } }) ∧
    (¬(∀ p ∈ s.scope op, op.performedOn p = true ∧
        ∀ q, s.peAt p = some q → ∀ a ∈ q.inFlight, OpWaitsFor op p a → a.complete = true) →
      step s = .next { s with schedule := ms }) ∧
    (∀ (attr : TlbiAttr) (e : TlbEntry),
      ({ op with call := { op.call with attr := attr } } : Op).requires s.cfg e = op.requires s.cfg e)

/-- ExcludeXS waits for no more than AllAttr (41_tlbi_rvaa_operation R82, 20_memory R38): where an operation could be
declared complete, the same operation with ExcludeXS could be, and where the ExcludeXS one could be and every access
with XS = 1 has completed, so could the other. -/
def Obligations.ExcludeXsCompletesNoLater : Prop :=
  ∀ (s : State) (op : Op),
    (s.completable op = true →
      s.completable { op with call := { op.call with attr := .excludeXS } } = true) ∧
    (s.completable { op with call := { op.call with attr := .excludeXS } } = true →
      (∀ q ∈ s.allPes, ∀ a ∈ q.inFlight, a.xs = true → a.complete = true) → s.completable op = true)

/-- Removals come in any order (41_tlbi_rvaa_operation R81, R86). Two operations on two PEs: the state after both is the
same. One operation on two PEs, or two operations on one PE: every PE is left the same, and every operation is performed
on the same PEs. (What an operation removed as required can depend on the order, where both require it.) -/
def Obligations.RemovalsComeInAnyOrder : Prop :=
  ∀ (s : State) (k k' p p' : Nat) (drops drops' : List TlbEntry),
    (k ≠ k' → p ≠ p' →
      agentMove (.perform k p drops) (agentMove (.perform k' p' drops') s) =
        agentMove (.perform k' p' drops') (agentMove (.perform k p drops) s)) ∧
    (k ≠ k' ∨ p ≠ p' →
      (agentMove (.perform k p drops) (agentMove (.perform k' p' drops') s)).allPes =
        (agentMove (.perform k' p' drops') (agentMove (.perform k p drops) s)).allPes ∧
      ∀ (j r : Nat),
        (agentMove (.perform k p drops) (agentMove (.perform k' p' drops') s)).ops[j]?.map (fun op => op.performedOn r) =
          (agentMove (.perform k' p' drops') (agentMove (.perform k p drops) s)).ops[j]?.map
            (fun op => op.performedOn r))

/-- A move of the invalidation agent or of a memory system leaves every PE's program alone (60_exceptions R101,
41_tlbi_rvaa_operation R86): no register, no level, no exception, no memory of any PE changes, no operation appears;
only a removal changes a TLB, only a memory system completes an access, and that marks the one access complete and
leaves everything else as it was (10_state R26). -/
def Obligations.AgentMovesLeaveProgramsAlone : Prop :=
  ∀ (s : State) (m : Move) (ms : List Move), s.schedule = m :: ms → (∀ p f, m ≠ .run p f) →
    ∃ t : State, step s = .next t ∧ t.cfg = s.cfg ∧ t.peId = s.peId ∧ t.npe = s.npe ∧
      t.ops.length = s.ops.length ∧ t.schedule = ms ∧
      ∀ (p : Nat) (q : Pe), s.peAt p = some q → ∃ q' : Pe, t.peAt p = some q' ∧
        { q with tlb := q'.tlb, inFlight := q'.inFlight } = q' ∧
        ((∀ (k p' : Nat) (drops : List TlbEntry), m ≠ .perform k p' drops) → q'.tlb = q.tlb) ∧
        ((∀ p' a : Nat, m ≠ .finish p' a) → q'.inFlight = q.inFlight) ∧
        (∀ p' a : Nat, m = .finish p' a → t.ops = s.ops ∧ (p' ≠ p → q' = q) ∧
          (p' = p → ∀ x : Access, q.inFlight[a]? = some x →
            q' = { q with inFlight := q.inFlight.set a { x with complete := true } }))

/-! ### The whole machine -/

/-- Every step keeps the invariant (Safety.lean): memory in canonical form, TLBs sets of entries, `pc` a multiple of 4,
an implemented level, operations of the forms D0 passes, performed only in scope and at most once, no required entry
left where an operation was performed, a complete mark only where the condition of 41_tlbi_rvaa_operation R82 holds, and
`pc` in its program. That no required entry stands where an operation was performed is kept because no TLB fill is a
move of this machine (D13: log 25). -/
def Obligations.EveryStepKeepsTheInvariant : Prop :=
  ∀ s t : State, s.Inv → step s = .next t → t.Inv

/-- The state after reset meets the invariant, whatever entries its TLBs hold (log 21); that its `pc` and vector bases
are multiples of 4 and its level is implemented rests on the values the model chose for reset (log 20, log 1). -/
def Obligations.ResetMeetsTheInvariant : Prop := State.reset.Inv

/-- The promise of the instruction (20_memory R42), along every run from a state that meets the invariant: once an
operation is marked complete, on every PE of its scope no entry it requires to go is in the TLB, and every access there
that used a removed required entry and is not excluded by XS has completed. (No step brings entries in: log 25.) -/
def Obligations.CompleteOperationsKeepTheirPromise : Prop :=
  ∀ (n : Nat) (s t : State) (op : Op), s.Inv → Sys2Proof.core.run n s = .next t → op ∈ t.ops → op.complete = true →
    ∀ p ∈ t.scope op, ∃ q : Pe, t.peAt p = some q ∧ (∀ e ∈ q.tlb, op.requires t.cfg e = false) ∧
      ∀ a ∈ q.inFlight, OpWaitsFor op p a → a.complete = true

/-- No step adds an entry to a TLB (41_tlbi_rvaa_operation R86; TLB fills are no move of this machine, D13: log 25), and
no step writes a general register, a control register, SP_EL0, a helper's answer, memory or the configuration
(40_tlbi_rvaale1 R65, 10_state R14, R19); `pc` and the exception registers are not among these. -/
def Obligations.NoStepAddsEntriesOrWritesGeneralOrControlRegisters : Prop :=
  ∀ s t : State, step s = .next t →
    t.cfg = s.cfg ∧ t.npe = s.npe ∧
    ∀ (p : Nat) (q : Pe), s.peAt p = some q → ∃ q' : Pe, t.peAt p = some q' ∧
      (∀ e ∈ q'.tlb, e ∈ q.tlb) ∧ q'.regs = q.regs ∧ q'.sys = q.sys ∧ q'.helpers = q.helpers ∧
      q'.mem = q.mem ∧ q'.program = q.program ∧ q'.spEl0 = q.spEl0

/-- An issued operation is fixed at issue (40_tlbi_rvaale1 R61 corner case 6, 41_tlbi_rvaa_operation R70, D14): no step
changes its arguments, issuer, `el2en` or LargeBaseAddr; removals are only added, the complete mark is never taken back,
and a step issues at most one operation. -/
def Obligations.IssuedOperationsAreFixed : Prop :=
  ∀ s t : State, step s = .next t →
    s.ops.length ≤ t.ops.length ∧ t.ops.length ≤ s.ops.length + 1 ∧
    ∀ (k : Nat) (op : Op), s.ops[k]? = some op → ∃ op' : Op, t.ops[k]? = some op' ∧
      op'.call = op.call ∧ op'.issuer = op.issuer ∧ op'.el2en = op.el2en ∧ op'.large = op.large ∧
      op.performed <+: op'.performed ∧ (op.complete = true → op'.complete = true)

/-- PSTATE changes only through exception entry (10_state R11): a step that leaves what a PE has raised as it was leaves
its PSTATE, ELR, SPSR and ESR as they were, and a step adds at most one exception, on the PE that ran. -/
def Obligations.LevelChangesOnlyByException : Prop :=
  ∀ (s t : State) (p : Nat) (q q' : Pe), step s = .next t → s.peAt p = some q → t.peAt p = some q' →
    (q'.raised = q.raised ∨ (∃ r, q'.raised = r :: q.raised) ∧ p = t.peId) ∧
    (q'.raised = q.raised → q'.pstate = q.pstate ∧ q'.ex1 = q.ex1 ∧ q'.ex2 = q.ex2 ∧ q'.ex3 = q.ex3)

/-- Final states (70_reset_and_hazards R114 (3), D15: log 16): a state is final exactly when every PE that was given a
program has exited, nothing was raised, and every issued operation was performed on every PE of its scope and is
complete; what a PE has raised is never forgotten, so a run in which an exception was raised is never final. -/
def Obligations.FaultedRunsAreNeverFinal : Prop :=
  (∀ s : State, s.final = true ↔
    (∀ p ∈ s.allPes, p.raised = [] ∧ ∀ g, p.program = some g → p.pc = g.base + BitVec.ofNat 64 (4 * g.words)) ∧
    (∀ op ∈ s.ops, op.complete = true ∧ ∀ p ∈ s.scope op, op.performedOn p = true)) ∧
  (∀ (n : Nat) (s t : State), Sys2Proof.core.run n s = .next t → (∃ p ∈ s.allPes, p.raised ≠ []) → t.final = false)

/-- An exception ends the run of its PE, and no handler instruction is executed (60_exceptions R94, D15: log 16): from
then on no step changes anything of that PE but what the agents change, its TLB and its accesses in flight. -/
def Obligations.AnExceptionEndsTheRunOfItsPe : Prop :=
  ∀ (n : Nat) (s t : State) (p : Nat) (q : Pe), Sys2Proof.core.run n s = .next t → s.peAt p = some q →
    q.raised ≠ [] → ∃ q' : Pe, t.peAt p = some q' ∧ { q with tlb := q'.tlb, inFlight := q'.inFlight } = q' ∧
      q'.inFlight.length = q.inFlight.length

/-- Every issued operation can complete (70_reset_and_hazards R111; the spec's fairness is D14's, log 38): from every
state some schedule of agents' moves, with no instruction run, ends with every operation marked complete, and in a state
that meets the invariant that means performed on every PE of its scope. -/
def Obligations.EveryOperationCanComplete : Prop :=
  ∀ s : State, ∃ (ms : List Move) (t : State), (∀ m ∈ ms, ∀ p f, m ≠ .run p f) ∧
    Sys2Proof.core.run ms.length { s with schedule := ms } = .next t ∧
    t.ops.length = s.ops.length ∧ t.allPes.map Pe.pc = s.allPes.map Pe.pc ∧
    (∀ op ∈ t.ops, op.complete = true ∧ (s.Inv → ∀ p ∈ t.scope op, op.performedOn p = true))

/-- On every fair run every issued operation is eventually performed everywhere in its scope and complete, and every
access in flight eventually completes (70_reset_and_hazards R111, D14, R114 (3): a state with an operation pending is
not where a run stops). Weak fairness is D14's assumption (log 38), the mark the model's own move (log 24); the run
starts in a state that meets the invariant, and no TLB fill is a move (log 25). -/
def Obligations.FairRunsCompleteEveryOperation : Prop :=
  ∀ (σ : Nat → State) (μ : Nat → Move), IsRun σ μ → Fair σ μ → (σ 0).Inv →
    (∀ (n k : Nat) (op : Op), (σ n).ops[k]? = some op → ∃ m, n ≤ m ∧ ∀ l, m ≤ l → ∃ op' : Op,
      (σ l).ops[k]? = some op' ∧ op'.complete = true ∧ ∀ p ∈ (σ l).scope op', op'.performedOn p = true) ∧
    (∀ (n p a : Nat) (q : Pe) (x : Access), (σ n).peAt p = some q → q.inFlight[a]? = some x →
      ∃ (m : Nat) (q' : Pe) (x' : Access), n ≤ m ∧ (σ m).peAt p = some q' ∧ q'.inFlight[a]? = some x' ∧
        x'.complete = true ∧ x'.used = x.used ∧ x'.xs = x.xs)

/-- A fair run on which every PE that was given a program has exited without an exception, and no further operation is
issued, reaches a final state and stays in final states (70_reset_and_hazards R114 (3), R111, D14: log 38). -/
def Obligations.FairRunsEndInFinalStates : Prop :=
  ∀ (σ : Nat → State) (μ : Nat → Move) (n : Nat), IsRun σ μ → Fair σ μ → (σ 0).Inv →
    (∀ l, n ≤ l → (σ l).ops.length = (σ n).ops.length ∧
      ∀ p ∈ (σ l).allPes, p.raised = [] ∧ (p.program = none ∨ p.exited = true)) →
    ∃ m, n ≤ m ∧ ∀ l, m ≤ l → (σ l).final = true

/-- What reset leaves (10_state R29, 70_reset_and_hazards R105): no access in flight, no issued operation, nothing
raised and nothing in memory; a TLB is any set of entries (log 21). The model's own: nothing in memory and no program
(log 27, log 28), one PE (log 30), an empty schedule (log 22). That the level is the highest implemented one is GK13's
(log 20), the interrupt masks are the family's (log 19). -/
def Obligations.ResetLeavesNothingPending : Prop :=
  State.reset.ops = [] ∧ State.reset.schedule = [] ∧ State.reset.npe = 1 ∧
  ∀ p ∈ State.reset.allPes, p.inFlight = [] ∧ p.raised = [] ∧ p.mem = [] ∧ p.program = none ∧
    p.tlb.Nodup ∧ (∀ e ∈ Config.resetTlb, e.wf = true → e ∈ p.tlb) ∧
    p.pstate = { el := .el3, d := true, a := true, i := true, f := true, sp := true }

/-- The helper functions (10_state R20 to R23): EL2Enabled is false without EL2; a supplied answer is the helper's (D3,
D9); with none supplied the bodies are GK10's, GK22's and GK6's (log 2, log 3, log 4, log 10): without EL3 the one
Security state of the implementation, valid; with EL3 a selected state is valid when the implementation has it; the
reserved combination is not. -/
def Obligations.HelperFunctions : Prop :=
  (∀ (c : Config) (p : Pe), el2Enabled c p = true → c.haveEL2 = true) ∧
  (∀ (c : Config) (p : Pe) (b : Bool) (ss : SecurityState) (v : Vmid),
    (p.helpers.el2Enabled = some b → el2Enabled c p = (c.haveEL2 && b)) ∧
    (p.helpers.hcrxEl2Enabled = some b → hcrxEl2Enabled c p = b) ∧
    (p.helpers.elIsInHost = some b → elIsInHost c p = b) ∧
    (p.helpers.ssEl1 = some ss → securityStateEl1 c p = ss) ∧
    (p.helpers.ssEl2 = some ss → securityStateEl2 c p = ss) ∧
    (p.helpers.validSsEl1 = some b → validSecurityStateEl1 c p = b) ∧
    (p.helpers.validSsEl2 = some b → validSecurityStateEl2 c p = b) ∧
    (p.helpers.vmid = some v → currentVmid c p = v) ∧
    (p.helpers.largeEl10 = some b → largeBaseAddr c p .el10 = b) ∧
    (p.helpers.largeEl20 = some b → largeBaseAddr c p .el20 = b)) ∧
  (∀ (c : Config) (p : Pe), p.helpers = Helpers.documented →
    (el2Enabled c p = true ↔
      c.haveEL2 = true ∧ (c.haveEL3 = false ∨ p.sys.scrEl3.ns = true ∨ p.sys.scrEl3.eel2 = true)) ∧
    (hcrxEl2Enabled c p = true ↔
      c.featHCX = true ∧ el2Enabled c p = true ∧ (c.haveEL3 = false ∨ p.sys.scrEl3.hxen = true)) ∧
    (elIsInHost c p = true ↔
      el2Enabled c p = true ∧ p.sys.hcrEl2.e2h = true ∧ p.sys.hcrEl2.tge = true) ∧
    securityStateEl1 c p = securityStateEl2 c p ∧
    (c.haveEL3 = true → c.featRME = false →
      securityStateEl1 c p = (if p.sys.scrEl3.ns then .nonSecure else .secure)) ∧
    (c.haveEL3 = true → c.featRME = true → (p.sys.scrEl3.nse = false ∨ p.sys.scrEl3.ns = true) →
      securityStateEl1 c p = (if p.sys.scrEl3.nse then .realm else if p.sys.scrEl3.ns then .nonSecure else .secure)) ∧
    (c.haveEL3 = true → c.featRME = true → p.sys.scrEl3.nse = true → p.sys.scrEl3.ns = false →
      validSecurityStateEl1 c p = false ∧ validSecurityStateEl2 c p = false) ∧
    (c.haveEL3 = false → securityStateEl1 c p = c.noEl3Security ∧
      validSecurityStateEl1 c p = true ∧ validSecurityStateEl2 c p = true) ∧
    (c.haveEL3 = true → ¬(c.featRME = true ∧ p.sys.scrEl3.nse = true ∧ p.sys.scrEl3.ns = false) →
      validSecurityStateEl2 c p = validSecurityStateEl1 c p ∧
      validSecurityStateEl1 c p = (match securityStateEl1 c p with
        | .secure => c.hasSecure | .nonSecure => c.hasNonSecure | .realm => c.hasRealm | .root => false)) ∧
    (el2Enabled c p = false → currentVmid c p = 0) ∧
    (el2Enabled c p = true → p.sys.vtcrEl2.vs = true → currentVmid c p = p.sys.vttbrEl2.vmid) ∧
    (el2Enabled c p = true → p.sys.vtcrEl2.vs = false → (currentVmid c p).toNat = p.sys.vttbrEl2.vmid.toNat % 256) ∧
    (largeBaseAddr c p .el10 = true ↔ c.featLPA2 = true ∧ p.sys.tcrEl1.ds = true) ∧
    (largeBaseAddr c p .el20 = true ↔ c.featLPA2 = true ∧ p.sys.tcrEl2.ds = true))
end

