-- ==== Sys2Proof/Laws/State.lean ====
section
/-! SUPPORT. What each named update of the state leaves in each field, by rfl, so that no proof unfolds a record update.
-/

namespace Sys2Proof.Machine

/-! ### The running PE replaced -/

@[simp] theorem withPe_cfg (s : State) (p : Pe) : (s.withPe p).cfg = s.cfg := rfl
@[simp] theorem withPe_before (s : State) (p : Pe) : (s.withPe p).before = s.before := rfl
@[simp] theorem withPe_pe (s : State) (p : Pe) : (s.withPe p).pe = p := rfl
@[simp] theorem withPe_after (s : State) (p : Pe) : (s.withPe p).after = s.after := rfl
@[simp] theorem withPe_ops (s : State) (p : Pe) : (s.withPe p).ops = s.ops := rfl
@[simp] theorem withPe_schedule (s : State) (p : Pe) : (s.withPe p).schedule = s.schedule := rfl
@[simp] theorem withPe_peId (s : State) (p : Pe) : (s.withPe p).peId = s.peId := rfl

/-! ### The schedule replaced -/

@[simp] theorem withSchedule_cfg (s : State) (ms : List Move) : (s.withSchedule ms).cfg = s.cfg := rfl
@[simp] theorem withSchedule_before (s : State) (ms : List Move) : (s.withSchedule ms).before = s.before := rfl
@[simp] theorem withSchedule_pe (s : State) (ms : List Move) : (s.withSchedule ms).pe = s.pe := rfl
@[simp] theorem withSchedule_after (s : State) (ms : List Move) : (s.withSchedule ms).after = s.after := rfl
@[simp] theorem withSchedule_ops (s : State) (ms : List Move) : (s.withSchedule ms).ops = s.ops := rfl
@[simp] theorem withSchedule_schedule (s : State) (ms : List Move) : (s.withSchedule ms).schedule = ms := rfl
@[simp] theorem withSchedule_peId (s : State) (ms : List Move) : (s.withSchedule ms).peId = s.peId := rfl
@[simp] theorem withSchedule_allPes (s : State) (ms : List Move) : (s.withSchedule ms).allPes = s.allPes := rfl
@[simp] theorem withSchedule_npe (s : State) (ms : List Move) : (s.withSchedule ms).npe = s.npe := rfl
@[simp] theorem withSchedule_peAt (s : State) (ms : List Move) (p : Nat) : (s.withSchedule ms).peAt p = s.peAt p := rfl
@[simp] theorem withSchedule_scope (s : State) (ms : List Move) (op : Op) : (s.withSchedule ms).scope op = s.scope op :=
  rfl
@[simp] theorem withSchedule_completable (s : State) (ms : List Move) (op : Op) :
    (s.withSchedule ms).completable op = s.completable op := rfl

/-! ### A fetch recorded -/

@[simp] theorem recordFetch_regs (p : Pe) (f : FetchChoice) : (p.recordFetch f).regs = p.regs := rfl
@[simp] theorem recordFetch_pc (p : Pe) (f : FetchChoice) : (p.recordFetch f).pc = p.pc := rfl
@[simp] theorem recordFetch_pstate (p : Pe) (f : FetchChoice) : (p.recordFetch f).pstate = p.pstate := rfl
@[simp] theorem recordFetch_spEl0 (p : Pe) (f : FetchChoice) : (p.recordFetch f).spEl0 = p.spEl0 := rfl
@[simp] theorem recordFetch_ex1 (p : Pe) (f : FetchChoice) : (p.recordFetch f).ex1 = p.ex1 := rfl
@[simp] theorem recordFetch_ex2 (p : Pe) (f : FetchChoice) : (p.recordFetch f).ex2 = p.ex2 := rfl
@[simp] theorem recordFetch_ex3 (p : Pe) (f : FetchChoice) : (p.recordFetch f).ex3 = p.ex3 := rfl
@[simp] theorem recordFetch_sys (p : Pe) (f : FetchChoice) : (p.recordFetch f).sys = p.sys := rfl
@[simp] theorem recordFetch_helpers (p : Pe) (f : FetchChoice) : (p.recordFetch f).helpers = p.helpers := rfl
@[simp] theorem recordFetch_tlb (p : Pe) (f : FetchChoice) : (p.recordFetch f).tlb = p.tlb := rfl
@[simp] theorem recordFetch_mem (p : Pe) (f : FetchChoice) : (p.recordFetch f).mem = p.mem := rfl
@[simp] theorem recordFetch_program (p : Pe) (f : FetchChoice) : (p.recordFetch f).program = p.program := rfl
@[simp] theorem recordFetch_raised (p : Pe) (f : FetchChoice) : (p.recordFetch f).raised = p.raised := rfl
@[simp] theorem recordFetch_inFlight (p : Pe) (f : FetchChoice) : (p.recordFetch f).inFlight = p.inFlight ++
    [{ used := p.tlb.filter (fun e => f.used.contains e), xs := f.xs, complete := false }] := rfl
@[simp] theorem recordFetch_bank (p : Pe) (f : FetchChoice) (l : TargetEl) : (p.recordFetch f).bank l = p.bank l := by
  cases l <;> rfl

/-- An access after a fetch was in flight before, or uses entries of the TLB only. -/
theorem mem_recordFetch_inFlight {p : Pe} {f : FetchChoice} {a : Access} (h : a ∈ (p.recordFetch f).inFlight) :
    a ∈ p.inFlight ∨ ∀ e ∈ a.used, e ∈ p.tlb := by
  rcases List.mem_append.mp h with h | h
  · exact .inl h
  · obtain rfl := List.mem_singleton.mp h
    exact .inr fun e he => (List.mem_filter.mp he).1

/-! ### One operation changed -/

@[simp] theorem modifyOp_cfg (s : State) (k : Nat) (f : Op → Op) : (s.modifyOp k f).cfg = s.cfg := rfl
@[simp] theorem modifyOp_before (s : State) (k : Nat) (f : Op → Op) : (s.modifyOp k f).before = s.before := rfl
@[simp] theorem modifyOp_pe (s : State) (k : Nat) (f : Op → Op) : (s.modifyOp k f).pe = s.pe := rfl
@[simp] theorem modifyOp_after (s : State) (k : Nat) (f : Op → Op) : (s.modifyOp k f).after = s.after := rfl
@[simp] theorem modifyOp_ops (s : State) (k : Nat) (f : Op → Op) : (s.modifyOp k f).ops = s.ops.modify k f := rfl
@[simp] theorem modifyOp_schedule (s : State) (k : Nat) (f : Op → Op) : (s.modifyOp k f).schedule = s.schedule := rfl
@[simp] theorem modifyOp_peId (s : State) (k : Nat) (f : Op → Op) : (s.modifyOp k f).peId = s.peId := rfl
@[simp] theorem modifyOp_allPes (s : State) (k : Nat) (f : Op → Op) : (s.modifyOp k f).allPes = s.allPes := rfl
@[simp] theorem modifyOp_npe (s : State) (k : Nat) (f : Op → Op) : (s.modifyOp k f).npe = s.npe := rfl
@[simp] theorem modifyOp_peAt (s : State) (k : Nat) (f : Op → Op) (p : Nat) : (s.modifyOp k f).peAt p = s.peAt p := rfl
@[simp] theorem modifyOp_scope (s : State) (k : Nat) (f : Op → Op) (op : Op) :
    (s.modifyOp k f).scope op = s.scope op := rfl
@[simp] theorem modifyOp_completable (s : State) (k : Nat) (f : Op → Op) (op : Op) :
    (s.modifyOp k f).completable op = s.completable op := rfl

/-! ### Retiring and issuing -/

@[simp] theorem retire_cfg (s : State) : (retire s).cfg = s.cfg := rfl
@[simp] theorem retire_before (s : State) : (retire s).before = s.before := rfl
@[simp] theorem retire_after (s : State) : (retire s).after = s.after := rfl
@[simp] theorem retire_ops (s : State) : (retire s).ops = s.ops := rfl
@[simp] theorem retire_schedule (s : State) : (retire s).schedule = s.schedule := rfl
@[simp] theorem retire_pe (s : State) : (retire s).pe = { s.pe with pc := s.pe.pc + 4 } := rfl
@[simp] theorem tlbiRvaa_cfg (c : TlbiCall) (s : State) : (tlbiRvaa c s).cfg = s.cfg := rfl
@[simp] theorem tlbiRvaa_before (c : TlbiCall) (s : State) : (tlbiRvaa c s).before = s.before := rfl
@[simp] theorem tlbiRvaa_after (c : TlbiCall) (s : State) : (tlbiRvaa c s).after = s.after := rfl
@[simp] theorem tlbiRvaa_pe (c : TlbiCall) (s : State) : (tlbiRvaa c s).pe = s.pe := rfl
@[simp] theorem tlbiRvaa_ops (c : TlbiCall) (s : State) : (tlbiRvaa c s).ops = s.ops ++ [newOp c s] := rfl
@[simp] theorem tlbiRvaa_schedule (c : TlbiCall) (s : State) : (tlbiRvaa c s).schedule = s.schedule := rfl
@[simp] theorem newOp_call (c : TlbiCall) (s : State) : (newOp c s).call = c := rfl
@[simp] theorem newOp_issuer (c : TlbiCall) (s : State) : (newOp c s).issuer = s.peId := rfl
@[simp] theorem newOp_el2en (c : TlbiCall) (s : State) : (newOp c s).el2en = el2Enabled s.cfg s.pe := rfl
@[simp] theorem newOp_performed (c : TlbiCall) (s : State) : (newOp c s).performed = [] := rfl
@[simp] theorem newOp_complete (c : TlbiCall) (s : State) : (newOp c s).complete = false := rfl

/-! ### Exceptions -/

/-- The exception registers stand where only `pc` moves. -/
@[simp] theorem withPc_bank (p : Pe) (x : Word) (l : TargetEl) : ({ p with pc := x } : Pe).bank l = p.bank l := by
  cases l <;> rfl

@[simp] theorem setBank_bank (p : Pe) (b : ExBank) (l m : TargetEl) :
    (p.setBank b l).bank m = if m = l then b else p.bank m := by
  cases l <;> cases m <;> rfl

@[simp] theorem takeException_regs (p : Pe) (r : Raised) (l : TargetEl) : (p.takeException r l).regs = p.regs := by
  cases l <;> rfl
@[simp] theorem takeException_pc (p : Pe) (r : Raised) (l : TargetEl) :
    (p.takeException r l).pc = (p.bank l).vbar + vectorOffset p.pstate l := rfl
@[simp] theorem takeException_pstate (p : Pe) (r : Raised) (l : TargetEl) :
    (p.takeException r l).pstate = { el := l.toEl, d := true, a := true, i := true, f := true, sp := true } := rfl
@[simp] theorem takeException_raised (p : Pe) (r : Raised) (l : TargetEl) :
    (p.takeException r l).raised = r :: p.raised := rfl
@[simp] theorem takeException_spEl0 (p : Pe) (r : Raised) (l : TargetEl) : (p.takeException r l).spEl0 = p.spEl0 := by
  cases l <;> rfl
@[simp] theorem takeException_sys (p : Pe) (r : Raised) (l : TargetEl) : (p.takeException r l).sys = p.sys := by
  cases l <;> rfl
@[simp] theorem takeException_helpers (p : Pe) (r : Raised) (l : TargetEl) :
    (p.takeException r l).helpers = p.helpers := by
  cases l <;> rfl
@[simp] theorem takeException_tlb (p : Pe) (r : Raised) (l : TargetEl) : (p.takeException r l).tlb = p.tlb := by
  cases l <;> rfl
@[simp] theorem takeException_inFlight (p : Pe) (r : Raised) (l : TargetEl) :
    (p.takeException r l).inFlight = p.inFlight := by
  cases l <;> rfl
@[simp] theorem takeException_mem (p : Pe) (r : Raised) (l : TargetEl) : (p.takeException r l).mem = p.mem := by
  cases l <;> rfl
@[simp] theorem takeException_program (p : Pe) (r : Raised) (l : TargetEl) :
    (p.takeException r l).program = p.program := by
  cases l <;> rfl
/-- The bank of the target is saved into; every other bank stands. -/
@[simp] theorem takeException_bank (p : Pe) (r : Raised) (l m : TargetEl) :
    (p.takeException r l).bank m =
      if m = l then { p.bank l with elr := p.pc, spsr := p.pstate, esr := syndrome p.raised.length r } else p.bank m := by
  cases l <;> cases m <;> rfl

end Sys2Proof.Machine
end

