-- ==== Sys2Proof/Laws/Bank.lean ====
section
/-! SUPPORT. The PEs by number: `before`, `pe`, `after` behave as one list, which these lemmas say once. -/

namespace Sys2Proof.Machine

theorem npe_eq (s : State) : s.npe = s.before.length + 1 + s.after.length := by
  simp [State.npe, State.allPes]; omega

theorem peId_lt_npe (s : State) : s.peId < s.npe := by
  rw [npe_eq]; simp only [State.peId]; omega

theorem peAt_peId (s : State) : s.peAt s.peId = some s.pe := by
  simp [State.peAt, State.allPes, State.peId]

theorem pe_mem_allPes (s : State) : s.pe ∈ s.allPes := by simp [State.allPes]

theorem peAt_isSome_iff (s : State) (p : Nat) : (∃ q, s.peAt p = some q) ↔ p < s.npe := by
  simp [State.peAt, State.npe, List.getElem?_eq_some_iff]

theorem peAt_mem {s : State} {p : Nat} {q : Pe} (h : s.peAt p = some q) : q ∈ s.allPes := List.mem_of_getElem? h

theorem mem_allPes_iff (s : State) (q : Pe) : q ∈ s.allPes ↔ ∃ p, s.peAt p = some q := by
  simp [State.peAt, List.mem_iff_getElem?]

/-- Replacing the running PE replaces its place in the list. -/
theorem withPe_allPes (s : State) (q : Pe) : (s.withPe q).allPes = s.allPes.set s.peId q := by
  simp [State.allPes, State.peId]

@[simp] theorem withPe_npe (s : State) (q : Pe) : (s.withPe q).npe = s.npe := by simp [npe_eq]

theorem withPe_peAt (s : State) (q : Pe) (p : Nat) :
    (s.withPe q).peAt p = if p = s.peId then some q else s.peAt p := by
  have hlt : s.peId < s.allPes.length := peId_lt_npe s
  rw [State.peAt, withPe_allPes, List.getElem?_set]
  by_cases h : s.peId = p
  · subst h; simp [hlt]
  · simp [h, Ne.symm h, State.peAt]

/-- Changing PE `p` changes its place in the list. -/
@[simp] theorem modifyPe_allPes (s : State) (p : Nat) (f : Pe → Pe) :
    (s.modifyPe p f).allPes = s.allPes.modify p f := by
  unfold State.modifyPe
  apply List.ext_getElem?
  intro j
  split_ifs with h1 h2
  · simp only [State.allPes, List.getElem?_modify, List.getElem?_append, List.length_modify]
    split_ifs <;> simp_all
  · subst h2
    simp only [State.allPes, List.getElem?_modify, List.getElem?_append, List.getElem?_cons]
    split_ifs <;> simp_all
    all_goals omega
  · simp only [State.allPes, List.getElem?_modify, List.getElem?_append, List.getElem?_cons]
    split_ifs <;> simp_all <;> omega

@[simp] theorem modifyPe_npe (s : State) (p : Nat) (f : Pe → Pe) : (s.modifyPe p f).npe = s.npe := by
  simp [State.npe]

@[simp] theorem modifyPe_peAt (s : State) (p j : Nat) (f : Pe → Pe) :
    (s.modifyPe p f).peAt j = if p = j then (s.peAt j).map f else s.peAt j := by
  simp only [State.peAt, modifyPe_allPes, List.getElem?_modify]
  split_ifs <;> simp

@[simp] theorem modifyPe_cfg (s : State) (p : Nat) (f : Pe → Pe) : (s.modifyPe p f).cfg = s.cfg := by
  unfold State.modifyPe; split_ifs <;> rfl
@[simp] theorem modifyPe_ops (s : State) (p : Nat) (f : Pe → Pe) : (s.modifyPe p f).ops = s.ops := by
  unfold State.modifyPe; split_ifs <;> rfl
@[simp] theorem modifyPe_schedule (s : State) (p : Nat) (f : Pe → Pe) : (s.modifyPe p f).schedule = s.schedule := by
  unfold State.modifyPe; split_ifs <;> rfl
@[simp] theorem modifyPe_peId (s : State) (p : Nat) (f : Pe → Pe) : (s.modifyPe p f).peId = s.peId := by
  unfold State.modifyPe; split_ifs <;> simp [State.peId]
@[simp] theorem modifyPe_scope (s : State) (p : Nat) (f : Pe → Pe) (op : Op) :
    (s.modifyPe p f).scope op = s.scope op := by
  simp [State.scope]

/-- Choosing which PE runs next leaves every PE in its place. -/
@[simp] theorem focus_allPes (s : State) (p : Nat) : (s.focus p).allPes = s.allPes := by
  unfold State.focus
  cases h : s.allPes[p]? with
  | none => rfl
  | some q =>
    obtain ⟨hp, rfl⟩ := List.getElem?_eq_some_iff.mp h
    show s.allPes.take p ++ s.allPes[p] :: s.allPes.drop (p + 1) = s.allPes
    rw [← List.drop_eq_getElem_cons hp, List.take_append_drop]

@[simp] theorem focus_cfg (s : State) (p : Nat) : (s.focus p).cfg = s.cfg := by
  unfold State.focus; split <;> rfl
@[simp] theorem focus_ops (s : State) (p : Nat) : (s.focus p).ops = s.ops := by
  unfold State.focus; split <;> rfl
@[simp] theorem focus_schedule (s : State) (p : Nat) : (s.focus p).schedule = s.schedule := by
  unfold State.focus; split <;> rfl
@[simp] theorem focus_npe (s : State) (p : Nat) : (s.focus p).npe = s.npe := by simp [State.npe]
@[simp] theorem focus_peAt (s : State) (p j : Nat) : (s.focus p).peAt j = s.peAt j := by simp [State.peAt]
@[simp] theorem focus_scope (s : State) (p : Nat) (op : Op) : (s.focus p).scope op = s.scope op := by
  simp [State.scope]

/-- The chosen PE is the one that runs, under its own number. -/
theorem focus_spec {s : State} {p : Nat} {q : Pe} (h : s.peAt p = some q) :
    (s.focus p).pe = q ∧ (s.focus p).peId = p := by
  have h' : s.allPes[p]? = some q := h
  obtain ⟨hp, -⟩ := List.getElem?_eq_some_iff.mp h'
  simp only [State.focus, h', State.peId, List.length_take, true_and]
  omega

end Sys2Proof.Machine
end

