-- ==== Sys2Proof/Laws/Agent.lean ====
section
/-! SUPPORT. The invalidation agent and the memory systems: what each move can do, said once. -/

namespace Sys2Proof.Machine

theorem mem_tlbAfter {c : Config} {op : Op} {drops tlb : List TlbEntry} {e : TlbEntry} :
    e ∈ tlbAfter c op drops tlb ↔ e ∈ tlb ∧ op.requires c e = false ∧ e ∉ drops := by
  simp [tlbAfter]

theorem tlbAfter_sublist (c : Config) (op : Op) (drops tlb : List TlbEntry) :
    (tlbAfter c op drops tlb).Sublist tlb := List.filter_sublist

theorem mem_scope {s : State} {op : Op} {p : Nat} : p ∈ s.scope op ↔ p < s.npe ∧ op.inScope s.cfg p = true := by
  simp [State.scope]

theorem performedOn_iff {op : Op} {p : Nat} : op.performedOn p = true ↔ ∃ x ∈ op.performed, x.pe = p := by
  simp [Op.performedOn]

theorem mem_removedRequired {op : Op} {p : Nat} {e : TlbEntry} :
    e ∈ op.removedRequired p ↔ ∃ x ∈ op.performed, x.pe = p ∧ e ∈ x.required := by
  simp [Op.removedRequired, and_assoc]

theorem waits_iff {op : Op} {p : Nat} {a : Access} :
    op.waits p a = true ↔ (∃ e ∈ a.used, ∃ x ∈ op.performed, x.pe = p ∧ e ∈ x.required) ∧
      (op.call.attr = .allAttr ∨ a.xs = false) := by
  simp [Op.waits, mem_removedRequired]

theorem completable_iff {s : State} {op : Op} :
    s.completable op = true ↔ ∀ p ∈ s.scope op, op.performedOn p = true ∧
      ∀ q, s.peAt p = some q → ∀ a ∈ q.inFlight, op.waits p a = true → a.complete = true := by
  simp only [State.completable, List.all_eq_true, Bool.and_eq_true]
  refine forall₂_congr fun p _ => and_congr_right fun _ => ?_
  cases s.peAt p with
  | none => simp
  | some q =>
    simp only [Option.some.injEq, forall_eq', List.all_eq_true, Bool.or_eq_true, Bool.not_eq_true']
    refine forall₂_congr fun a _ => ?_
    cases op.waits p a <;> simp

/-- The end of a range inside the address space is settled. -/
theorem rangeEnd_of_le {start size : Nat} (h : start + size ≤ 2 ^ 64) : rangeEnd start size = start + size := if_pos h

/-- The end of a range that passes 2^64 is free. -/
theorem rangeEnd_of_gt {start size : Nat} (h : 2 ^ 64 < start + size) :
    rangeEnd start size = Config.endPastTop start size := if_neg (by omega)

/-- A block and a request meet when an address lies in both (41_tlbi_rvaa_operation R77). -/
theorem blockMeets_iff {r : Request} {b : VaBlock} :
    blockMeets r b = true ↔ ∃ v, r.start ≤ v ∧ v < r.stop ∧ b.base ≤ v ∧ v < b.base + b.size := by
  simp only [blockMeets, decide_eq_true_eq]
  exact ⟨fun h => ⟨max r.start b.base, by omega⟩, fun ⟨v, h⟩ => by omega⟩

/-- A request is asked for by every operand that requires an entry. -/
theorem requires_request {c : Config} {op : Op} {e : TlbEntry} (h : op.requires c e = true) :
    ∃ r, op.request c = some r ∧ kindMatches c r e = true ∧ addrMatches r e = true ∧ contextMatches op e = true ∧
      granuleMatches r e = true ∧ predictableFor r e = true := by
  unfold Op.requires at h
  cases hr : op.request c with
  | none => simp [hr] at h
  | some r => simp only [hr, Bool.and_eq_true] at h; exact ⟨r, rfl, h.1.1.1.1, h.1.1.1.2, h.1.1.2, h.1.2, h.2⟩

/-- The removal marks of an operation do not change what it requires. -/
@[simp] theorem requires_performed (c : Config) (op : Op) (x : List Removal) :
    ({ op with performed := x } : Op).requires c = op.requires c := rfl

@[simp] theorem requires_complete (c : Config) (op : Op) (b : Bool) :
    ({ op with complete := b } : Op).requires c = op.requires c := rfl

/-- Performing does nothing, or it filters one TLB and marks one operation. -/
theorem performOp_cases (k p : Nat) (drops : List TlbEntry) (s : State) :
    performOp k p drops s = s ∨
    ∃ op q, s.ops[k]? = some op ∧ s.peAt p = some q ∧ op.inScope s.cfg p = true ∧ op.performedOn p = false ∧
      performOp k p drops s =
        (s.modifyPe p (fun x => { x with tlb := tlbAfter s.cfg op drops x.tlb })).modifyOp k
          (fun o => { o with performed := o.performed ++ [⟨p, q.tlb.filter (op.requires s.cfg)⟩] }) := by
  unfold performOp
  cases hk : s.ops[k]? with
  | none => exact .inl rfl
  | some op =>
    cases hp : s.peAt p with
    | none => exact .inl rfl
    | some q =>
      by_cases h : (op.inScope s.cfg p && !op.performedOn p) = true
      · refine .inr ⟨op, q, rfl, rfl, ?_⟩
        simp only [h, if_true, and_true]
        simpa using h
      · exact .inl (by simp [h])

/-- Declaring does nothing, or it marks one operation whose condition holds. -/
theorem declareOp_cases (k : Nat) (s : State) :
    declareOp k s = s ∨
    ∃ op, s.ops[k]? = some op ∧ s.completable op = true ∧
      declareOp k s = s.modifyOp k (fun o => { o with complete := true }) := by
  unfold declareOp
  cases hk : s.ops[k]? with
  | none => exact .inl rfl
  | some op =>
    by_cases h : s.completable op = true
    · exact .inr ⟨op, rfl, h, by simp [h]⟩
    · exact .inl (by simp [h])

end Sys2Proof.Machine
end

