-- ==== Sys2Proof/Laws/Exec.lean ====
section
/-! SUPPORT. What executing an instruction can do, said once: it raises Undefined, traps to EL2, does nothing, or issues
one operation, each with the condition that led there. -/

namespace Sys2Proof.Machine

theorem readX_zr (p : Pe) : readX p 31 = 0 := by simp [readX]

theorem readX_reg (p : Pe) {t : Nat} (h : t < 31) : readX p t = p.regs[t] := by simp [readX, h]

theorem readX_above (p : Pe) {t : Nat} (h : ¬ t < 31) : readX p t = 0 := by simp [readX, h]

/-- The coarse trap (10_state R15). -/
theorem coarseTrap_iff {c : Config} {p : Pe} :
    coarseTrap c p = true ↔ el2Enabled c p = true ∧ p.sys.hcrEl2.ttlb = true := by simp [coarseTrap]

/-- The fine-grained trap of the base encoding (10_state R16, R17). -/
theorem fineTrapBase_iff {c : Config} {p : Pe} :
    fineTrapBase c p = true ↔ el2Enabled c p = true ∧ c.featFGT = true ∧
      (c.haveEL3 = false ∨ p.sys.scrEl3.fgten = true) ∧ p.sys.hfgitrEl2.tlbirvaale1 = true := by
  simp [fineTrapBase, and_assoc]

/-- The fine-grained trap of the nXS encoding (10_state R18). -/
theorem fineTrapNxs_iff {c : Config} {p : Pe} :
    fineTrapNxs c p = true ↔ el2Enabled c p = true ∧ c.featFGT = true ∧
      (c.haveEL3 = false ∨ p.sys.scrEl3.fgten = true) ∧ c.featHCX = true ∧
      (hcrxEl2Enabled c p = false ∨ p.sys.hcrxEl2.fgtnxs = false) ∧ p.sys.hfgitrEl2.tlbirvaale1 = true := by
  simp [fineTrapNxs, and_assoc]

theorem coarseTrap_el2 {c : Config} {p : Pe} (h : coarseTrap c p = true) : el2Enabled c p = true :=
  (coarseTrap_iff.mp h).1

theorem fineTrapBase_el2 {c : Config} {p : Pe} (h : fineTrapBase c p = true) : el2Enabled c p = true :=
  (fineTrapBase_iff.mp h).1

theorem fineTrapNxs_el2 {c : Config} {p : Pe} (h : fineTrapNxs c p = true) : el2Enabled c p = true :=
  (fineTrapNxs_iff.mp h).1

theorem el2Enabled_haveEL2 {c : Config} {p : Pe} (h : el2Enabled c p = true) : c.haveEL2 = true := by
  simp only [el2Enabled, Bool.and_eq_true] at h; exact h.1

theorem el1Shareability_ish {c : Config} {p : Pe} (h : el1Shareability c p = .ish) : el2Enabled c p = true := by
  unfold el1Shareability at h
  split at h
  · rename_i hc; simp only [Bool.and_eq_true] at hc; exact hc.1
  · cases h

/-- The call for EL1&0 that the running PE makes. -/
def el10Call (s : State) (sh : Shareability) (attr : TlbiAttr) (t : Nat) : TlbiCall :=
  { ss := securityStateEl1 s.cfg s.pe, regime := .el10, vmid := some (currentVmid s.cfg s.pe), sh := sh
    level := .last, attr := attr, xt := readX s.pe t }

/-- The call for EL2&0 that the running PE makes. -/
def el20Call (s : State) (attr : TlbiAttr) (t : Nat) : TlbiCall :=
  { ss := securityStateEl2 s.cfg s.pe, regime := .el20, vmid := none, sh := .nsh
    level := .last, attr := attr, xt := readX s.pe t }

theorem issueEl10_eq (sh : Shareability) (attr : TlbiAttr) (t : Nat) (s : State) :
    issueEl10 sh attr t s = retire (tlbiRvaa (el10Call s sh attr t) s) := rfl

theorem issueEl20_eq (attr : TlbiAttr) (t : Nat) (s : State) :
    issueEl20 attr t s = retire (tlbiRvaa (el20Call s attr t) s) := rfl

/-- What an instruction leads to: one of five ends. -/
inductive Ending (i : Instr) (s t : State) : Prop where
  | undefined (h : t = raiseUndefined s)
  | trap (he : el2Enabled s.cfg s.pe = true) (hel : s.pe.pstate.el = .el1)
      (h : t = raiseSystemAccessTrap i.fields i.operandReg s)
  | nothing (hel : s.pe.pstate.el = .el3) (h : t = retire s)
  | issue10 (sh : Shareability) (attr : TlbiAttr) (hsh : sh = .ish → el2Enabled s.cfg s.pe = true)
      (h : t = retire (tlbiRvaa (el10Call s sh attr i.operandReg) s))
  | issue20 (attr : TlbiAttr) (h : t = retire (tlbiRvaa (el20Call s attr i.operandReg) s))

theorem atEl2_ending (i : Instr) (attr : TlbiAttr) (s : State) : Ending i s (atEl2 attr i.operandReg s) := by
  unfold atEl2
  split
  · exact .issue20 attr (issueEl20_eq ..)
  · exact .issue10 .nsh attr (by simp) (issueEl10_eq ..)

theorem atEl3_ending (i : Instr) (attr : TlbiAttr) (s : State) (hel : s.pe.pstate.el = .el3) :
    Ending i s (atEl3 attr i.operandReg s) := by
  unfold atEl3
  split <;> split
  · exact .nothing hel rfl
  · exact .issue20 attr (issueEl20_eq ..)
  · exact .nothing hel rfl
  · exact .issue10 .nsh attr (by simp) (issueEl10_eq ..)

theorem execTlbiRvaale1_ending (n : Nat) (s : State) :
    ∃ t, execTlbiRvaale1 n s = .next t ∧ Ending (.tlbiRvaale1 n) s t := by
  unfold execTlbiRvaale1
  split
  · exact ⟨_, rfl, .undefined rfl⟩
  · split
    · exact ⟨_, rfl, .undefined rfl⟩
    · rename_i hel
      split
      · rename_i h; exact ⟨_, rfl, .trap (coarseTrap_el2 h) hel rfl⟩
      · split
        · rename_i h; exact ⟨_, rfl, .trap (fineTrapBase_el2 h) hel rfl⟩
        · exact ⟨_, rfl, .issue10 _ _ el1Shareability_ish (issueEl10_eq ..)⟩
    · exact ⟨_, rfl, atEl2_ending (.tlbiRvaale1 n) _ s⟩
    · rename_i hel; exact ⟨_, rfl, atEl3_ending (.tlbiRvaale1 n) _ s hel⟩

theorem execTlbiRvaale1nxs_ending (n : Nat) (s : State) :
    ∃ t, execTlbiRvaale1nxs n s = .next t ∧ Ending (.tlbiRvaale1nxs n) s t := by
  unfold execTlbiRvaale1nxs
  split
  · exact ⟨_, rfl, .undefined rfl⟩
  split
  · exact ⟨_, rfl, .undefined rfl⟩
  · split
    · exact ⟨_, rfl, .undefined rfl⟩
    · rename_i hel
      split
      · rename_i h; exact ⟨_, rfl, .trap (coarseTrap_el2 h) hel rfl⟩
      · split
        · rename_i h; exact ⟨_, rfl, .trap (fineTrapNxs_el2 h) hel rfl⟩
        · exact ⟨_, rfl, .issue10 _ _ el1Shareability_ish (issueEl10_eq ..)⟩
    · exact ⟨_, rfl, atEl2_ending (.tlbiRvaale1nxs n) _ s⟩
    · rename_i hel; exact ⟨_, rfl, atEl3_ending (.tlbiRvaale1nxs n) _ s hel⟩

/-- Every way an instruction can end. -/
theorem exec_ending {i : Instr} {s t : State} (h : exec i s = .next t) : Ending i s t := by
  cases i with
  | tlbiRvaale1 n =>
    obtain ⟨u, hu, he⟩ := execTlbiRvaale1_ending n s
    have : u = t := by
      have h' : execTlbiRvaale1 n s = .next t := h
      rw [hu] at h'; exact Host.Outcome.next.inj h'
    exact this ▸ he
  | tlbiRvaale1nxs n =>
    obtain ⟨u, hu, he⟩ := execTlbiRvaale1nxs_ending n s
    have : u = t := by
      have h' : execTlbiRvaale1nxs n s = .next t := h
      rw [hu] at h'; exact Host.Outcome.next.inj h'
    exact this ▸ he

/-- The running PE is all that an instruction replaces, and at most one operation is all that it adds. -/
theorem exec_shape {i : Instr} {s t : State} (h : exec i s = .next t) :
    ∃ q l, t = { s with pe := q, ops := s.ops ++ l } ∧ l.length ≤ 1 := by
  cases exec_ending h with
  | undefined h => exact ⟨_, [], by rw [h, List.append_nil]; rfl, by simp⟩
  | trap _ _ h => exact ⟨_, [], by rw [h, List.append_nil]; rfl, by simp⟩
  | nothing _ h => exact ⟨_, [], by rw [h, List.append_nil]; rfl, by simp⟩
  | issue10 sh attr _ h => exact ⟨_, [newOp (el10Call s sh attr i.operandReg) s], by rw [h]; rfl, by simp⟩
  | issue20 attr h => exact ⟨_, [newOp (el20Call s attr i.operandReg) s], by rw [h]; rfl, by simp⟩

end Sys2Proof.Machine
end

