-- ==== Sys2Proof/Laws/Memory.lean ====
section
/-! SUPPORT. Memory: a read after a write, and that every operation keeps the canonical form. -/

namespace Sys2Proof.Machine

/-- A byte read where it was just written is that byte. -/
theorem read_write_same (m : Memory) (a : Nat) (b : Byte) : (m.write a b).read a = some b := by
  induction m with
  | nil => simp [Memory.write, Memory.read]
  | cons c rest ih =>
    by_cases h1 : a < c.1
    · simp [Memory.write, Memory.read, h1]
    · by_cases h2 : a = c.1
      · simp [Memory.write, Memory.read, h2]
      · simp [Memory.write, Memory.read, h1, h2, Ne.symm h2, ih]

/-- A write leaves every other address alone. -/
theorem read_write_other (m : Memory) {a x : Nat} (b : Byte) (hx : x ≠ a) : (m.write a b).read x = m.read x := by
  induction m with
  | nil => simp [Memory.write, Memory.read, Ne.symm hx]
  | cons c rest ih =>
    by_cases h1 : a < c.1
    · simp [Memory.write, Memory.read, h1, Ne.symm hx]
    · by_cases h2 : a = c.1
      · subst h2; simp [Memory.write, Memory.read, Ne.symm hx]
      · simp [Memory.write, Memory.read, h1, h2, ih]

/-- A write keeps the canonical form. -/
theorem write_wfFrom (m : Memory) {lo a : Nat} (b : Byte) (hlo : lo ≤ a) (ha : a < 2 ^ 64)
    (h : Memory.wfFrom lo m = true) : Memory.wfFrom lo (m.write a b) = true := by
  induction m generalizing lo with
  | nil => simp only [Memory.write, Memory.wfFrom, Bool.and_eq_true, decide_eq_true_eq, and_true]; exact ⟨hlo, ha⟩
  | cons c rest ih =>
    simp only [Memory.wfFrom, Bool.and_eq_true, decide_eq_true_eq] at h
    obtain ⟨⟨h1, h2⟩, h3⟩ := h
    by_cases c1 : a < c.1
    · simp only [Memory.write, c1, if_true, Memory.wfFrom, Bool.and_eq_true, decide_eq_true_eq, h3, and_true]
      omega
    · by_cases c2 : a = c.1
      · subst c2
        simp only [Memory.write, lt_irrefl, if_false, if_true, Memory.wfFrom, Bool.and_eq_true, decide_eq_true_eq, h3,
          and_true]
        exact ⟨hlo, ha⟩
      · simp only [Memory.write, c1, c2, if_false, Memory.wfFrom, Bool.and_eq_true, decide_eq_true_eq,
          ih (by omega : c.1 + 1 ≤ a) h3, and_true]
        exact ⟨h1, h2⟩

theorem write_wf (m : Memory) {a : Nat} (b : Byte) (ha : a < 2 ^ 64) (h : m.wf = true) : (m.write a b).wf = true :=
  write_wfFrom m b (Nat.zero_le a) ha h

/-- Writing consecutive bytes inside the address space keeps the canonical form. -/
theorem writeBytes_wf (bs : List Byte) (m : Memory) {a : Nat} (ha : a + bs.length ≤ 2 ^ 64) (h : m.wf = true) :
    (m.writeBytes a bs).wf = true := by
  induction bs generalizing m a with
  | nil => exact h
  | cons b rest ih =>
    simp only [List.length_cons] at ha
    exact ih (m.write a b) (by omega) (write_wf m b (by omega) h)

/-- Below the first written address nothing changes. -/
theorem read_writeBytes_below (bs : List Byte) (m : Memory) {a x : Nat} (hx : x < a) :
    (m.writeBytes a bs).read x = m.read x := by
  induction bs generalizing m a with
  | nil => rfl
  | cons b rest ih =>
    rw [Memory.writeBytes, ih (m.write a b) (by omega : x < a + 1), read_write_other m b (by omega)]

/-- Byte `k` of the written ones is read at address `a + k`. -/
theorem read_writeBytes (bs : List Byte) (m : Memory) {a k : Nat} {b : Byte} (h : bs[k]? = some b) :
    (m.writeBytes a bs).read (a + k) = some b := by
  induction bs generalizing m a k with
  | nil => simp at h
  | cons c rest ih =>
    cases k with
    | zero =>
      simp only [List.getElem?_cons_zero, Option.some.injEq] at h
      subst h
      exact (read_writeBytes_below rest _ (by omega)).trans (read_write_same m a c)
    | succ k =>
      have := ih (m.write a c) (a := a + 1) (k := k) (by simpa using h)
      rwa [show a + 1 + k = a + (k + 1) by omega] at this

/-- At and above the end of the written bytes nothing changes. -/
theorem read_writeBytes_above (bs : List Byte) (m : Memory) {a x : Nat} (hx : a + bs.length ≤ x) :
    (m.writeBytes a bs).read x = m.read x := by
  induction bs generalizing m a with
  | nil => rfl
  | cons b rest ih =>
    simp only [List.length_cons] at hx
    rw [Memory.writeBytes, ih (m.write a b) (by omega), read_write_other m b (by omega)]

end Sys2Proof.Machine
end

