-- ==== Sys2Proof/Laws/PerInstr.lean ====
section
/-! SUPPORT. Statements made per instruction: the fixed bits of each instruction's word. -/

namespace Sys2Proof

/-- An instruction is well formed when its register number fits `Rt` (30_encoding R48). -/
theorem wellFormed_iff (i : Instr) : i.wellFormed = true ↔ i.operandReg < 32 := decide_eq_true_iff

end Sys2Proof

namespace Sys2Proof.Laws.FixedBits

/-- The bits of the word outside `Rt` are the row's (30_encoding R47). -/
def Statement (i : Instr) : Prop := encode i &&& sysMask = sysWord i.fields 0

theorem sysWord_fixed (f : SysFields) (r : BitVec 5) : sysWord f r &&& sysMask = sysWord f 0 := by
  apply BitVec.eq_of_getLsbD_eq
  intro n hn
  simp only [sysWord, sysMask, BitVec.getLsbD_and, BitVec.getLsbD_append]
  by_cases h5 : n < 5
  · interval_cases n <;> simp
  · have : (0xFFFFFFE0#32).getLsbD n = true := by
      have h : n ≥ 5 := by omega
      interval_cases n <;> decide
    simp [this, h5]

theorem tlbiRvaale1 (t : Nat) : Statement (.tlbiRvaale1 t) := sysWord_fixed ..

theorem tlbiRvaale1nxs (t : Nat) : Statement (.tlbiRvaale1nxs t) := sysWord_fixed ..

end Sys2Proof.Laws.FixedBits
end

