-- ==== Sys2Proof/Laws/Step.lean ====
section
/-! SUPPORT. What one step can do, said once. -/

namespace Sys2Proof.Machine

/-- Fetch finds that a run has ended exactly where it has. -/
theorem fetch_ended_iff (p : Pe) : fetch p = .ended ↔ p.ended = true := by
  unfold fetch
  split
  · simp [*]
  · rename_i h
    simp only [h, Bool.false_eq_true, iff_false]
    unfold decodeFetched
    split_ifs <;> (try split) <;> (try split) <;> simp

/-- An instruction is fetched only by a PE whose run has not ended, at a multiple of 4 below `2^64 - 4`, and it is what
the four bytes there decode to. -/
theorem fetch_instr {p : Pe} {i : Instr} (h : fetch p = .instr i) :
    p.exited = false ∧ p.raised = [] ∧ p.pc.toNat % 4 = 0 ∧ p.pc.toNat ≠ 2 ^ 64 - 4 ∧
      ∃ bytes, p.mem.readWordBytes p.pc.toNat = some bytes ∧ decodeFetched bytes = .instr i := by
  unfold fetch at h
  by_cases h1 : p.ended = true
  · rw [if_pos h1] at h; cases h
  rw [if_neg h1] at h
  by_cases h2 : p.pc.toNat % 4 ≠ 0
  · rw [if_pos h2] at h; cases h
  rw [if_neg h2] at h
  by_cases h3 : p.pc.toNat = 2 ^ 64 - 4
  · rw [if_pos h3] at h; cases h
  rw [if_neg h3] at h
  simp only [Pe.ended, Pe.faulted, Bool.or_eq_true, Bool.not_eq_true', not_or, Bool.not_eq_true, Bool.not_eq_false,
    List.isEmpty_iff] at h1
  cases hb : p.mem.readWordBytes p.pc.toNat with
  | none => rw [hb] at h; cases h
  | some bytes => rw [hb] at h; exact ⟨h1.1, h1.2, by omega, h3, bytes, rfl, h⟩

/-- A PE that does not stop has ended and nothing happens, or runs an instruction, its fetch now in flight. -/
theorem stepPe_cases {f : FetchChoice} {s t : State} (h : stepPe f s = .next t) :
    (s.pe.ended = true ∧ t = s) ∨
    ∃ i, fetch s.pe = .instr i ∧ exec i (s.withPe (s.pe.recordFetch f)) = .next t := by
  unfold stepPe at h
  split at h
  · rename_i hf; exact .inl ⟨(fetch_ended_iff _).mp hf, (Host.Outcome.next.inj h).symm⟩
  · cases h
  · cases h
  · rename_i i hf; exact .inr ⟨i, hf, h⟩

/-- A step is one PE's move, one agent's move, or nothing. -/
theorem step_cases {s t : State} (h : step s = .next t) :
    (∃ u ms, u.cfg = s.cfg ∧ u.allPes = s.allPes ∧ u.ops = s.ops ∧ u.schedule = ms ∧
      (t = u ∨ ∃ i f, fetch u.pe = .instr i ∧ exec i (u.withPe (u.pe.recordFetch f)) = .next t)) ∨
    (∃ m ms, s.schedule = m :: ms ∧ (∀ p f, m ≠ .run p f) ∧ t = agentMove m (s.withSchedule ms)) := by
  unfold step at h
  split at h
  · refine .inl ⟨s, _, rfl, rfl, rfl, rfl, ?_⟩
    obtain ⟨-, rfl⟩ | ⟨i, hf, hi⟩ := stepPe_cases h
    · exact .inl rfl
    · exact .inr ⟨i, _, hf, hi⟩
  · rename_i p f ms _
    split at h
    · refine .inl ⟨(s.withSchedule ms).focus p, ms, by simp, by simp, by simp, by simp, ?_⟩
      obtain ⟨-, rfl⟩ | ⟨i, hf, hi⟩ := stepPe_cases h
      · exact .inl rfl
      · exact .inr ⟨i, f, hf, hi⟩
    · exact .inl ⟨s.withSchedule ms, ms, rfl, rfl, rfl, rfl, .inl (Host.Outcome.next.inj h).symm⟩
  · rename_i m ms hne hs
    refine .inr ⟨m, ms, hs, fun p f hp => hne p f (hp ▸ rfl), (Host.Outcome.next.inj h).symm⟩

end Sys2Proof.Machine
end

