-- ==== Sys2Proof/Laws/Syndrome.lean ====
section
/-! SUPPORT. Concatenated fields and syndromes as numbers. -/

namespace Sys2Proof.Machine

/-- A concatenation as a number. -/
theorem toNat_append_eq {n m : Nat} (x : BitVec n) (y : BitVec m) : (x ++ y).toNat = x.toNat * 2 ^ m + y.toNat := by
  rw [BitVec.toNat_append, ← Nat.shiftLeft_add_eq_or_of_lt y.isLt, Nat.shiftLeft_eq]

/-- The syndrome of a trap as a number (60_exceptions R91). -/
theorem syndrome_trapEl2_toNat (n : Nat) (ec : BitVec 6) (iss : BitVec 25) :
    (syndrome n (.trapEl2 ec iss)).toNat = ec.toNat * 2 ^ 26 + 2 ^ 25 + iss.toNat := by
  unfold syndrome
  simp only [toNat_append_eq, BitVec.toNat_ofNat]
  omega

/-- The syndrome of an Undefined exception as a number (60_exceptions R90). -/
theorem syndrome_undefined_toNat (n : Nat) :
    (syndrome n .undefined).toNat = (Config.undefinedIl n).toNat * 2 ^ 25 := by
  unfold syndrome
  simp only [toNat_append_eq, BitVec.toNat_ofNat]
  omega

/-- Levels are told apart by their Exception level. -/
theorem toEl_injective {l m : TargetEl} (h : l.toEl = m.toEl) : l = m := by
  cases l <;> cases m <;> first | rfl | cases h

end Sys2Proof.Machine
end

