-- ==== Sys2Proof/Tests/Slice0.lean ====
section
/-! SUPPORT. The model's own tests. Expected values are the spec's: its encoding rows (30_encoding R46, R47) and its
vectors (95_test_vectors, computed there from the rules). After them, for every obligation with hypotheses, a witness
that meets them together. -/

namespace Sys2Proof.Tests

open Sys2Proof.Machine

/-! ### Well-formedness and decoding -/

/-- `Rt` has 5 bits: there is no X32 (30_encoding R48). -/
theorem test_wf_base : Instr.wellFormed (.tlbiRvaale1 32) = false ∧ Instr.wellFormed (.tlbiRvaale1 31) = true := by
  decide

theorem test_wf_nxs : Instr.wellFormed (.tlbiRvaale1nxs 32) = false ∧ Instr.wellFormed (.tlbiRvaale1nxs 31) = true := by
  decide

/-- 1101010100 0 01 000 1000 0110 111 00101: op0, op1, CRn, CRm, op2 of the first row of R46, Rt = 5. -/
theorem test_decode_base : decodeWord 0b11010101000010001000011011100101 = .ok (.tlbiRvaale1 5) := by rfl

/-- 1101010100 0 01 000 1001 0110 111 10001: the second row of R46, Rt = 17. -/
theorem test_decode_nxs : decodeWord 0b11010101000010001001011011110001 = .ok (.tlbiRvaale1nxs 17) := by rfl

/-- 95_test_vectors 2.1: op2, CRm, op1, op0, L or CRn of another instruction, and words of neither. -/
theorem test_decode_neighbours :
    [0xD50886C0, 0xD50887E0, 0xD50986E0, 0xD50086E0, 0xD52886E0, 0xD508A6E0, 0x00000000, 0xD503201F].map
      (decodeTableWord 32) = List.replicate 8 none := by decide

theorem test_decode_truncated : decode [0xE0, 0x86, 0x08] = .error .truncated := by rfl

/-- 95_test_vectors 2.1, TLBI RVAALE1, X30 and TLBI RVAALE1NXS, XZR. -/
theorem test_encode : encode (.tlbiRvaale1 30) = 0xD50886FE ∧ encode (.tlbiRvaale1nxs 31) = 0xD50896FF ∧
    encodeBytes (.tlbiRvaale1nxs 1) = [0xE1, 0x96, 0x08, 0xD5] := by decide

theorem test_table_words : decodeTableWord 32 0xD50886E0 = some (.tlbiRvaale1 0) ∧
    decodeTableWord 32 0xD50896E0 = some (.tlbiRvaale1nxs 0) := by decide

/-! ### The operand (95_test_vectors 2.2, 2.4, 2.5) -/

theorem test_operand_fields : decodeOperand 0x00008B7E00001000 =
    { tg := 0b10, scale := 0, num := 22, ttl := 0b11, base := 0x1E00001000 } := by decide

theorem test_range_16k : requestOf resetConfig false 0x0000A78000123456 =
    some { granule := .g16K, start := 0x48D158000, stop := 0x4AD158000, ttl := 0b00 } := by decide +kernel

theorem test_range_large : requestOf resetConfig true 0x0000400000000100 =
    some { granule := .g4K, start := 0x1000000, stop := 0x1002000, ttl := 0b00 } := by decide +kernel

theorem test_range_sign_extended : requestOf resetConfig false 0x0000401000000000 =
    some { granule := .g4K, start := 0xFFFF000000000000, stop := 0xFFFF000000002000, ttl := 0b00 } := by decide +kernel

/-- The last two 4K pages are a range; one page higher its end is free, and its start is still the operand's. -/
theorem test_range_end : (requestOf resetConfig false 0x0000401FFFFFFFFE).map Request.stop = some (2 ^ 64) ∧
    (requestOf resetConfig false 0x0000401FFFFFFFFF).map (fun r => (r.granule, r.start)) =
      some (.g4K, 0xFFFFFFFFFFFFF000) := by decide +kernel

theorem test_unpredictable_rows : unpredictableRange .g4K 0b01 0x40000000 = false ∧
    unpredictableRange .g4K 0b01 0x40001000 = true ∧ unpredictableRange .g16K 0b10 0x2004000 = true ∧
    unpredictableRange .g64K 0b10 0x20000000 = false ∧ unpredictableRange .g64K 0b01 0x40000000000 = false ∧
    unpredictableRange .g4K 0b11 0x101000 = false := by decide

/-! ### A small machine -/

/-- FEAT_RME not implemented, PE 1 in the Inner Shareable domain of PE 0 (95_test_vectors 2.8, P4). -/
def cfg : Config := { resetConfig with featRME := false, isPairs := [(0, 1)] }

/-- The default entry of 95_test_vectors 2.6. -/
def entry (lo size : Nat) : TlbEntry :=
  { stage1 := true, descBits := .d64, leaf := true, level := 3, granule := .g4K, covers := [⟨lo, size⟩]
    ss := .nonSecure, regime := .el10, vmid := some 7, isGlobal := false, asid := 5 }

def e1 : TlbEntry := entry 0x100000 0x1000
def e2 : TlbEntry := { entry 0x101000 0x1000 with asid := 9 }
def e4 : TlbEntry := entry 0x102000 0x1000
def e6 : TlbEntry := { entry 0x0 0x200000 with level := 2 }
def e9 : TlbEntry := { entry 0x100000 0x4000 with granule := .g16K }

/-- The thirteen entries of 95_test_vectors 2.6. -/
def entries : List TlbEntry :=
  [e1, e2, { entry 0x100000 0x1000 with isGlobal := true }, e4, entry 0xFF000 0x1000, e6,
   { entry 0x100000 0x1000 with stage1 := false }, { entry 0x0 0x200000 with leaf := false, level := 2 }, e9,
   { entry 0x100000 0x1000 with regime := .el20, vmid := none }, { entry 0x100000 0x1000 with ss := .secure },
   { entry 0x100000 0x1000 with vmid := some 8 }, { entry 0x100000 0x1000 with descBits := .d128 }]

/-- The operation of 95_test_vectors 2.6 on another operand. -/
def opOn (xt : Word) (el2en : Bool) : Op :=
  { call := { ss := .nonSecure, regime := .el10, vmid := some 7, sh := .nsh, level := .last, attr := .allAttr, xt := xt }
    issuer := 0, el2en := el2en, large := false, performed := [], complete := false }

/-- An exception bank with a vector base of its own. -/
def bank (vbar : Word) : ExBank := { ExBank.reset cfg with vbar := vbar }

/-- A PE at `pc = 0x1000` with `X[t] = 0x0000_4000_0000_0100` for every `t`, Non-secure below EL3 with EL2 enabled. -/
def peAtEl (el : El) : Pe :=
  { Pe.reset cfg with
    regs := Vector.replicate 31 0x0000400000000100, pc := 0x1000
    pstate := { el := el, d := false, a := false, i := false, f := false, sp := true }
    ex1 := bank 0x10000, ex2 := bank 0x20000, ex3 := bank 0x30000
    sys := { SysRegs.reset with scrEl3 := { SysRegs.reset.scrEl3 with ns := true, fgten := true, hxen := true }
                                vttbrEl2 := { vmid := 7 } }
    tlb := [e1, e2, e4, e6, e9]
    inFlight := [{ used := [e1], xs := false, complete := false }, { used := [e2], xs := true, complete := false }] }

/-- Two such PEs, the first one running. -/
def machine (el : El) : State :=
  { cfg := cfg, before := [], pe := peAtEl el, after := [peAtEl .el1], ops := [], schedule := [] }

/-- The machine with the control registers of the running PE changed. -/
def withSys (el : El) (f : SysRegs → SysRegs) : State :=
  { machine el with pe := { peAtEl el with sys := f (peAtEl el).sys } }

/-- `HCR_EL2.TTLB = 1`. -/
def trapping : State := withSys .el1 (fun r => { r with hcrEl2 := { r.hcrEl2 with ttlb := true } })

/-- `HFGITR_EL2.TLBIRVAALE1 = 1`. -/
def fineTrapping : State := withSys .el1 (fun r => { r with hfgitrEl2 := { tlbirvaale1 := true } })

/-- `HCR_EL2.{E2H, TGE} = {1, 1}`. -/
def hosting (el : El) : State := withSys el (fun r => { r with hcrEl2 := { r.hcrEl2 with e2h := true, tge := true } })

/-- FEAT_RME, and the reserved `SCR_EL3.{NSE, NS} = {1, 0}`. -/
def invalidSecurity (host : Bool) : State :=
  { withSys .el3 (fun r => { r with scrEl3 := { r.scrEl3 with ns := false, nse := true, eel2 := true }
                                    hcrEl2 := { r.hcrEl2 with e2h := host, tge := host } }) with
    cfg := { cfg with featRME := true } }

/-- The machine after the first instruction has issued its operation. -/
def issued : State := { machine .el1 with ops := [opOn 0x0000400000000100 true] }

/-- The operation after it was performed on PE 0. -/
def performedOp : Op :=
  { opOn 0x0000400000000100 true with performed := [{ pe := 0, required := [e1, e2, e6] }] }

/-- The machine with that operation performed, and its accesses still in flight. -/
def cleaned : State :=
  { machine .el1 with ops := [performedOp], pe := { peAtEl .el1 with tlb := [e4, e9] } }

/-- The same on a machine of one PE with no access in flight, the operation declared complete. -/
def promised : State :=
  { machine .el1 with ops := [{ performedOp with complete := true }], after := []
                      pe := { peAtEl .el1 with tlb := [e4, e9], inFlight := [] } }

/-- A machine of one PE that a program of one instruction was placed in. -/
def loaded : State :=
  { machine .el1 with after := [], pe := (loadProgram 0x1000 [0xD50886E5] (peAtEl .el1)).getD (peAtEl .el1) }

/-! ### Executing (95_test_vectors 2.8, P1 to P5) -/

/-- P1: X0 of PE 0 becomes the operand of one operation, `pc` moves on, no TLB changes yet. -/
theorem test_base_issues : ∃ t, exec (.tlbiRvaale1 0) (machine .el1) = .next t ∧ t.pe.pc = 0x1004 ∧
    t.ops = [opOn 0x0000400000000100 true] ∧ t.pe.tlb = [e1, e2, e4, e6, e9] := ⟨_, rfl, by decide⟩

/-- Row 14: FB widens, FnXS turns the base encoding's attribute to ExcludeXS. -/
theorem test_base_widened : ∃ t, exec (.tlbiRvaale1 31)
      (withSys .el1 (fun r => { r with hcrEl2 := { r.hcrEl2 with fb := true }, hcrxEl2 := ⟨true, false⟩ })) = .next t ∧
    t.ops.map (fun o => (o.call.sh, o.call.attr, o.call.xt)) = [(.ish, .excludeXS, 0)] := ⟨_, rfl, by decide⟩

/-- P2: the nXS encoding with X5 is trapped with its own encoding in the syndrome. -/
theorem test_nxs_trapped : ∃ t, exec (.tlbiRvaale1nxs 5) trapping = .next t ∧ t.pe.raised = [.trapEl2 0x18 0x1E24AC] ∧
    t.pe.ex2.esr = 0x621E24AC ∧ t.pe.ex2.elr = 0x1000 ∧ t.pe.pc = 0x20400 ∧ t.ops = [] := ⟨_, rfl, by decide⟩

/-- Row 18: in host mode at EL2 the EL2&0 regime is named, with no VMID. -/
theorem test_nxs_host : ∃ t, exec (.tlbiRvaale1nxs 5) (hosting .el2) = .next t ∧
    t.ops.map (fun o => (o.call.regime, o.call.vmid, o.call.attr)) = [(.el20, none, .excludeXS)] := ⟨_, rfl, by decide⟩

/-- Rows 6 and 7: `HCRX_EL2.FGTnXS` exempts the nXS encoding from the fine-grained trap, and only it. -/
theorem test_fine_trap_exemption :
    (∃ t, exec (.tlbiRvaale1 5) { fineTrapping with pe := { fineTrapping.pe with sys :=
        { fineTrapping.pe.sys with hcrxEl2 := ⟨false, true⟩ } } } = .next t ∧ t.pe.raised = [.trapEl2 0x18 0x1E20AC]) ∧
    (∃ t, exec (.tlbiRvaale1nxs 5) { fineTrapping with pe := { fineTrapping.pe with sys :=
        { fineTrapping.pe.sys with hcrxEl2 := ⟨false, true⟩ } } } = .next t ∧ t.pe.raised = []) :=
  ⟨⟨_, rfl, by decide⟩, ⟨_, rfl, by decide⟩⟩

/-- Row 23: at EL3 with an invalid Security state nothing happens but the advance of `pc`. -/
theorem test_nxs_invalid_security : ∃ t, exec (.tlbiRvaale1nxs 3) (invalidSecurity false) = .next t ∧ t.ops = [] ∧
    t.pe.pc = 0x1004 ∧ t.pe.raised = [] := ⟨_, rfl, by decide⟩

/-- The first instruction after reset is fetched, decoded and run, and issues its operation. -/
theorem test_step_base : ∃ t, step (State.reset.withFetchWord 32 0xD50886E0) = .next t ∧ t.ops.length = 1 ∧
    t.pe.pc = 4 := ⟨_, rfl, by decide⟩

theorem test_step_nxs : ∃ t, step (State.reset.withFetchWord 32 0xD50896E0) = .next t ∧ t.ops.length = 1 ∧
    t.pe.pc = 4 := ⟨_, rfl, by decide⟩

/-! ### The issued operation (95_test_vectors 2.6, 2.7) -/

/-- The table of 2.6, both columns, FEAT_D128 implemented: which of e1 to e13 must go. -/
theorem test_required_entries :
    entries.map ((opOn 0x0000400000000100 false).requires cfg) =
      [true, true, true, false, false, true, false, false, false, false, false, true, true] ∧
    entries.map ((opOn 0x0000400000000100 true).requires cfg) =
      [true, true, true, false, false, true, false, false, false, false, false, false, true] := by decide

/-- TTL 0b11 names level 3 and no 128-bit entry; TTL 0b10 off a multiple of 2^21 requires no 64-bit entry. -/
theorem test_required_hint :
    entries.map ((opOn 0x0000406000000100 false).requires cfg) =
      [true, true, true, false, false, false, false, false, false, false, false, true, false] ∧
    entries.map ((opOn 0x0000404000000100 false).requires cfg) = List.replicate 13 false := by decide

/-- 2.7: an AllAttr operation waits for the accesses of removed entries, an ExcludeXS one not for those with XS = 1. -/
theorem test_waits :
    (peAtEl .el1).inFlight.map (performedOp.waits 0) = [true, true] ∧
    (peAtEl .el1).inFlight.map
      ({ performedOp with call := { performedOp.call with attr := .excludeXS } }.waits 0) = [true, false] := by decide

/-- The removal leaves the entries outside the range; a drop may take one of them too. -/
theorem test_removal :
    (agentMove (.perform 0 0 []) issued).pe.tlb = [e4, e9] ∧
    (agentMove (.perform 0 0 [e9]) issued).pe.tlb = [e4] ∧
    (agentMove (.perform 0 1 []) issued) = issued := by decide

/-- D24: a fetch is in flight with the chosen ones of the TLB's entries; `entry 0 1` is in no TLB. -/
theorem test_fetch_in_flight : ∃ t, step (loaded.withSchedule [.run 0 { used := [e1, entry 0 1], xs := true }]) = .next t ∧
    t.pe.inFlight[2]? = some { used := [e1], xs := true, complete := false } ∧ t.ops.length = 1 := ⟨_, rfl, by decide⟩

/-! ### Witnesses: the hypotheses of every obligation that has some, met together -/

/-- A machine whose running PE stands at `pc` with the bytes of `w` there. -/
def standing (pc : Word) (w : InstrWord) : State :=
  { machine .el1 with pe := { peAtEl .el1 with pc := pc, mem := Memory.writeBytes [] pc.toNat (bytesOfWord w) } }

theorem witness_DecodeAndEncodeAgree :
    Instr.wellFormed (.tlbiRvaale1 31) = true ∧ Instr.wellFormed (.tlbiRvaale1nxs 0) = true ∧
    decode [0xFF, 0x86, 0x08, 0xD5, 0x00] = .ok (.tlbiRvaale1 31, [0x00]) := ⟨by decide, by decide, rfl⟩

theorem witness_WordsDecodeByMaskAndMatch :
    (0xD503201F#32 &&& 0xFFFFFFE0#32 ≠ 0xD50886E0#32 ∧ 0xD503201F#32 &&& 0xFFFFFFE0#32 ≠ 0xD50896E0#32) ∧
    Instr.wellFormed (.tlbiRvaale1 31) = true ∧ Instr.wellFormed (.tlbiRvaale1nxs 31) = true := by decide

theorem witness_StepRunsTheDecodedInstruction :
    ((standing 0x1000 0xD50886E5).schedule = [] ∧ (standing 0x1000 0xD50886E5).pe.exited = false ∧
      (standing 0x1000 0xD50886E5).pe.raised = [] ∧
      (standing 0x1000 0xD50886E5).pe.pc.toNat % 4 = 0 ∧ (standing 0x1000 0xD50886E5).pe.pc.toNat ≠ 2 ^ 64 - 4 ∧
      (standing 0x1000 0xD50886E5).pe.mem.read 0x1000 = some 0xE5 ∧ (standing 0x1000 0xD50886E5).pe.mem.read 0x1001 = some 0x86 ∧
      (standing 0x1000 0xD50886E5).pe.mem.read 0x1002 = some 0x08 ∧ (standing 0x1000 0xD50886E5).pe.mem.read 0x1003 = some 0xD5) ∧
    decode [0xE5, 0x86, 0x08, 0xD5] = .ok (.tlbiRvaale1 5, []) := ⟨by decide, rfl⟩

/-- The second clause, with PE 0 the one the schedule names, at the last address an instruction may stand at. -/
theorem witness_StepRunsTheDecodedInstruction_run : ∃ q : Pe,
    ((standing 0xFFFFFFFFFFFFFFF8 0xD50896E0).withSchedule [.run 0 default]).peAt 0 = some q ∧ q.exited = false ∧ q.raised = [] ∧
      q.pc.toNat % 4 = 0 ∧ q.pc.toNat ≠ 2 ^ 64 - 4 ∧ q.mem.readWordBytes q.pc.toNat = some [0xE0, 0x96, 0x08, 0xD5] ∧
      decode [0xE0, 0x96, 0x08, 0xD5] = .ok (.tlbiRvaale1nxs 0, []) :=
  ⟨_, rfl, by decide, by decide, by decide, by decide, by decide, rfl⟩

theorem witness_FetchStops_exited : ∃ q, loadProgram 0x1000 [] (peAtEl .el1) = some q ∧
    q.program = some ⟨0x1000, 0⟩ ∧ q.pc = 0x1000 + BitVec.ofNat 64 (4 * 0) := ⟨_, rfl, by decide⟩

theorem witness_FetchStops_raised : ∃ t, exec (.tlbiRvaale1 0) trapping = .next t ∧ t.schedule = [] ∧ t.pe.raised ≠ [] :=
  ⟨_, rfl, by decide⟩

theorem witness_FetchStops_misaligned : (standing 0x1002 0xD50886E0).schedule = [] ∧
    (standing 0x1002 0xD50886E0).pe.exited = false ∧ (standing 0x1002 0xD50886E0).pe.raised = [] ∧
    (standing 0x1002 0xD50886E0).pe.pc.toNat % 4 ≠ 0 := by decide

theorem witness_FetchStops_top : (standing 0xFFFFFFFFFFFFFFFC 0xD50886E0).schedule = [] ∧
    (standing 0xFFFFFFFFFFFFFFFC 0xD50886E0).pe.exited = false ∧ (standing 0xFFFFFFFFFFFFFFFC 0xD50886E0).pe.raised = [] ∧
   
    (standing 0xFFFFFFFFFFFFFFFC 0xD50886E0).pe.pc.toNat = 2 ^ 64 - 4 := by decide

theorem witness_FetchStops_unwritten : (machine .el1).schedule = [] ∧ (machine .el1).pe.exited = false ∧ (machine .el1).pe.raised = [] ∧
   
    (machine .el1).pe.pc.toNat % 4 = 0 ∧ (machine .el1).pe.pc.toNat ≠ 2 ^ 64 - 4 ∧
    (machine .el1).pe.mem.read ((machine .el1).pe.pc.toNat + 3) = none := by decide

theorem witness_FetchStops_other : (standing 0x1000 0xD503201F).schedule = [] ∧ (standing 0x1000 0xD503201F).pe.exited = false ∧ (standing 0x1000 0xD503201F).pe.raised = [] ∧
   
    (standing 0x1000 0xD503201F).pe.pc.toNat % 4 = 0 ∧ (standing 0x1000 0xD503201F).pe.pc.toNat ≠ 2 ^ 64 - 4 ∧
    (standing 0x1000 0xD503201F).pe.mem.readWordBytes (standing 0x1000 0xD503201F).pe.pc.toNat = some (bytesOfWord 0xD503201F) ∧
    (0xD503201F#32 &&& 0xFFFFFFE0#32 ≠ 0xD50886E0#32) ∧ (0xD503201F#32 &&& 0xFFFFFFE0#32 ≠ 0xD50896E0#32) := by decide

theorem witness_LoadedProgramIsFetched :
    (∃ q, loadProgram 0xFFFFFFFFFFFFFFF8 [0xD50886E0] (peAtEl .el1) = some q ∧ ([0xD50886E0] : List InstrWord)[0]? = some 0xD50886E0) ∧
    (peAtEl .el1).raised = [] ∧ (peAtEl .el1).mem.wf = true ∧ decodeWord 0xD50886E0 = .ok (.tlbiRvaale1 0) ∧
    (0xD503201F#32 &&& 0xFFFFFFE0#32 ≠ 0xD50886E0#32) ∧ (0xD503201F#32 &&& 0xFFFFFFE0#32 ≠ 0xD50896E0#32) ∧
    (0x1001#64).toNat % 4 ≠ 0 ∧
    2 ^ 64 - 4 < (0xFFFFFFFFFFFFFFF8#64).toNat + 4 * ([0xD50886E0, 0xD50886E0] : List InstrWord).length :=
  ⟨⟨_, rfl, rfl⟩, by decide, by decide, rfl, by decide⟩

theorem loaded_inv : loaded.Inv where
  pes := by
    intro p hp
    obtain rfl : p = loaded.pe := by simpa [State.allPes, loaded, machine] using hp
    exact ⟨by decide, by decide, by decide, by decide, by decide, by decide, by decide, by decide, by decide⟩
  opForms := nofun
  cleaned := nofun
  completed := nofun

theorem witness_NoFetchBeyondTheProgram : loaded.Inv ∧ Sys2Proof.core.run 0 loaded = .next loaded ∧
    loaded.peAt 0 = some loaded.pe ∧ loaded.pe.program = some ⟨0x1000, 1⟩ ∧ fetch loaded.pe = .instr (.tlbiRvaale1 5) :=
  ⟨loaded_inv, rfl, rfl, rfl, rfl⟩

theorem witness_FetchesAreAccessesInFlight :
    (loaded.peAt 0 = some loaded.pe ∧ fetch loaded.pe = .instr (.tlbiRvaale1 5) ∧ (∀ e ∈ [e1, e9], e ∈ loaded.pe.tlb)) ∧
    (∃ t op', step (issued.withSchedule [.perform 0 0 []]) = .next t ∧ t.ops[0]? = some op') ∧
    issued.ops[0]? = some (opOn 0x0000400000000100 true) ∧ issued.peAt 0 = some issued.pe ∧
    0 ∈ issued.scope (opOn 0x0000400000000100 true) ∧ (opOn 0x0000400000000100 true).performedOn 0 = false ∧
    (∃ a ∈ issued.pe.inFlight, e1 ∈ a.used ∧ a.xs = false) ∧ e1 ∈ issued.pe.tlb ∧
    (opOn 0x0000400000000100 true).requires issued.cfg e1 = true ∧
    (opOn 0x0000400000000100 true).call.attr = .allAttr :=
  ⟨⟨rfl, rfl, by decide⟩, ⟨_, _, rfl, rfl⟩, rfl, rfl, by decide⟩

theorem witness_BaseEncodingIssuesAtEl1 : (machine .el1).cfg.featTLBIRANGE = true ∧ (machine .el1).pe.pstate.el = .el1 ∧
    ¬(el2Enabled (machine .el1).cfg (machine .el1).pe = true ∧ (machine .el1).pe.sys.hcrEl2.ttlb = true) ∧
    ¬(el2Enabled (machine .el1).cfg (machine .el1).pe = true ∧ (machine .el1).cfg.featFGT = true ∧
      ((machine .el1).cfg.haveEL3 = false ∨ (machine .el1).pe.sys.scrEl3.fgten = true) ∧
      (machine .el1).pe.sys.hfgitrEl2.tlbirvaale1 = true) := by decide

theorem witness_NxsEncodingIssuesAtEl1 : (machine .el1).cfg.featTLBIRANGE = true ∧ (machine .el1).cfg.featXS = true ∧
    (machine .el1).pe.pstate.el = .el1 ∧
    ¬(el2Enabled (machine .el1).cfg (machine .el1).pe = true ∧ (machine .el1).pe.sys.hcrEl2.ttlb = true) ∧
    ¬(el2Enabled (machine .el1).cfg (machine .el1).pe = true ∧ (machine .el1).cfg.featFGT = true ∧
      ((machine .el1).cfg.haveEL3 = false ∨ (machine .el1).pe.sys.scrEl3.fgten = true) ∧
      (machine .el1).cfg.featHCX = true ∧
      (hcrxEl2Enabled (machine .el1).cfg (machine .el1).pe = false ∨ (machine .el1).pe.sys.hcrxEl2.fgtnxs = false) ∧
      (machine .el1).pe.sys.hfgitrEl2.tlbirvaale1 = true) := by decide

/-- The same with EL2 not enabled and every control set, a boundary of the premises. -/
theorem witness_NxsEncodingIssuesAtEl1_noEl2 : ∃ s : State, s.pe.pstate.el = .el1 ∧
    el2Enabled s.cfg s.pe = false ∧ s.pe.sys.hcrEl2.ttlb = true ∧ s.pe.sys.hfgitrEl2.tlbirvaale1 = true :=
  ⟨withSys .el1 (fun r => { r with hcrEl2 := ⟨true, true, false, false⟩, hfgitrEl2 := ⟨true⟩
                                   scrEl3 := SysRegs.reset.scrEl3 }), by decide⟩

theorem witness_BothEncodingsIssueAtEl2 : (machine .el2).cfg.featTLBIRANGE = true ∧ (machine .el2).cfg.featXS = true ∧
    (machine .el2).pe.pstate.el = .el2 ∧ elIsInHost (machine .el2).cfg (machine .el2).pe = false ∧
    elIsInHost (hosting .el2).cfg (hosting .el2).pe = true := by decide

theorem witness_BothEncodingsIssueAtEl3 : (machine .el3).cfg.featTLBIRANGE = true ∧ (machine .el3).cfg.featXS = true ∧
    (machine .el3).pe.pstate.el = .el3 ∧ elIsInHost (machine .el3).cfg (machine .el3).pe = false ∧
    elIsInHost (hosting .el3).cfg (hosting .el3).pe = true ∧ (machine .el3).cfg.featRME = false ∧
    validSecurityStateEl1 State.reset.cfg State.reset.pe = true ∧ State.reset.cfg.featRME = true := by decide

theorem witness_InvalidSecurityStateAtEl3DoesNothing (host : Bool) : (invalidSecurity host).cfg.featTLBIRANGE = true ∧
    (invalidSecurity host).cfg.featRME = true ∧ (invalidSecurity host).cfg.featXS = true ∧
    (invalidSecurity host).pe.pstate.el = .el3 ∧
    elIsInHost (invalidSecurity host).cfg (invalidSecurity host).pe = host ∧
    validSecurityStateEl1 (invalidSecurity host).cfg (invalidSecurity host).pe = false ∧
    validSecurityStateEl2 (invalidSecurity host).cfg (invalidSecurity host).pe = false := by
  cases host <;> decide

/-- An instruction that issues: the premise of the frame, program counter and operand statements, and of both clauses on
what was raised. -/
theorem witness_InstructionsLeaveTheRestUnchanged :
    (∃ t, exec (.tlbiRvaale1 0) (machine .el1) = .next t ∧ t.pe.raised = (machine .el1).pe.raised ∧
      t.ops = (machine .el1).ops ++ [opOn 0x0000400000000100 true]) ∧
    (∃ t, exec (.tlbiRvaale1nxs 0) trapping = .next t ∧ t.pe.raised ≠ trapping.pe.raised ∧
      TargetEl.el1.toEl ≠ t.pe.pstate.el) := ⟨⟨_, rfl, by decide⟩, ⟨_, rfl, by decide⟩⟩

theorem witness_PcAdvancesOrGoesToTheVector : ∃ t, exec (.tlbiRvaale1 31) (machine .el1) = .next t := ⟨_, rfl⟩

theorem witness_OperandIsTheNamedRegister :
    ∃ t op, exec (.tlbiRvaale1 30) (machine .el1) = .next t ∧ t.ops = (machine .el1).ops ++ [op] := ⟨_, _, rfl, rfl⟩

theorem witness_EncodingsDifferOnlyInTheAttribute :
    (∃ a b x y, exec (.tlbiRvaale1 0) (machine .el2) = .next a ∧ exec (.tlbiRvaale1nxs 0) (machine .el2) = .next b ∧
      a.ops = (machine .el2).ops ++ [x] ∧ b.ops = (machine .el2).ops ++ [y]) ∧
    (∃ a b, exec (.tlbiRvaale1 0) trapping = .next a ∧ exec (.tlbiRvaale1nxs 0) trapping = .next b ∧
      b.pe.raised = [.trapEl2 0x18 0x1E240C]) :=
  ⟨⟨_, _, _, _, rfl, rfl, rfl, rfl⟩, ⟨_, _, rfl, rfl, by decide⟩⟩

/-- The clause on what FnXS makes one operation, and the clause on the trap of the base encoding alone. -/
theorem witness_EncodingsDifferOnlyInTheAttribute_el1 :
    (∃ s a b x y, s = withSys .el1 (fun r => { r with hcrxEl2 := ⟨true, false⟩ }) ∧
      exec (.tlbiRvaale1 0) s = .next a ∧ exec (.tlbiRvaale1nxs 0) s = .next b ∧ a.ops = s.ops ++ [x] ∧
      b.ops = s.ops ++ [y] ∧ s.pe.pstate.el = .el1 ∧ s.cfg.featXS = true ∧ s.cfg.featHCX = true ∧
      hcrxEl2Enabled s.cfg s.pe = true ∧ s.pe.sys.hcrxEl2.fnxs = true) ∧
    (∃ s a b, s = withSys .el1 (fun r => { r with hcrxEl2 := ⟨false, true⟩, hfgitrEl2 := ⟨true⟩ }) ∧
      exec (.tlbiRvaale1 0) s = .next a ∧ exec (.tlbiRvaale1nxs 0) s = .next b ∧
      a.pe.raised = .trapEl2 0x18 0x1E200C :: s.pe.raised ∧ b.pe.raised = s.pe.raised) :=
  ⟨⟨_, _, _, _, _, rfl, rfl, rfl, rfl, rfl, by decide⟩, ⟨_, _, _, rfl, rfl, rfl, by decide, by decide⟩⟩

theorem witness_OneExceptionInTheOrderOfTheSpec :
    (∃ t, exec (.tlbiRvaale1 0) trapping = .next t ∧ (firstException (.tlbiRvaale1 0) trapping).isSome = true) ∧
    (∃ t, exec (.tlbiRvaale1 0) (machine .el1) = .next t ∧ firstException (.tlbiRvaale1 0) (machine .el1) = none ∧
      (machine .el1).pe.pstate.el ≠ .el3) ∧
    (∃ t, exec (.tlbiRvaale1 0) State.reset = .next t ∧ firstException (.tlbiRvaale1 0) State.reset = none ∧
      State.reset.pe.pstate.el = .el3 ∧ State.reset.cfg.featRME = true ∧
      elIsInHost State.reset.cfg State.reset.pe = false ∧ validSecurityStateEl1 State.reset.cfg State.reset.pe = true) ∧
    (∃ t, exec (.tlbiRvaale1 0) (invalidSecurity true) = .next t ∧
      firstException (.tlbiRvaale1 0) (invalidSecurity true) = none ∧ (invalidSecurity true).pe.pstate.el = .el3) :=
  ⟨⟨_, rfl, by decide⟩, ⟨_, rfl, by decide⟩, ⟨_, rfl, by decide⟩, ⟨_, rfl, by decide⟩⟩

theorem witness_UndefinedInExactlyThreeCases : ∃ t, exec (.tlbiRvaale1 0) (machine .el0) = .next t ∧
    t.pe.raised = .undefined :: (machine .el0).pe.raised := ⟨_, rfl, by decide⟩

/-- From EL0 to EL1, from EL0 to EL2 under TGE, and from EL3 to EL3. -/
theorem witness_UndefinedTargetAndSyndrome :
    (∃ t, exec (.tlbiRvaale1 0) (machine .el0) = .next t ∧ t.pe.raised = .undefined :: (machine .el0).pe.raised ∧
      TargetEl.el1.toEl = t.pe.pstate.el) ∧
    (∃ t, exec (.tlbiRvaale1 0) (hosting .el0) = .next t ∧ t.pe.raised = .undefined :: (hosting .el0).pe.raised ∧
      TargetEl.el2.toEl = t.pe.pstate.el) ∧
    (∃ t, exec (.tlbiRvaale1nxs 0) { machine .el3 with cfg := { cfg with featXS := false } } = .next t ∧
      t.pe.raised = .undefined :: (machine .el3).pe.raised ∧ TargetEl.el3.toEl = t.pe.pstate.el) :=
  ⟨⟨_, rfl, by decide⟩, ⟨_, rfl, by decide⟩, ⟨_, rfl, by decide⟩⟩

theorem witness_TrapSyndromeNamesTheInstruction :
    (∃ t, exec (.tlbiRvaale1 31) trapping = .next t ∧ t.pe.raised = .trapEl2 0x18 0x1E23EC :: trapping.pe.raised ∧
      Instr.wellFormed (.tlbiRvaale1 31) = true) ∧
    (∃ t, exec (.tlbiRvaale1nxs 31) trapping = .next t ∧ t.pe.raised = .trapEl2 0x18 0x1E27EC :: trapping.pe.raised ∧
      Instr.wellFormed (.tlbiRvaale1nxs 31) = true) := ⟨⟨_, rfl, by decide⟩, ⟨_, rfl, by decide⟩⟩

/-- Entry from a lower level, and from the same level with SP_EL1 and with SP_EL0. -/
theorem witness_ExceptionEntrySavesAndVectors :
    (∃ t, exec (.tlbiRvaale1 0) trapping = .next t ∧ t.pe.raised ≠ trapping.pe.raised ∧
      t.pe.pstate.el = TargetEl.el2.toEl ∧ t.pe.pc = 0x20400) ∧
    (∃ t, exec (.tlbiRvaale1 0) { machine .el1 with cfg := { cfg with featTLBIRANGE := false } } = .next t ∧
      t.pe.raised ≠ (machine .el1).pe.raised ∧ t.pe.pstate.el = TargetEl.el1.toEl ∧ t.pe.pc = 0x10200) ∧
    (∃ t, exec (.tlbiRvaale1 0) { machine .el1 with
        cfg := { cfg with featTLBIRANGE := false }
        pe := { peAtEl .el1 with pstate := { (peAtEl .el1).pstate with sp := false } } } = .next t ∧
      t.pe.raised ≠ (machine .el1).pe.raised ∧ t.pe.pstate.el = TargetEl.el1.toEl ∧ t.pe.pc = 0x10000) :=
  ⟨⟨_, rfl, by decide⟩, ⟨_, rfl, by decide⟩, ⟨_, rfl, by decide⟩⟩

theorem witness_FineGrainedTrapGates : fineTrapping.cfg.featTLBIRANGE = true ∧ fineTrapping.cfg.featXS = true ∧
    fineTrapping.pe.pstate.el = .el1 ∧ el2Enabled fineTrapping.cfg fineTrapping.pe = true ∧
    fineTrapping.pe.sys.hcrEl2.ttlb = false ∧ fineTrapping.cfg.featFGT = true ∧
    fineTrapping.pe.sys.hfgitrEl2.tlbirvaale1 = true := by decide

theorem witness_HypervisorControlsNeedEl1AndEl2Enabled :
    (∃ t, exec (.tlbiRvaale1 0) (hosting .el3) = .next t ∧ t.ops.length = 1) ∧ (hosting .el3).pe.pstate.el = .el3 ∧
    el2Enabled (hosting .el3).cfg (hosting .el3).pe = true ∧
    (∃ s t, s = withSys .el1 (fun r => { r with scrEl3 := SysRegs.reset.scrEl3 }) ∧
      exec (.tlbiRvaale1nxs 0) s = .next t ∧ el2Enabled s.cfg s.pe = false ∧ hcrxEl2Enabled s.cfg s.pe = false ∧
      t.ops.length = 1) := ⟨⟨_, rfl, by decide⟩, by decide, by decide, ⟨_, _, rfl, rfl, by decide⟩⟩

theorem witness_ExceptionsDoNotReadTheOperand : ∃ t, exec (.tlbiRvaale1nxs 7) (machine .el1) = .next t := ⟨_, rfl⟩

theorem witness_Res0BitsHaveNoEffect :
    (0xABCD400000000100#64).toNat % 2 ^ 48 = (0x0000400000000100#64).toNat % 2 ^ 48 := by decide

theorem witness_StartingAddressPlacesTheField : (14 : Nat) = (match false, Granule.g16K with
    | false, .g4K => 12 | false, .g16K => 14 | false, .g64K => 16 | true, _ => 16) := rfl

theorem witness_RangeSizeFormula : (2 : BitVec 2).toNat < 3 := by decide

theorem witness_EffectiveLevelHint : ({ cfg with featLPA2 := false } : Config).featLPA2 = false ∧
    (0b10#2 ≠ 0b01#2) ∧ Granule.g4K ≠ .g16K ∧ cfg.featLPA2 = true := by decide

/-- An end of exactly 2^64 is settled, one past it is free. -/
theorem witness_RequiredEntriesMeetTheFiveRequirements :
    granuleOfTg (decodeOperand 0x0000401FFFFFFFFE).tg = some .g4K ∧
    (baseVa false .g4K (decodeOperand 0x0000401FFFFFFFFE).base).toNat +
      rangeSize .g4K (decodeOperand 0x0000401FFFFFFFFE).num (decodeOperand 0x0000401FFFFFFFFE).scale = 2 ^ 64 ∧
    granuleOfTg (decodeOperand 0x0000401FFFFFFFFF).tg = some .g4K ∧
    2 ^ 64 < (baseVa false .g4K (decodeOperand 0x0000401FFFFFFFFF).base).toNat +
      rangeSize .g4K (decodeOperand 0x0000401FFFFFFFFF).num (decodeOperand 0x0000401FFFFFFFFF).scale := by decide

theorem witness_OperandsWithoutASettledRange :
    (decodeOperand 0x00003FFFFFFFFFFF).tg = 0b00 ∧
    (granuleOfTg (decodeOperand 0x0000401FFFFFFFFF).tg = some .g4K ∧
      2 ^ 64 < (baseVa false .g4K (decodeOperand 0x0000401FFFFFFFFF).base).toNat +
        rangeSize .g4K (decodeOperand 0x0000401FFFFFFFFF).num (decodeOperand 0x0000401FFFFFFFFF).scale) ∧
    (granuleOfTg (decodeOperand 0x0000404000000100).tg = some .g4K ∧
      unpredictableRange .g4K (effectiveTtl cfg .g4K (decodeOperand 0x0000404000000100).ttl)
        (baseVa false .g4K (decodeOperand 0x0000404000000100).base).toNat = true) := by decide

theorem witness_ScopeOfAnOperation : (opOn 0 true).issuer < (machine .el1).npe ∧ (opOn 0 true).call.sh = .nsh ∧
    (0, 1) ∈ (machine .el1).cfg.isPairs := by decide

theorem witness_RemovalLeavesAnyAllowedSet :
    issued.ops[0]? = some (opOn 0x0000400000000100 true) ∧ issued.peAt 0 = some issued.pe ∧
    0 ∈ issued.scope (opOn 0x0000400000000100 true) ∧ (opOn 0x0000400000000100 true).performedOn 0 = false ∧
    (∀ e ∈ [e9], e ∈ issued.pe.tlb ∧ (opOn 0x0000400000000100 true).requires issued.cfg e = false) := by
  refine ⟨rfl, rfl, ?_⟩
  decide

/-- PE 1 is not in the scope of a local operation, and PE 0 has performed it. -/
theorem witness_RemovalOnceAndInScopeOnly :
    (cleaned.withSchedule [.perform 0 1 []]).schedule = [.perform 0 1 []] ∧ 1 ∉ cleaned.scope performedOp ∧
    performedOp.performedOn 0 = true ∧ cleaned.ops[0]? = some performedOp := by decide

theorem witness_CompletionCondition :
    (promised.withSchedule [.declare 0]).schedule = [.declare 0] ∧
    promised.ops[0]? = some { performedOp with complete := true } ∧
    promised.completable performedOp = true ∧ cleaned.completable performedOp = false := by decide

theorem witness_ExcludeXsCompletesNoLater :
    promised.completable performedOp = true ∧
    (∀ q ∈ promised.allPes, ∀ a ∈ q.inFlight, a.xs = true → a.complete = true) := by decide

theorem witness_RemovalsComeInAnyOrder : (0 : Nat) ≠ 1 := by decide

theorem witness_AgentMovesLeaveProgramsAlone :
    (∃ x, cleaned.pe.inFlight[0]? = some x) ∧
    (cleaned.withSchedule [.finish 0 0]).schedule = [.finish 0 0] ∧ (∀ p f, Move.finish 0 0 ≠ .run p f) ∧
    cleaned.peAt 0 = some cleaned.pe := ⟨⟨_, rfl⟩, rfl, nofun, rfl⟩

theorem pe_wf (el : El) (tlb : List TlbEntry) (acc : List Access) (h : tlb.Nodup) (hw : ∀ e ∈ tlb, e.wf = true) :
    ({ peAtEl el with tlb := tlb, inFlight := acc } : Pe).WellFormed cfg where
  memCanonical := rfl
  tlbNodup := h
  tlbEntries := hw
  pcAligned := show (0x1000#64).toNat % 4 = 0 by decide
  vbar1Aligned := show (0x10000#64).toNat % 4 = 0 by decide
  vbar2Aligned := show (0x20000#64).toNat % 4 = 0 by decide
  vbar3Aligned := show (0x30000#64).toNat % 4 = 0 by decide
  elLegal := by cases el <;> rfl
  inProgram := nofun

/-- A state that meets the invariant with an operation performed and complete. -/
theorem promised_inv : promised.Inv where
  pes := by
    intro p hp
    obtain rfl : p = promised.pe := by simpa [State.allPes, promised, machine] using hp
    exact pe_wf .el1 [e4, e9] [] (by decide) (by decide)
  opForms := by
    intro op hop
    obtain rfl : op = { performedOp with complete := true } := by simpa [promised] using hop
    exact ⟨by decide, by decide, by decide, by decide, by decide⟩
  cleaned := by
    intro op hop
    obtain rfl : op = { performedOp with complete := true } := by simpa [promised] using hop
    intro x hx
    obtain rfl : x = { pe := 0, required := [e1, e2, e6] } := by simpa [performedOp] using hx
    refine ⟨by decide, fun p hp => ?_⟩
    obtain rfl : promised.pe = p := Option.some.inj hp
    decide
  completed := by
    intro op hop
    obtain rfl : op = { performedOp with complete := true } := by simpa [promised] using hop
    intro _
    decide

/-- The premises of the statements over steps and runs from a state that meets the invariant. -/
theorem witness_EveryStepKeepsTheInvariant :
    ∃ s t, s.Inv ∧ step s = .next t ∧ t.ops.length = 1 :=
  ⟨promised.withSchedule [.declare 0], _, ⟨promised_inv.pes,
    fun op h => have w := promised_inv.opForms op h
      ⟨w.issuerExists, w.argumentForms, w.broadcastEl2, w.performedOnce, w.performedIn⟩,
    promised_inv.cleaned, promised_inv.completed⟩, rfl, by decide⟩

theorem witness_CompleteOperationsKeepTheirPromise :
    promised.Inv ∧ Sys2Proof.core.run 0 promised = .next promised ∧
    { performedOp with complete := true } ∈ promised.ops ∧
    0 ∈ promised.scope { performedOp with complete := true } := ⟨promised_inv, rfl, by decide, by decide⟩

theorem witness_NoStepAddsEntriesOrWritesGeneralOrControlRegisters :
    ∃ t, step (issued.withSchedule [.perform 0 0 []]) = .next t ∧ issued.peAt 0 = some issued.pe := ⟨_, rfl, rfl⟩

theorem witness_IssuedOperationsAreFixed :
    ∃ t, step (issued.withSchedule [.perform 0 0 []]) = .next t ∧
      issued.ops[0]? = some (opOn 0x0000400000000100 true) := ⟨_, rfl, rfl⟩

theorem witness_LevelChangesOnlyByException :
    ∃ t q, step (trapping.withFetchWord 32 0xD50886E0) = .next t ∧ t.peAt 0 = some q ∧
      q.raised = [.trapEl2 0x18 0x1E200C] := ⟨_, _, rfl, rfl, by decide⟩

theorem witness_FaultedRunsAreNeverFinal :
    ∃ s t, Sys2Proof.core.run 1 s = .next t ∧ ∃ p ∈ s.allPes, p.raised ≠ [] :=
  ⟨{ (machine .el1).withSchedule [.declare 0] with pe := { peAtEl .el1 with raised := [.undefined] } }, _, rfl, _,
    List.mem_cons_self, by decide⟩

/-- A final state, and one that is not for its pending operation alone. -/
theorem test_final : promised.final = true ∧ { promised with ops := [performedOp] }.final = false := by decide

theorem witness_AnExceptionEndsTheRunOfItsPe :
    ∃ s, exec (.tlbiRvaale1 0) trapping = .next s ∧ Sys2Proof.core.run 1 s = .next s ∧ s.peAt 0 = some s.pe ∧
      s.pe.raised ≠ [] := ⟨_, rfl, rfl, rfl, by decide⟩

theorem witness_EveryOperationCanComplete : promised.Inv := promised_inv

/-! A fair run: the agent performs the one operation of the machine, declares it complete, and goes on declaring it. -/

/-- One PE, no access in flight, the operation issued. -/
def fairStart : State :=
  { machine .el1 with ops := [opOn 0x0000400000000100 true], after := [], pe := { peAtEl .el1 with inFlight := [] } }

def fairRun : Nat → State
  | 0 => fairStart
  | 1 => { promised with ops := [performedOp] }
  | _ + 2 => promised

def fairMoves : Nat → Move
  | 0 => .perform 0 0 []
  | _ + 1 => .declare 0

theorem fairRun_late {m : Nat} (h : 2 ≤ m) : fairRun m = promised := by
  obtain ⟨k, rfl⟩ := Nat.exists_eq_add_of_le' h; rfl

theorem fairStart_inv : fairStart.Inv where
  pes := by
    intro p hp
    obtain rfl : p = fairStart.pe := by simpa [State.allPes, fairStart, machine] using hp
    exact pe_wf .el1 _ [] (by decide) (by decide)
  opForms := by
    intro op hop
    obtain rfl : op = opOn 0x0000400000000100 true := by simpa [fairStart] using hop
    exact ⟨by decide, by decide, by decide, by decide, by decide⟩
  cleaned := by
    intro op hop
    obtain rfl : op = opOn 0x0000400000000100 true := by simpa [fairStart] using hop
    exact nofun
  completed := by
    intro op hop
    obtain rfl : op = opOn 0x0000400000000100 true := by simpa [fairStart] using hop
    exact nofun

theorem fairRun_isRun : IsRun fairRun fairMoves
  | 0 => rfl
  | 1 => rfl
  | _ + 2 => rfl

theorem promised_op {k : Nat} {op : Op} (h : promised.ops[k]? = some op) :
    op = { performedOp with complete := true } := by simpa [promised] using List.mem_of_getElem? h

theorem fairRun_fair : Fair fairRun fairMoves where
  performs := by
    intro k p n h
    obtain ⟨op, hop, hp, hn⟩ := fairRun_late (Nat.le_max_right n 2) ▸ h (max n 2) (Nat.le_max_left n 2)
    obtain rfl := promised_op hop
    have hlt : p < 1 := (List.mem_range.mp (List.mem_filter.mp hp).1)
    obtain rfl : p = 0 := by omega
    exact absurd hn (by decide)
  finishes := by
    intro p a n h
    obtain ⟨q, x, hq, hx, -⟩ := fairRun_late (Nat.le_max_right n 2) ▸ h (max n 2) (Nat.le_max_left n 2)
    obtain rfl : q = promised.pe := by
      simpa [State.peAt, State.allPes, promised, machine] using List.mem_of_getElem? hq
    cases hx
  declares := by
    intro k n h
    obtain ⟨op, hop, -, hn⟩ := fairRun_late (Nat.le_max_right n 2) ▸ h (max n 2) (Nat.le_max_left n 2)
    obtain rfl := promised_op hop
    cases hn

theorem witness_FairRunsCompleteEveryOperation :
    IsRun fairRun fairMoves ∧ Fair fairRun fairMoves ∧ (fairRun 0).Inv ∧
    (fairRun 0).ops[0]? = some (opOn 0x0000400000000100 true) := ⟨fairRun_isRun, fairRun_fair, fairStart_inv, rfl⟩

/-- The second clause, an access in flight. -/
theorem witness_FairRunsCompleteEveryOperation_access : ∃ q x, cleaned.peAt 0 = some q ∧ q.inFlight[0]? = some x :=
  ⟨_, _, rfl, rfl⟩

theorem witness_FairRunsEndInFinalStates (l : Nat) :
    (fairRun l).ops.length = (fairRun 0).ops.length ∧
    ∀ p ∈ (fairRun l).allPes, p.raised = [] ∧ (p.program = none ∨ p.exited = true) := by
  match l with
  | 0 => decide
  | 1 => decide
  | _ + 2 => exact (by decide : promised.ops.length = (fairRun 0).ops.length ∧
      ∀ p ∈ promised.allPes, p.raised = [] ∧ (p.program = none ∨ p.exited = true))

theorem witness_HelperFunctions : ({ Helpers.documented with elIsInHost := some true }).elIsInHost = some true ∧
    { cfg with haveEL3 := false }.haveEL3 = false ∧ (peAtEl .el1).helpers = Helpers.documented ∧
    el2Enabled cfg (peAtEl .el1) = true ∧ cfg.haveEL3 = true ∧ cfg.featRME = false ∧ resetConfig.featRME = true ∧
    el2Enabled resetConfig (Pe.reset resetConfig) = false ∧ (invalidSecurity true).pe.sys.scrEl3.nse = true ∧
    (invalidSecurity true).pe.sys.scrEl3.ns = false := by decide

end Sys2Proof.Tests
end

section
/-! What one execution leaves of the machine: the running PE, the other PEs, the issued operations. -/

namespace Sys2Proof.Machine

/-- An instruction changes its PE in two ways: it retires, or it takes an exception to an implemented level. -/
inductive PeAfterExec (c : Config) (p q : Pe) : Prop where
  | retired (h : q = { p with pc := p.pc + 4 })
  | excepted (r : Raised) (l : TargetEl)
      (hl : elImplemented c p.pstate.el = true → elImplemented c l.toEl = true) (h : q = p.takeException r l)

/-- An Undefined exception goes to a level the implementation has (60_exceptions R90). -/
theorem undefinedTarget_implemented {c : Config} {p : Pe} (h : elImplemented c p.pstate.el = true) :
    elImplemented c (undefinedTarget c p).toEl = true := by
  unfold undefinedTarget
  cases hel : p.pstate.el with
  | el0 =>
    by_cases h2 : (el2Enabled c p && p.sys.hcrEl2.tge) = true
    · rw [Bool.and_eq_true] at h2
      simp [h2, TargetEl.toEl, elImplemented, el2Enabled_haveEL2 h2.1]
    · simp [h2, TargetEl.toEl, elImplemented]
  | el1 => rfl
  | el2 => rw [hel] at h; exact h
  | el3 => rw [hel] at h; exact h

theorem exec_pe {i : Instr} {s t : State} (h : exec i s = .next t) : PeAfterExec s.cfg s.pe t.pe := by
  cases exec_ending h with
  | undefined h => subst h; exact .excepted _ _ undefinedTarget_implemented rfl
  | trap he _ h => subst h; exact .excepted _ .el2 (fun _ => el2Enabled_haveEL2 he) rfl
  | nothing _ h => subst h; exact .retired rfl
  | issue10 _ _ _ h => subst h; exact .retired rfl
  | issue20 _ h => subst h; exact .retired rfl

/-- The forms of the calls an instruction makes (41_tlbi_rvaa_operation R70). -/
structure CallForm (s : State) (call : TlbiCall) : Prop where
  arguments : (call.regime = .el10 ∧ call.vmid.isSome = true) ∨
    (call.regime = .el20 ∧ call.vmid = none ∧ call.sh = .nsh)
  broadcast : call.sh = .ish → el2Enabled s.cfg s.pe = true

/-- An instruction issues nothing, or one operation on its own operand register. -/
theorem exec_ops {i : Instr} {s t : State} (h : exec i s = .next t) :
    t.ops = s.ops ∨
    ∃ call, t.ops = s.ops ++ [newOp call s] ∧ call.xt = readX s.pe i.operandReg ∧ CallForm s call := by
  cases exec_ending h with
  | undefined h => exact .inl (h ▸ rfl)
  | trap _ _ h => exact .inl (h ▸ rfl)
  | nothing _ h => exact .inl (h ▸ rfl)
  | issue10 sh attr hsh h => exact .inr ⟨el10Call s sh attr i.operandReg, h ▸ rfl, rfl, .inl ⟨rfl, rfl⟩, hsh⟩
  | issue20 attr h => exact .inr ⟨el20Call s attr i.operandReg, h ▸ rfl, rfl, .inr ⟨rfl, rfl, rfl⟩, nofun⟩

theorem exec_cfg {i : Instr} {s t : State} (h : exec i s = .next t) : t.cfg = s.cfg := by
  obtain ⟨q, l, rfl, -⟩ := exec_shape h; rfl

theorem exec_peId {i : Instr} {s t : State} (h : exec i s = .next t) : t.peId = s.peId := by
  obtain ⟨q, l, rfl, -⟩ := exec_shape h; rfl

theorem exec_allPes {i : Instr} {s t : State} (h : exec i s = .next t) : t.allPes = s.allPes.set s.peId t.pe := by
  obtain ⟨q, l, rfl, -⟩ := exec_shape h; exact withPe_allPes s q

theorem exec_npe {i : Instr} {s t : State} (h : exec i s = .next t) : t.npe = s.npe := by
  simp [State.npe, exec_allPes h]

/-- Every PE but the running one stands. -/
theorem exec_peAt {i : Instr} {s t : State} (h : exec i s = .next t) (p : Nat) :
    t.peAt p = if p = s.peId then some t.pe else s.peAt p := by
  rw [← withPe_peAt, State.peAt, State.peAt, exec_allPes h, withPe_allPes]

/-- An instruction answers a next state in every state. -/
theorem exec_next (i : Instr) (s : State) : ∃ t, exec i s = .next t := by
  cases i with
  | tlbiRvaale1 n => exact (execTlbiRvaale1_ending n s).imp fun _ h => h.1
  | tlbiRvaale1nxs n => exact (execTlbiRvaale1nxs_ending n s).imp fun _ h => h.1

/-- A PE that was given a program has exited exactly where `pc` is the program's end (70_reset_and_hazards R114 (2)). -/
theorem exited_iff {p : Pe} {g : Program} (h : p.program = some g) :
    p.exited = true ↔ p.pc = g.base + BitVec.ofNat 64 (4 * g.words) := by
  simp [Pe.exited, h]

/-- Neither end of an instruction touches the PE's TLB. -/
theorem PeAfterExec.tlb {c : Config} {p q : Pe} (h : PeAfterExec c p q) : q.tlb = p.tlb := by
  cases h with
  | retired h => rw [h]
  | excepted r l _ h => rw [h, takeException_tlb]

theorem PeAfterExec.inFlight {c : Config} {p q : Pe} (h : PeAfterExec c p q) : q.inFlight = p.inFlight := by
  cases h with
  | retired h => rw [h]
  | excepted r l _ h => rw [h, takeException_inFlight]

end Sys2Proof.Machine
end

section
/-! What fetch finds, an equation per case, and what a step then does. -/

namespace Sys2Proof.Machine

/-! ### Decoding the bytes of a word -/

/-- The bytes of a word are put together again (20_memory R32). -/
theorem wordOfBytes_bytesOfWord (w : InstrWord) :
    wordOfBytes (w.extractLsb' 0 8) (w.extractLsb' 8 8) (w.extractLsb' 16 8) (w.extractLsb' 24 8) = w := by
  unfold wordOfBytes
  rw [BitVec.extractLsb'_append_extractLsb'_eq_extractLsb' (show 24 = 16 + 8 from rfl),
    BitVec.extractLsb'_append_extractLsb'_eq_extractLsb' (show 16 = 8 + 8 from rfl),
    BitVec.extractLsb'_append_extractLsb'_eq_extractLsb' (show 8 = 0 + 8 from rfl)]
  exact BitVec.extractLsb'_eq_self

theorem decode_bytesOfWord_ok {w : InstrWord} {i : Instr} (h : decodeWord w = .ok i) :
    decode (bytesOfWord w) = .ok (i, []) := by
  simp only [bytesOfWord, decode, wordOfBytes_bytesOfWord, h]

theorem decodeFetched_bytesOfWord_ok {w : InstrWord} {i : Instr} (h : decodeWord w = .ok i) :
    decodeFetched (bytesOfWord w) = .instr i := by
  simp only [decodeFetched, decode_bytesOfWord_ok h]

/-- A word without the fixed bits of either row is refused by name (30_encoding R59). -/
theorem decodeWord_other {w : InstrWord} (h1 : w &&& 0xFFFFFFE0#32 ≠ 0xD50886E0#32)
    (h2 : w &&& 0xFFFFFFE0#32 ≠ 0xD50896E0#32) : decodeWord w = .error (.otherInstruction w) := by
  have hnone : decodeTable.find? (fun r => w &&& sysMask == sysWord r.fields 0) = none := by
    have hrows : sysWord rvaale1Fields 0#5 = 0xD50886E0#32 ∧ sysWord rvaale1nxsFields 0#5 = 0xD50896E0#32 := by decide
    simp [decodeTable, sysMask, hrows, h1, h2]
  simp only [decodeWord, hnone]

theorem decodeFetched_other {w : InstrWord} (h1 : w &&& 0xFFFFFFE0#32 ≠ 0xD50886E0#32)
    (h2 : w &&& 0xFFFFFFE0#32 ≠ 0xD50896E0#32) :
    decodeFetched (bytesOfWord w) = .refused (.otherInstruction w) := by
  have hdec : decode (bytesOfWord w) = .error (.otherInstruction w) := by
    simp only [bytesOfWord, decode, wordOfBytes_bytesOfWord, decodeWord_other h1 h2]
  simp only [decodeFetched, hdec]

/-! ### Reading the four bytes -/

theorem readWordBytes_eq_some {m : Memory} {a : Nat} {b0 b1 b2 b3 : Byte} (h0 : m.read a = some b0)
    (h1 : m.read (a + 1) = some b1) (h2 : m.read (a + 2) = some b2) (h3 : m.read (a + 3) = some b3) :
    m.readWordBytes a = some [b0, b1, b2, b3] := by
  simp only [Memory.readWordBytes, h0, h1, h2, h3]

/-- One byte without a value leaves the word without one (log 27). -/
theorem readWordBytes_eq_none {m : Memory} {a d : Nat} (hd : d < 4) (h : m.read (a + d) = none) :
    m.readWordBytes a = none := by
  cases hb : m.readWordBytes a with
  | none => rfl
  | some bytes =>
    unfold Memory.readWordBytes at hb
    split at hb
    · interval_cases d <;> simp_all
    · cases hb

/-! ### Fetch, case by case -/

theorem ended_of_program_end {p : Pe} {g : Program} (hg : p.program = some g)
    (hpc : p.pc = g.base + BitVec.ofNat 64 (4 * g.words)) : p.ended = true := by
  simp [Pe.ended, (exited_iff hg).mpr hpc]

theorem ended_of_raised {p : Pe} (h : p.raised ≠ []) : p.ended = true := by
  simp [Pe.ended, Pe.faulted, h]

theorem not_ended {p : Pe} (hexit : p.exited = false) (hr : p.raised = []) : ¬p.ended = true := by
  simp [Pe.ended, Pe.faulted, hexit, hr]

theorem fetch_misaligned {p : Pe} (hend : ¬p.ended = true) (h : p.pc.toNat % 4 ≠ 0) :
    fetch p = .refused .misalignedPc := by
  rw [fetch, if_neg hend, if_pos h]

theorem fetch_top {p : Pe} (hend : ¬p.ended = true) (h : p.pc.toNat = 2 ^ 64 - 4) : fetch p = .refused .pcAtTop := by
  rw [fetch, if_neg hend, if_neg (by rw [h]; decide), if_pos h]

theorem fetch_unwritten {p : Pe} (hend : ¬p.ended = true) (hal : p.pc.toNat % 4 = 0) (htop : p.pc.toNat ≠ 2 ^ 64 - 4)
    (h : p.mem.readWordBytes p.pc.toNat = none) : fetch p = .fault .unwrittenFetch := by
  rw [fetch, if_neg hend, if_neg (not_not.mpr hal), if_neg htop, h]

theorem fetch_bytes {p : Pe} (hend : ¬p.ended = true) (hal : p.pc.toNat % 4 = 0) (htop : p.pc.toNat ≠ 2 ^ 64 - 4)
    {bytes : List Byte} (h : p.mem.readWordBytes p.pc.toNat = some bytes) : fetch p = decodeFetched bytes := by
  rw [fetch, if_neg hend, if_neg (not_not.mpr hal), if_neg htop, h]

theorem fetch_decoded {p : Pe} (hexit : p.exited = false) (hr : p.raised = []) (hal : p.pc.toNat % 4 = 0)
    (htop : p.pc.toNat ≠ 2 ^ 64 - 4) {bytes rest : List Byte} (h : p.mem.readWordBytes p.pc.toNat = some bytes)
    {i : Instr} (hdec : decode bytes = .ok (i, rest)) : fetch p = .instr i := by
  rw [fetch_bytes (not_ended hexit hr) hal htop h, decodeFetched, hdec]

/-! ### The step of a PE -/

theorem step_of_no_schedule {s : State} (h : s.schedule = []) :
    step s = stepPe (Config.freeFetch s.peId s.pe.inFlight.length) s := by
  rw [step, h]

theorem step_of_run {s : State} {p : Nat} {f : FetchChoice} {ms : List Move} {q : Pe} (h : s.schedule = .run p f :: ms)
    (hq : s.peAt p = some q) : step s = stepPe f ((s.withSchedule ms).focus p) := by
  have hlt : p < s.npe := (peAt_isSome_iff s p).mp ⟨q, hq⟩
  rw [step, h]
  exact if_pos hlt

theorem step_of_agent {s : State} {m : Move} {ms : List Move} (h : s.schedule = m :: ms) (hm : ∀ p f, m ≠ .run p f) :
    step s = .next (agentMove m (s.withSchedule ms)) := by
  rw [step, h]
  cases m with
  | run p f => exact absurd rfl (hm p f)
  | perform k p drops => rfl
  | declare k => rfl
  | finish p a => rfl

theorem stepPe_ended {f : FetchChoice} {s : State} (h : s.pe.ended = true) : stepPe f s = .next s := by
  rw [stepPe, (fetch_ended_iff s.pe).mpr h]

theorem stepPe_fault {f : FetchChoice} {s : State} {r : Fault} (h : fetch s.pe = .fault r) : stepPe f s = .fault r := by
  rw [stepPe, h]

theorem stepPe_refused {f : FetchChoice} {s : State} {r : Refusal} (h : fetch s.pe = .refused r) :
    stepPe f s = .refused r := by
  rw [stepPe, h]

theorem stepPe_instr {f : FetchChoice} {s : State} {i : Instr} (h : fetch s.pe = .instr i) :
    stepPe f s = exec i (s.withPe (s.pe.recordFetch f)) := by
  rw [stepPe, h]

/-- A scheduled PE that fetches an instruction runs it as the running PE, its fetch in flight. -/
theorem step_of_run_instr {s : State} {p : Nat} {f : FetchChoice} {ms : List Move} {q : Pe} {i : Instr}
    (h : s.schedule = .run p f :: ms) (hq : s.peAt p = some q) (hf : fetch q = .instr i) :
    step s = exec i (((s.withSchedule ms).focus p).withPe (q.recordFetch f)) := by
  have hpe : ((s.withSchedule ms).focus p).pe = q := (focus_spec (s := s.withSchedule ms) hq).1
  rw [step_of_run h hq, stepPe_instr (hpe ▸ hf), hpe]

end Sys2Proof.Machine

namespace Sys2Proof.Proofs
open Sys2Proof.Machine

/-- Settles O4, by the equations of fetch and of a PE's step. -/
theorem stepRunsTheDecodedInstruction : Obligations.StepRunsTheDecodedInstruction := by
  unfold Obligations.StepRunsTheDecodedInstruction
  constructor
  · intro s i b0 b1 b2 b3 hs hexit hr hal htop h0 h1 h2 h3 hdec
    have hf := fetch_decoded hexit hr hal htop (readWordBytes_eq_some h0 h1 h2 h3) hdec
    exact ⟨_, rfl, fun e he => (List.mem_filter.mp he).1, by rw [step_of_no_schedule hs, stepPe_instr hf]; rfl⟩
  · intro s p q f ms i b0 b1 b2 b3 hs hq hexit hr hal htop h0 h1 h2 h3 hdec
    have hf := fetch_decoded hexit hr hal htop (readWordBytes_eq_some h0 h1 h2 h3) hdec
    have hid : ((s.withSchedule ms).focus p).peId = p := (focus_spec (s := s.withSchedule ms) hq).2
    refine ⟨_, step_of_run_instr hs hq hf, rfl, hid, ?_, by simp, by simp, by simp⟩
    rw [withPe_allPes, hid, focus_allPes, withSchedule_allPes, withPe_pe]

/-- Settles O5, by the equations of fetch. -/
theorem fetchStopsWhereTheSpecStops : Obligations.FetchStopsWhereTheSpecStops := by
  unfold Obligations.FetchStopsWhereTheSpecStops
  refine ⟨?exited, ?raised, ?misaligned, ?top, ?unwritten, ?other⟩
  case exited =>
    intro s g hs hg hpc
    rw [step_of_no_schedule hs, stepPe_ended (ended_of_program_end hg hpc)]
  case raised =>
    intro s hs hr
    rw [step_of_no_schedule hs, stepPe_ended (ended_of_raised hr)]
  case misaligned =>
    intro s hs hexit hr hal
    rw [step_of_no_schedule hs, stepPe_refused (fetch_misaligned (not_ended hexit hr) hal)]
  case top =>
    intro s hs hexit hr htop
    rw [step_of_no_schedule hs, stepPe_refused (fetch_top (not_ended hexit hr) htop)]
  case unwritten =>
    intro s d hs hexit hr hal htop hd hread
    have hnone := readWordBytes_eq_none hd hread
    rw [step_of_no_schedule hs, stepPe_fault (fetch_unwritten (not_ended hexit hr) hal htop hnone)]
  case other =>
    intro s w hs hexit hr hal htop hbytes h1 h2
    have hf := fetch_bytes (not_ended hexit hr) hal htop hbytes
    rw [step_of_no_schedule hs, stepPe_refused (hf.trans (decodeFetched_other h1 h2))]

end Sys2Proof.Proofs
end

section
/-! How a machine evolves around an issued operation, and that every step keeps the invariant. -/

namespace Sys2Proof.Machine

/-! ### Evolution of a PE and of the machine -/

/-- What a step may do to a PE, as an issued operation sees it: no entry comes into the TLB, an access stands (and may
have completed) or is new and uses entries of the TLB only, and the PE stays well formed. -/
structure Pe.Evolves (c : Config) (p q : Pe) : Prop where
  wellFormed : p.WellFormed c → q.WellFormed c
  tlb        : ∀ e ∈ q.tlb, e ∈ p.tlb
  accesses   : ∀ a ∈ q.inFlight,
    (∃ b ∈ p.inFlight, a.used = b.used ∧ a.xs = b.xs ∧ (b.complete = true → a.complete = true)) ∨
    ∀ e ∈ a.used, e ∈ p.tlb

theorem Pe.Evolves.refl (c : Config) (p : Pe) : p.Evolves c p :=
  ⟨id, fun _ => id, fun a ha => .inl ⟨a, ha, rfl, rfl, id⟩⟩

/-- What a step may do to the machine, as the operations issued before it see it. -/
structure State.Evolves (s t : State) : Prop where
  cfg : t.cfg = s.cfg
  npe : t.npe = s.npe
  pes : ∀ p q', t.peAt p = some q' → ∃ q, s.peAt p = some q ∧ q.Evolves s.cfg q'

theorem State.Evolves.refl (s : State) : s.Evolves s :=
  ⟨rfl, rfl, fun _ q h => ⟨q, h, .refl _ q⟩⟩

theorem State.Evolves.scope {s t : State} (h : s.Evolves t) (op : Op) : t.scope op = s.scope op := by
  simp [State.scope, h.cfg, h.npe]

theorem State.Evolves.wellFormed {s t : State} (h : s.Evolves t) (hs : ∀ p ∈ s.allPes, p.WellFormed s.cfg) :
    ∀ p ∈ t.allPes, p.WellFormed t.cfg := by
  intro q' hq'
  obtain ⟨p, hp⟩ := (mem_allPes_iff t q').mp hq'
  obtain ⟨q, hq, hqq⟩ := h.pes p q' hp
  exact h.cfg ▸ hqq.wellFormed (hs q (peAt_mem hq))

/-- The PE changed in one place, and the machine with it. -/
theorem modifyPe_evolves {s : State} {p : Nat} {f : Pe → Pe} (h : ∀ q, s.peAt p = some q → q.Evolves s.cfg (f q)) :
    s.Evolves (s.modifyPe p f) := by
  refine ⟨by simp, by simp, fun j q' hj => ?_⟩
  rw [modifyPe_peAt] at hj
  by_cases hpj : p = j
  · subst hpj
    rw [if_pos rfl] at hj
    obtain ⟨q, hq, rfl⟩ := Option.map_eq_some_iff.mp hj
    exact ⟨q, hq, h q hq⟩
  · rw [if_neg hpj] at hj
    exact ⟨q', hj, .refl _ q'⟩

/-! ### What an evolution keeps of an operation -/

theorem Op.WellFormed.of_evolves {s t : State} {op : Op} (h : s.Evolves t) (w : op.WellFormed s) :
    op.WellFormed t where
  issuerExists := h.npe ▸ w.issuerExists
  argumentForms := w.argumentForms
  broadcastEl2 := w.broadcastEl2
  performedOnce := w.performedOnce
  performedIn := h.scope op ▸ w.performedIn

theorem Op.Cleaned.of_evolves {s t : State} {op : Op} (h : s.Evolves t) (hc : op.Cleaned s) : op.Cleaned t := by
  intro x hx
  obtain ⟨hreq, htlb⟩ := hc x hx
  rw [h.cfg]
  refine ⟨hreq, fun q' hq' e he => ?_⟩
  obtain ⟨q, hq, hqq⟩ := h.pes x.pe q' hq'
  exact htlb q hq e (hqq.tlb e he)

/-- A cleaned operation does not wait for an access that uses entries of the TLB only. -/
theorem Op.Cleaned.not_waits {s : State} {op : Op} (hc : op.Cleaned s) {p : Nat} {q : Pe} (hq : s.peAt p = some q)
    {a : Access} (ha : ∀ e ∈ a.used, e ∈ q.tlb) : op.waits p a = false := by
  rw [Bool.eq_false_iff]
  intro hw
  obtain ⟨⟨e, he, x, hx, rfl, hex⟩, -⟩ := waits_iff.mp hw
  obtain ⟨hreq, htlb⟩ := hc x hx
  exact absurd (hreq e hex) (by simp [htlb q hq e (ha e he)])

/-- The condition of 41_tlbi_rvaa_operation R82, once met, stays met: fetches use no removed entry. -/
theorem completable_of_evolves {s t : State} {op : Op} (h : s.Evolves t) (hc : op.Cleaned s)
    (hs : s.completable op = true) : t.completable op = true := by
  rw [completable_iff] at hs ⊢
  intro p hp
  obtain ⟨hperf, hacc⟩ := hs p (h.scope op ▸ hp)
  refine ⟨hperf, fun q' hq' a ha hw => ?_⟩
  obtain ⟨q, hq, hqq⟩ := h.pes p q' hq'
  rcases hqq.accesses a ha with ⟨b, hb, hused, hxs, hbc⟩ | hnew
  · have hwb : op.waits p b = true := by rwa [Op.waits, ← hused, ← hxs]
    exact hbc (hacc q hq b hb hwb)
  · exact absurd hw (by simp [hc.not_waits hq hnew])

/-- All that the invariant says of one operation. -/
structure Op.Good (s : State) (op : Op) : Prop where
  form      : op.WellFormed s
  cleaned   : op.Cleaned s
  completed : op.CompleteIsTrue s

theorem State.Inv.good {s : State} (h : s.Inv) {op : Op} (hop : op ∈ s.ops) : op.Good s :=
  ⟨h.opForms op hop, h.cleaned op hop, h.completed op hop⟩

theorem Op.Good.of_evolves {s t : State} {op : Op} (h : s.Evolves t) (g : op.Good s) : op.Good t :=
  ⟨g.form.of_evolves h, g.cleaned.of_evolves h, fun hc => completable_of_evolves h g.cleaned (g.completed hc)⟩

/-- The invariant after an evolution: only operations that were not there before need an argument. -/
theorem State.Inv.of_evolves {s t : State} (h : s.Evolves t) (hs : s.Inv)
    (hops : ∀ op ∈ t.ops, op ∈ s.ops ∨ op.Good t) : t.Inv := by
  have good : ∀ op ∈ t.ops, op.Good t := fun op hop =>
    (hops op hop).elim (fun hold => (hs.good hold).of_evolves h) id
  exact ⟨h.wellFormed hs.pes, fun op hop => (good op hop).form, fun op hop => (good op hop).cleaned,
    fun op hop => (good op hop).completed⟩

/-- The invariant reads the configuration, the PEs by number and the operations, and nothing else. -/
theorem State.Inv.of_same {s t : State} (hs : s.Inv) (hcfg : t.cfg = s.cfg) (hpes : t.allPes = s.allPes)
    (hops : t.ops = s.ops) : t.Inv := by
  refine hs.of_evolves ⟨hcfg, by simp [State.npe, hpes], fun p q hq => ⟨q, ?_, .refl _ q⟩⟩ (fun op hop => .inl ?_)
  · rwa [State.peAt, ← hpes]
  · rwa [← hops]

/-! ### The moves of the agents -/

/-- A PE stays well formed when its TLB loses entries and its accesses change. -/
theorem Pe.WellFormed.withTlbAndAccesses {c : Config} {p : Pe} (w : p.WellFormed c) {tlb : List TlbEntry}
    (htlb : tlb.Sublist p.tlb) (acc : List Access) : ({ p with tlb := tlb, inFlight := acc } : Pe).WellFormed c where
  memCanonical := w.memCanonical
  tlbNodup := htlb.nodup w.tlbNodup
  tlbEntries := fun e he => w.tlbEntries e (htlb.subset he)
  pcAligned := w.pcAligned
  vbar1Aligned := w.vbar1Aligned
  vbar2Aligned := w.vbar2Aligned
  vbar3Aligned := w.vbar3Aligned
  elLegal := w.elLegal
  inProgram := w.inProgram

/-- A removal takes entries out of a TLB and touches nothing else of the PE. -/
theorem tlbAfter_evolves (c : Config) (op : Op) (drops : List TlbEntry) (q : Pe) :
    q.Evolves c { q with tlb := tlbAfter c op drops q.tlb } where
  wellFormed w := w.withTlbAndAccesses (tlbAfter_sublist c op drops q.tlb) q.inFlight
  tlb _ he := (mem_tlbAfter.mp he).1
  accesses := (Pe.Evolves.refl c q).accesses

/-- An element of a list changed in one place is an old one, or the changed one. -/
theorem mem_modify {α : Type} {l : List α} {k : Nat} {f : α → α} {x : α} (h : x ∈ l.modify k f) :
    x ∈ l ∨ ∃ y, l[k]? = some y ∧ x = f y := by
  obtain ⟨j, hj⟩ := List.mem_iff_getElem?.mp h
  rw [List.getElem?_modify] at hj
  obtain ⟨y, hy, rfl⟩ := Option.map_eq_some_iff.mp hj
  by_cases hkj : k = j
  · exact .inr ⟨y, hkj ▸ hy, by simp [hkj]⟩
  · exact .inl (by simpa [hkj] using List.mem_of_getElem? hy)

theorem complete_evolves (c : Config) (a : Nat) (q : Pe) :
    q.Evolves c { q with inFlight := q.inFlight.modify a (fun x => { x with complete := true }) } where
  wellFormed w := w.withTlbAndAccesses (List.Sublist.refl _) _
  tlb _ := id
  accesses x hx := by
    rcases mem_modify hx with h | ⟨y, hy, rfl⟩
    · exact .inl ⟨x, h, rfl, rfl, id⟩
    · exact .inl ⟨y, List.mem_of_getElem? hy, rfl, rfl, fun _ => rfl⟩

/-- An operation that has just been performed on a PE of its scope, for the first time there, is as the invariant wants
it: nothing it requires is left in that TLB, and it cannot have been complete before. -/
theorem Op.Good.performed {s t : State} {op : Op} {p : Nat} {q : Pe} (h : s.Evolves t) (g : op.Good s)
    (hp : s.peAt p = some q) (hin : op.inScope s.cfg p = true) (hnot : op.performedOn p = false)
    (hclean : ∀ q', t.peAt p = some q' → ∀ e ∈ q'.tlb, op.requires s.cfg e = false) :
    ({ op with performed := op.performed ++ [⟨p, q.tlb.filter (op.requires s.cfg)⟩] } : Op).Good t := by
  have hscope : p ∈ s.scope op := mem_scope.mpr ⟨(peAt_isSome_iff s p).mp ⟨q, hp⟩, hin⟩
  have gt := g.of_evolves h
  refine ⟨⟨gt.form.issuerExists, gt.form.argumentForms, gt.form.broadcastEl2, ?once, ?within⟩, ?cleaned,
    fun hc => ?complete⟩
  case once =>
    have hnew : p ∉ op.performed.map Removal.pe := fun hm =>
      absurd (performedOn_iff.mpr (List.mem_map.mp hm)) (by simp [hnot])
    rw [List.map_append, List.map_singleton]
    exact g.form.performedOnce.append (List.nodup_singleton p) (List.disjoint_singleton.mpr hnew)
  case within =>
    intro x hx
    rcases List.mem_append.mp hx with hx | hx
    · exact gt.form.performedIn x hx
    · obtain rfl := List.mem_singleton.mp hx
      exact h.scope op ▸ hscope
  case cleaned =>
    intro x hx
    rcases List.mem_append.mp hx with hx | hx
    · exact gt.cleaned x hx
    · obtain rfl := List.mem_singleton.mp hx
      rw [requires_performed, h.cfg]
      exact ⟨fun e he => (List.mem_filter.mp he).2, hclean⟩
  case complete =>
    have := ((completable_iff.mp (g.completed hc)) p hscope).1
    simp [hnot] at this

theorem performOp_inv (k p : Nat) (drops : List TlbEntry) {s : State} (hs : s.Inv) : (performOp k p drops s).Inv := by
  rcases performOp_cases k p drops s with h | ⟨op, q, hk, hp, hin, hnot, h⟩
  · rwa [h]
  rw [h]
  have hev : s.Evolves (s.modifyPe p (fun x => { x with tlb := tlbAfter s.cfg op drops x.tlb })) :=
    modifyPe_evolves fun q _ => tlbAfter_evolves s.cfg op drops q
  refine hs.of_evolves ⟨hev.cfg, hev.npe, hev.pes⟩ fun op' hop' => ?_
  rcases mem_modify hop' with hold | ⟨o, ho, rfl⟩
  · exact .inl (by simpa using hold)
  · obtain rfl : op = o := by simpa [hk] using ho
    refine .inr ((hs.good (List.mem_of_getElem? hk)).performed ⟨hev.cfg, hev.npe, hev.pes⟩ hp hin hnot ?_)
    intro q' hq' e he
    obtain rfl : { q with tlb := tlbAfter s.cfg op drops q.tlb } = q' := by simpa [hp] using hq'
    exact (mem_tlbAfter.mp he).2.1

theorem declareOp_inv (k : Nat) {s : State} (hs : s.Inv) : (declareOp k s).Inv := by
  rcases declareOp_cases k s with h | ⟨op, hk, hcomp, h⟩
  · rwa [h]
  rw [h]
  have hev : s.Evolves (s.modifyOp k (fun o => { o with complete := true })) :=
    ⟨rfl, rfl, (State.Evolves.refl s).pes⟩
  refine hs.of_evolves hev fun op' hop' => ?_
  rcases mem_modify hop' with hold | ⟨o, ho, rfl⟩
  · exact .inl hold
  · obtain rfl : op = o := by simpa [hk] using ho
    have g := (hs.good (List.mem_of_getElem? hk)).of_evolves hev
    exact .inr ⟨⟨g.form.issuerExists, g.form.argumentForms, g.form.broadcastEl2, g.form.performedOnce,
      g.form.performedIn⟩, g.cleaned, fun _ => hcomp⟩

theorem finishAccess_inv (p a : Nat) {s : State} (hs : s.Inv) : (finishAccess p a s).Inv :=
  hs.of_evolves (modifyPe_evolves fun q _ => complete_evolves s.cfg a q) fun op hop => .inl (by
    simpa [finishAccess] using hop)

theorem agentMove_inv (m : Move) {s : State} (hs : s.Inv) : (agentMove m s).Inv := by
  cases m with
  | run p f => exact hs
  | perform k p drops => exact performOp_inv k p drops hs
  | declare k => exact declareOp_inv k hs
  | finish p a => exact finishAccess_inv p a hs

/-! ### The move of a PE -/

/-- A recorded fetch keeps the PE well formed. -/
theorem recordFetch_evolves (c : Config) (p : Pe) (f : FetchChoice) : p.Evolves c (p.recordFetch f) where
  wellFormed w := w.withTlbAndAccesses (List.Sublist.refl _) _
  tlb _ := id
  accesses a ha := (mem_recordFetch_inFlight ha).imp_left fun h => ⟨a, h, rfl, rfl, id⟩

/-- A program's end, as a number: no program wraps (10_state R12). -/
theorem programEnd_toNat {base : Word} {n : Nat} (h : base.toNat + 4 * n ≤ 2 ^ 64 - 4) :
    (base + BitVec.ofNat 64 (4 * n)).toNat = base.toNat + 4 * n := by
  rw [BitVec.toNat_add, BitVec.toNat_ofNat]
  omega

/-- A PE that fetched an instruction stays well formed when it retires: it stood at a word of its program, so it comes
to the next word or to the end. -/
theorem Pe.WellFormed.retired {c : Config} {p : Pe} (w : p.WellFormed c) (hexit : p.exited = false)
    (htop : p.pc.toNat ≠ 2 ^ 64 - 4) : ({ p with pc := p.pc + 4 } : Pe).WellFormed c := by
  have hal := w.pcAligned
  have hpc : (p.pc + 4).toNat = p.pc.toNat + 4 := by
    have := p.pc.isLt
    rw [BitVec.toNat_add, show (4 : Word).toNat = 4 from rfl]
    omega
  refine ⟨w.memCanonical, w.tlbNodup, w.tlbEntries, ?aligned, w.vbar1Aligned, w.vbar2Aligned, w.vbar3Aligned,
    w.elLegal, fun g hg => ?program⟩
  case aligned => show (p.pc + 4).toNat % 4 = 0; omega
  case program =>
    obtain ⟨hb, hend, hin⟩ := w.inProgram g hg
    refine ⟨hb, hend, fun hr => ?_⟩
    obtain ⟨hlo, hhi⟩ := hin hr
    have hne : p.pc.toNat ≠ g.base.toNat + 4 * g.words := by
      rw [← programEnd_toNat hend, ne_eq, ← BitVec.toNat_eq, ← exited_iff (p := p) hg, hexit]
      exact Bool.false_ne_true
    show g.base.toNat ≤ (p.pc + 4).toNat ∧ (p.pc + 4).toNat ≤ _
    omega

/-- Every vector is at a multiple of 4 from its base (60_exceptions R94). -/
theorem vector_aligned {vbar : Word} (h : vbar.toNat % 4 = 0) (ps : PState) (l : TargetEl) :
    (vbar + vectorOffset ps l).toNat % 4 = 0 := by
  have hoff : (vectorOffset ps l).toNat % 4 = 0 := by
    unfold vectorOffset
    split_ifs <;> rfl
  rw [BitVec.toNat_add]
  omega

/-- The vector bases of a well-formed PE are multiples of 4. -/
theorem Pe.WellFormed.vbarAligned {c : Config} {p : Pe} (w : p.WellFormed c) (l : TargetEl) :
    (p.bank l).vbar.toNat % 4 = 0 := by
  cases l
  · exact w.vbar1Aligned
  · exact w.vbar2Aligned
  · exact w.vbar3Aligned

/-- Exception entry writes no vector base. -/
theorem takeException_vbar (p : Pe) (r : Raised) (l m : TargetEl) :
    ((p.takeException r l).bank m).vbar = (p.bank m).vbar := by
  rw [takeException_bank]
  split_ifs with h
  · rw [h]
  · rfl

/-- Exception entry to an implemented level keeps a PE well formed. -/
theorem Pe.WellFormed.takeException {c : Config} {p : Pe} (w : p.WellFormed c) (r : Raised) {l : TargetEl}
    (hl : elImplemented c l.toEl = true) : (p.takeException r l).WellFormed c where
  memCanonical := by simpa using w.memCanonical
  tlbNodup := by simpa using w.tlbNodup
  tlbEntries := by simpa using w.tlbEntries
  pcAligned := vector_aligned (w.vbarAligned l) p.pstate l
  vbar1Aligned := (congrArg (fun v : Word => v.toNat % 4) (takeException_vbar p r l .el1)).trans w.vbar1Aligned
  vbar2Aligned := (congrArg (fun v : Word => v.toNat % 4) (takeException_vbar p r l .el2)).trans w.vbar2Aligned
  vbar3Aligned := (congrArg (fun v : Word => v.toNat % 4) (takeException_vbar p r l .el3)).trans w.vbar3Aligned
  elLegal := hl
  inProgram := fun g hg => by
    obtain ⟨hb, hend, -⟩ := w.inProgram g (by simpa using hg)
    exact ⟨hb, hend, by simp⟩

/-- Running a fetched instruction, its fetch in flight, is an evolution of the PE. -/
theorem PeAfterExec.evolves {c : Config} {p q : Pe} {i : Instr} {f : FetchChoice} (hf : fetch p = .instr i)
    (h : PeAfterExec c (p.recordFetch f) q) : p.Evolves c q where
  tlb e he := by rw [h.tlb] at he; exact he
  accesses a ha := (recordFetch_evolves c p f).accesses a (h.inFlight ▸ ha)
  wellFormed w := by
    have w' := (recordFetch_evolves c p f).wellFormed w
    cases h with
    | retired h =>
      obtain ⟨hexit, -, -, htop, -⟩ := fetch_instr hf
      exact h ▸ w'.retired hexit htop
    | excepted r l hl h => exact h ▸ w'.takeException r (hl w'.elLegal)

/-- Running a fetched instruction is an evolution of the machine. -/
theorem exec_evolves {u t : State} {i : Instr} {f : FetchChoice} (hf : fetch u.pe = .instr i)
    (h : exec i (u.withPe (u.pe.recordFetch f)) = .next t) : u.Evolves t := by
  refine ⟨(exec_cfg h).trans (withPe_cfg ..), (exec_npe h).trans (withPe_npe ..), fun p q' hq' => ?_⟩
  rw [exec_peAt h, withPe_peAt, withPe_peId] at hq'
  by_cases hp : p = u.peId
  · rw [if_pos hp, Option.some.injEq] at hq'
    exact ⟨u.pe, hp ▸ peAt_peId u, hq' ▸ (exec_pe h).evolves hf⟩
  · rw [if_neg hp, if_neg hp] at hq'
    exact ⟨q', hq', .refl _ q'⟩

/-- An operation just issued is as the invariant wants it: it was performed nowhere and is not complete. -/
theorem newOp_good {s t : State} {call : TlbiCall} (hc : CallForm s call) (hnpe : t.npe = s.npe) :
    (newOp call s).Good t where
  form := ⟨hnpe ▸ peId_lt_npe s, hc.arguments, hc.broadcast, List.nodup_nil, nofun⟩
  cleaned := nofun
  completed := nofun

theorem exec_inv {u t : State} {i : Instr} {f : FetchChoice} (hu : u.Inv) (hf : fetch u.pe = .instr i)
    (h : exec i (u.withPe (u.pe.recordFetch f)) = .next t) : t.Inv := by
  refine hu.of_evolves (exec_evolves hf h) fun op hop => ?_
  rcases exec_ops h with hops | ⟨call, hops, -, hform⟩
  · exact .inl (hops ▸ hop)
  · rcases List.mem_append.mp (hops ▸ hop) with hold | hnew
    · exact .inl hold
    · obtain rfl := List.mem_singleton.mp hnew
      exact .inr (newOp_good hform (exec_npe h))

theorem step_inv {s t : State} (hs : s.Inv) (h : step s = .next t) : t.Inv := by
  rcases step_cases h with ⟨u, ms, hcfg, hpes, hops, -, rfl | ⟨i, f, hf, hi⟩⟩ | ⟨m, ms, -, -, rfl⟩
  · exact hs.of_same hcfg hpes hops
  · exact exec_inv (hs.of_same hcfg hpes hops) hf hi
  · exact agentMove_inv m (hs.of_same rfl rfl rfl)

end Sys2Proof.Machine

namespace Sys2Proof.Proofs
open Sys2Proof.Machine

/-- Settles O44: the invariant is stable under whatever a step may do around an issued operation
(`State.Inv.of_evolves`), and the operation a step performs, declares or issues is good afterwards. -/
theorem everyStepKeepsTheInvariant : Obligations.EveryStepKeepsTheInvariant := by
  unfold Obligations.EveryStepKeepsTheInvariant
  exact fun s t hs h => step_inv hs h

end Sys2Proof.Proofs
end

section
/-! Placed programs: where their words stand, and that fetch reads them. -/

namespace Sys2Proof.Machine

theorem programBytes_length (ws : List InstrWord) : (programBytes ws).length = 4 * ws.length := by
  induction ws with
  | nil => rfl
  | cons w ws ih =>
    simp only [programBytes, List.length_append, ih, bytesOfWord, List.length_cons, List.length_nil]
    omega

/-- Byte `d` of word `k` is byte `4k + d` of the program. -/
theorem programBytes_getElem? {ws : List InstrWord} {k : Nat} {w : InstrWord} (h : ws[k]? = some w) {d : Nat}
    (hd : d < 4) : (programBytes ws)[4 * k + d]? = (bytesOfWord w)[d]? := by
  induction ws generalizing k with
  | nil => cases h
  | cons v ws ih =>
    cases k with
    | zero =>
      obtain rfl : v = w := by simpa using h
      rw [programBytes, Nat.mul_zero, Nat.zero_add]
      exact List.getElem?_append_left hd
    | succ k =>
      have hlen : (bytesOfWord v).length = 4 := rfl
      rw [programBytes, List.getElem?_append_right (by omega), hlen, show 4 * (k + 1) + d - 4 = 4 * k + d by omega]
      exact ih (by simpa using h)

/-- A word of a written program is read back. -/
theorem readWordBytes_writeProgram (m : Memory) (a : Nat) {ws : List InstrWord} {k : Nat} {w : InstrWord}
    (h : ws[k]? = some w) :
    Memory.readWordBytes (m.writeBytes a (programBytes ws)) (a + 4 * k) = some (bytesOfWord w) := by
  have byte : ∀ d b, d < 4 → (bytesOfWord w)[d]? = some b →
      Memory.read (m.writeBytes a (programBytes ws)) (a + 4 * k + d) = some b := fun d b hd hb => by
    rw [Nat.add_assoc]
    exact read_writeBytes _ m ((programBytes_getElem? h hd).trans hb)
  exact readWordBytes_eq_some (byte 0 _ (by decide) rfl) (byte 1 _ (by decide) rfl) (byte 2 _ (by decide) rfl)
    (byte 3 _ (by decide) rfl)

/-- What placing a program leaves of a PE (70_reset_and_hazards R114 (1)). -/
def Pe.placed (p : Pe) (a : Word) (ws : List InstrWord) : Pe :=
  { p with mem := p.mem.writeBytes a.toNat (programBytes ws)
           pc := a, program := some { base := a, words := ws.length } }

theorem loadProgram_eq_some_iff {a : Word} {ws : List InstrWord} {p q : Pe} :
    loadProgram a ws p = some q ↔
      a.toNat % 4 = 0 ∧ a.toNat + 4 * ws.length ≤ 2 ^ 64 - 4 ∧ q = p.placed a ws := by
  unfold loadProgram
  split_ifs with h
  · simp only [h, true_and, Option.some.injEq, Pe.placed]
    exact eq_comm
  · simp only [false_iff]
    exact fun ⟨h1, h2, _⟩ => h ⟨h1, h2⟩

/-- A placed PE has exited exactly at the program's end (70_reset_and_hazards R114 (2)). -/
theorem placed_exited_iff {a : Word} {ws : List InstrWord} (h : a.toNat + 4 * ws.length ≤ 2 ^ 64 - 4) (p : Pe)
    (x : Word) : ({ p.placed a ws with pc := x } : Pe).exited = true ↔ x.toNat = a.toNat + 4 * ws.length := by
  rw [exited_iff (g := { base := a, words := ws.length }) rfl, BitVec.toNat_eq, programEnd_toNat h]

/-- Fetch at word `k` of a placed program reads that word. -/
theorem fetch_placed {a : Word} {ws : List InstrWord} (hal : a.toNat % 4 = 0)
    (hend : a.toNat + 4 * ws.length ≤ 2 ^ 64 - 4) {p : Pe} (hr : p.raised = []) {k : Nat} {w : InstrWord}
    (h : ws[k]? = some w) :
    fetch { p.placed a ws with pc := a + BitVec.ofNat 64 (4 * k) } = decodeFetched (bytesOfWord w) := by
  have hk : k < ws.length := (List.getElem?_eq_some_iff.mp h).1
  have hpc : (a + BitVec.ofNat 64 (4 * k)).toNat = a.toNat + 4 * k := programEnd_toNat (by omega)
  have hexit : ({ p.placed a ws with pc := a + BitVec.ofNat 64 (4 * k) } : Pe).exited = false := by
    rw [Bool.eq_false_iff, ne_eq, placed_exited_iff hend, hpc]
    omega
  refine fetch_bytes (not_ended hexit hr) ?_ ?_ ?_
  · show (a + BitVec.ofNat 64 (4 * k)).toNat % 4 = 0
    omega
  · show (a + BitVec.ofNat 64 (4 * k)).toNat ≠ 2 ^ 64 - 4
    omega
  · show Memory.readWordBytes _ (a + BitVec.ofNat 64 (4 * k)).toNat = _
    rw [hpc]
    exact readWordBytes_writeProgram p.mem a.toNat h

end Sys2Proof.Machine

namespace Sys2Proof.Proofs
open Sys2Proof.Machine

/-- Settles O6, by reading back the bytes that placing a program wrote. -/
theorem loadedProgramIsFetched : Obligations.LoadedProgramIsFetched := by
  unfold Obligations.LoadedProgramIsFetched
  constructor
  · intro a ws p q hload
    obtain ⟨hal, hend, rfl⟩ := loadProgram_eq_some_iff.mp hload
    refine ⟨rfl, fun k w hw => ⟨readWordBytes_writeProgram p.mem a.toNat hw, fun hr => ?_⟩,
      placed_exited_iff hend p, fun hwf => ?_, rfl, rfl, rfl, rfl, rfl⟩
    · rw [fetch_placed hal hend hr hw]
      exact ⟨fun i hi => decodeFetched_bytesOfWord_ok hi, fun h1 h2 => decodeFetched_other h1 h2⟩
    · exact writeBytes_wf _ _ (by rw [programBytes_length]; omega) hwf
  · intro a ws p h
    rw [Option.eq_none_iff_forall_ne_some]
    intro q hq
    obtain ⟨hal, hend, -⟩ := loadProgram_eq_some_iff.mp hq
    omega

end Sys2Proof.Proofs
end

section
/-! The moves of the agents, PE by PE, and what a step changes of a PE. -/

namespace Sys2Proof.Machine

/-- A removal on a PE of the scope that has not had it yet takes place. -/
theorem performOp_pending {k p : Nat} {drops : List TlbEntry} {s : State} {op : Op} {q : Pe}
    (hk : s.ops[k]? = some op) (hp : s.peAt p = some q) (hscope : p ∈ s.scope op) (hnot : op.performedOn p = false) :
    performOp k p drops s =
      (s.modifyPe p (fun x => { x with tlb := tlbAfter s.cfg op drops x.tlb })).modifyOp k
        (fun o => { o with performed := o.performed ++ [⟨p, q.tlb.filter (op.requires s.cfg)⟩] }) := by
  simp [performOp, hk, hp, (mem_scope.mp hscope).2, hnot]

/-- What no agent's move changes of the machine. -/
structure AgentFrame (s t : State) : Prop where
  cfg      : t.cfg = s.cfg
  peId     : t.peId = s.peId
  npe      : t.npe = s.npe
  ops      : t.ops.length = s.ops.length
  schedule : t.schedule = s.schedule

theorem AgentFrame.refl (s : State) : AgentFrame s s := ⟨rfl, rfl, rfl, rfl, rfl⟩

theorem modifyPe_frame (s : State) (p : Nat) (f : Pe → Pe) : AgentFrame s (s.modifyPe p f) :=
  ⟨by simp, by simp, by simp, by simp, by simp⟩

theorem AgentFrame.modifyOp {s t : State} (h : AgentFrame s t) (k : Nat) (g : Op → Op) :
    AgentFrame s (t.modifyOp k g) :=
  ⟨h.cfg, h.peId, h.npe, (List.length_modify g t.ops k).trans h.ops, h.schedule⟩

theorem agentMove_frame (m : Move) (s : State) : AgentFrame s (agentMove m s) := by
  cases m with
  | run p f => exact .refl s
  | perform k p drops =>
    rcases performOp_cases k p drops s with h | ⟨op, q, -, -, -, -, h⟩
    · rw [agentMove, h]
      exact .refl s
    · rw [agentMove, h]
      exact (modifyPe_frame s p _).modifyOp k _
  | declare k =>
    rcases declareOp_cases k s with h | ⟨op, -, -, h⟩
    · rw [agentMove, h]
      exact .refl s
    · rw [agentMove, h]
      exact (AgentFrame.refl s).modifyOp k _
  | finish p a => exact modifyPe_frame s p _

/-- A removal changes a PE in its TLB at most. -/
theorem performOp_peAt {k p' : Nat} {drops : List TlbEntry} {s : State} {p : Nat} {q : Pe} (h : s.peAt p = some q) :
    ∃ tlb, (performOp k p' drops s).peAt p = some { q with tlb := tlb } := by
  rcases performOp_cases k p' drops s with hp | ⟨op, _, -, -, -, -, hp⟩
  · exact ⟨q.tlb, by rw [hp, h]⟩
  · by_cases hpp : p' = p
    · exact ⟨tlbAfter s.cfg op drops q.tlb, by rw [hp]; simp [hpp, h]⟩
    · exact ⟨q.tlb, by rw [hp]; simp [hpp, h]⟩

/-- A declaration changes no PE. -/
theorem declareOp_peAt (k : Nat) (s : State) (p : Nat) : (declareOp k s).peAt p = s.peAt p := by
  rcases declareOp_cases k s with h | ⟨op, -, -, h⟩ <;> rw [h]
  rfl

/-- The end of an access changes that access at most. -/
theorem finishAccess_peAt (p' a : Nat) {s : State} {p : Nat} {q : Pe} (h : s.peAt p = some q) :
    (finishAccess p' a s).peAt p = some
      (if p' = p then { q with inFlight := q.inFlight.modify a (fun x => { x with complete := true }) } else q) := by
  rw [finishAccess, modifyPe_peAt, h]
  split_ifs <;> rfl

/-- An instruction that raises nothing leaves PSTATE and the exception registers; one that raises adds one record. -/
theorem PeAfterExec.raised_cases {c : Config} {p q : Pe} (h : PeAfterExec c p q) :
    (q.raised = p.raised ∧ q.pstate = p.pstate ∧ q.ex1 = p.ex1 ∧ q.ex2 = p.ex2 ∧ q.ex3 = p.ex3) ∨
    ∃ r, q.raised = r :: p.raised := by
  cases h with
  | retired h => subst h; exact .inl ⟨rfl, rfl, rfl, rfl, rfl⟩
  | excepted r l _ h => subst h; exact .inr ⟨r, rfl⟩

/-- What a PE's history of exceptions says of its PSTATE and exception registers, from `q` to `q'`; `ran` says that the
PE is the one that ran. -/
structure ExceptionsAccount (ran : Prop) (q q' : Pe) : Prop where
  raised : q'.raised = q.raised ∨ (∃ r, q'.raised = r :: q.raised) ∧ ran
  stands : q'.raised = q.raised → q'.pstate = q.pstate ∧ q'.ex1 = q.ex1 ∧ q'.ex2 = q.ex2 ∧ q'.ex3 = q.ex3

theorem ExceptionsAccount.refl (ran : Prop) (q : Pe) : ExceptionsAccount ran q q :=
  ⟨.inl rfl, fun _ => ⟨rfl, rfl, rfl, rfl⟩⟩

theorem PeAfterExec.account {c : Config} {p q : Pe} {f : FetchChoice} (h : PeAfterExec c (p.recordFetch f) q)
    {ran : Prop} (hran : ran) : ExceptionsAccount ran p q := by
  rcases h.raised_cases with ⟨hr, hrest⟩ | ⟨r, hr⟩
  · exact ⟨.inl hr, fun _ => hrest⟩
  · have hr' : q.raised = r :: p.raised := hr
    exact ⟨.inr ⟨⟨r, hr'⟩, hran⟩, fun heq => absurd (hr'.symm.trans heq) (List.cons_ne_self r p.raised)⟩

/-- An agent's move changes of a PE its TLB and its accesses at most. -/
theorem agentMove_peAt (m : Move) {s : State} {p : Nat} {q : Pe} (h : s.peAt p = some q) :
    ∃ tlb acc, (agentMove m s).peAt p = some { q with tlb := tlb, inFlight := acc } := by
  cases m with
  | run p' f => exact ⟨q.tlb, q.inFlight, h⟩
  | perform k p' drops =>
    obtain ⟨tlb, ht⟩ := performOp_peAt (k := k) (p' := p') (drops := drops) h
    exact ⟨tlb, q.inFlight, ht⟩
  | declare k => exact ⟨q.tlb, q.inFlight, (declareOp_peAt k s p).trans h⟩
  | finish p' a =>
    have hf : (agentMove (.finish p' a) s).peAt p = _ := finishAccess_peAt p' a h
    split_ifs at hf
    · exact ⟨q.tlb, _, hf⟩
    · exact ⟨q.tlb, q.inFlight, hf⟩

theorem step_account {s t : State} {p : Nat} {q q' : Pe} (h : step s = .next t) (hq : s.peAt p = some q)
    (hq' : t.peAt p = some q') : ExceptionsAccount (p = t.peId) q q' := by
  rcases step_cases h with ⟨u, -, -, hpes, -, -, rfl | ⟨i, f, -, hi⟩⟩ | ⟨m, ms, -, -, rfl⟩
  · rw [State.peAt, hpes, ← State.peAt, hq] at hq'
    exact Option.some.inj hq' ▸ .refl _ q
  · rw [State.peAt, ← hpes, ← State.peAt] at hq
    rw [exec_peAt hi, withPe_peAt] at hq'
    by_cases hp : p = u.peId
    · obtain rfl : u.pe = q := Option.some.inj ((peAt_peId u).symm.trans (hp ▸ hq))
      obtain rfl : t.pe = q' := by simpa [hp] using hq'
      exact (exec_pe hi).account (hp.trans (exec_peId hi).symm)
    · obtain rfl : q = q' := by simpa [hp, hq] using hq'
      exact .refl _ q
  · obtain ⟨tlb, acc, hm⟩ := agentMove_peAt m (s := s.withSchedule ms) hq
    obtain rfl := Option.some.inj (hm.symm.trans hq')
    exact ⟨.inl rfl, fun _ => ⟨rfl, rfl, rfl, rfl⟩⟩

end Sys2Proof.Machine

namespace Sys2Proof.Proofs
open Sys2Proof.Machine

/-- Settles O49, by the two ways an instruction changes its PE. -/
theorem levelChangesOnlyByException : Obligations.LevelChangesOnlyByException := by
  unfold Obligations.LevelChangesOnlyByException
  intro s t p q q' h hq hq'
  have account := step_account h hq hq'
  exact ⟨account.raised, account.stands⟩

/-- Settles O43, move by move. -/
theorem agentMovesLeaveProgramsAlone : Obligations.AgentMovesLeaveProgramsAlone := by
  unfold Obligations.AgentMovesLeaveProgramsAlone
  intro s m ms hs hm
  obtain ⟨hcfg, hid, hnpe, hops, hsched⟩ := agentMove_frame m (s.withSchedule ms)
  refine ⟨_, step_of_agent hs hm, hcfg, hid, hnpe, hops, hsched, fun p q hq => ?_⟩
  replace hq : (s.withSchedule ms).peAt p = some q := hq
  cases m with
  | run p' f => exact absurd rfl (hm p' f)
  | perform k p' drops =>
    obtain ⟨tlb, ht⟩ := performOp_peAt (k := k) (p' := p') (drops := drops) hq
    exact ⟨_, ht, rfl, fun h => absurd rfl (h k p' drops), fun _ => rfl, nofun⟩
  | declare k =>
    exact ⟨q, (declareOp_peAt k _ p).trans hq, rfl, fun _ => rfl, fun _ => rfl, nofun⟩
  | finish p' a =>
    refine ⟨_, finishAccess_peAt p' a hq, ?_, fun _ => ?_, fun h => absurd rfl (h p' a), ?_⟩
    · split_ifs <;> rfl
    · split_ifs <;> rfl
    · intro _ _ heq
      cases heq
      refine ⟨by simp [agentMove, finishAccess], fun hne => if_neg hne, fun heq x hx => ?_⟩
      obtain ⟨ha, rfl⟩ := List.getElem?_eq_some_iff.mp hx
      rw [if_pos heq, List.modify_eq_set_get _ ha]
      rfl

/-- Settles O8: the first clause runs the scheduled PE with the choice itself, the second performs the removal. -/
theorem fetchesAreAccessesInFlight : Obligations.FetchesAreAccessesInFlight := by
  unfold Obligations.FetchesAreAccessesInFlight
  constructor
  · intro s p q i ms used xs hq hf hused
    have hstep := step_of_run_instr (s := s.withSchedule (.run p ⟨used, xs⟩ :: ms)) rfl hq hf
    have hid : ((s.withSchedule ms).focus p).peId = p := (focus_spec (s := s.withSchedule ms) hq).2
    obtain ⟨t, ht⟩ := exec_next i (((s.withSchedule ms).focus p).withPe (q.recordFetch ⟨used, xs⟩))
    refine ⟨⟨used, xs⟩, t, t.pe, _, hstep.trans ht, ?_, (exec_pe ht).inFlight, fun e => ?_, rfl, rfl⟩
    · rw [exec_peAt ht, withPe_peId, hid, if_pos rfl]
    · simpa using hused e
  · intro s t k p drops ms op op' q a e hs hk hp hscope hnot ha hea heq hreq hattr hstep hop'
    rw [step_of_agent hs (by simp), Host.Outcome.next.injEq] at hstep
    subst hstep
    have hperf : agentMove (.perform k p drops) (s.withSchedule ms) = _ :=
      performOp_pending (s := s.withSchedule ms) hk hp hscope hnot
    rw [hperf] at hop' ⊢
    obtain rfl : { op with performed := op.performed ++ [⟨p, q.tlb.filter (op.requires s.cfg)⟩] } = op' := by
      simpa [hk] using hop'
    refine ⟨{ q with tlb := tlbAfter s.cfg op drops q.tlb }, by simp [hp], ha, fun hmem => ?_, ?_, hattr⟩
    · simp [(mem_tlbAfter.mp hmem).2.1] at hreq
    · exact ⟨e, hea, _, List.mem_append_right _ (List.mem_singleton_self _), rfl, List.mem_filter.mpr ⟨heq, hreq⟩⟩

end Sys2Proof.Proofs
end

section
/-! The gates of the fine-grained trap, the operand, reset and the helper functions. -/

namespace Sys2Proof.Machine

/-! ### The fine-grained trap at EL1 -/

/-- A trap adds one record, so what was raised is not as it was. -/
theorem trap_raised_ne (fields : SysFields) (n : Nat) (s : State) :
    (raiseSystemAccessTrap fields n s).pe.raised ≠ s.pe.raised := List.cons_ne_self _ _

theorem exec_base_el1 {s : State} (n : Nat) (hrange : s.cfg.featTLBIRANGE = true) (hel : s.pe.pstate.el = .el1)
    (hcoarse : ¬coarseTrap s.cfg s.pe = true) :
    exec (.tlbiRvaale1 n) s = .next (if fineTrapBase s.cfg s.pe then raiseSystemAccessTrap rvaale1Fields n s
      else issueEl10 (el1Shareability s.cfg s.pe) (el1BaseAttr s.cfg s.pe) n s) := by
  simp only [exec, execTlbiRvaale1, hrange, hel, hcoarse, Bool.true_eq_false, Bool.false_eq_true, if_false]
  split_ifs <;> rfl

theorem exec_nxs_el1 {s : State} (n : Nat) (hrange : s.cfg.featTLBIRANGE = true) (hxs : s.cfg.featXS = true)
    (hel : s.pe.pstate.el = .el1) (hcoarse : ¬coarseTrap s.cfg s.pe = true) :
    exec (.tlbiRvaale1nxs n) s = .next (if fineTrapNxs s.cfg s.pe then raiseSystemAccessTrap rvaale1nxsFields n s
      else issueEl10 (el1Shareability s.cfg s.pe) .excludeXS n s) := by
  simp only [exec, execTlbiRvaale1nxs, hrange, hxs, hel, hcoarse, Bool.true_eq_false, Bool.false_eq_true, if_false]
  split_ifs <;> rfl

/-- Between a trap and an issue, what was raised changes exactly where the trap's condition holds. -/
theorem raised_ne_iff_trap (c : Bool) (fields : SysFields) (sh : Shareability) (attr : TlbiAttr) (n : Nat) (s : State) :
    (if c then raiseSystemAccessTrap fields n s else issueEl10 sh attr n s).pe.raised ≠ s.pe.raised ↔ c = true := by
  cases c with
  | false => simp [issueEl10_eq]
  | true => simp [trap_raised_ne]

end Sys2Proof.Machine

namespace Sys2Proof.Proofs
open Sys2Proof.Machine

/-- Settles O25, by the conditions of the two fine-grained traps. -/
theorem fineGrainedTrapGates : Obligations.FineGrainedTrapGates := by
  unfold Obligations.FineGrainedTrapGates
  intro s n hrange hxs hel hel2 httlb hfgt htrap
  have hcoarse : ¬coarseTrap s.cfg s.pe = true := by simp [coarseTrap_iff, httlb]
  refine ⟨_, _, exec_base_el1 n hrange hel hcoarse, exec_nxs_el1 n hrange hxs hel hcoarse, ?_, ?_⟩
  · rw [raised_ne_iff_trap, fineTrapBase_iff]
    simp only [hel2, hfgt, htrap, true_and, and_true]
    cases s.cfg.haveEL3 <;> simp
  · rw [raised_ne_iff_trap, fineTrapNxs_iff]
    simp only [hel2, hfgt, htrap, true_and, and_true, not_and_or, Bool.not_eq_true]
    cases s.cfg.haveEL3 <;> simp

/-- Settles O18: the one operation an instruction issues is on its own register. -/
theorem operandIsTheNamedRegister : Obligations.OperandIsTheNamedRegister := by
  unfold Obligations.OperandIsTheNamedRegister
  refine ⟨readX_zr, fun p t => readX_reg p, fun i s t op h hop => ?_⟩
  rcases exec_ops h with hsame | ⟨call, hnew, hxt, -⟩
  · simp [hsame] at hop
  · obtain rfl : newOp call s = op := by simpa [hnew] using hop
    exact hxt

end Sys2Proof.Proofs

namespace Sys2Proof.Machine

/-! ### Reset -/

theorem tlbOfEntries_nodup (l : List TlbEntry) : (tlbOfEntries l).Nodup := List.nodup_dedup _

/-- Of any list of entries the well-formed ones are kept (log 21). -/
theorem mem_tlbOfEntries {l : List TlbEntry} {e : TlbEntry} : e ∈ tlbOfEntries l ↔ e ∈ l ∧ e.wf = true := by
  simp [tlbOfEntries]

theorem reset_allPes : State.reset.allPes = [Pe.reset resetConfig] := rfl

/-- The highest implemented level is implemented. -/
theorem reset_elImplemented (c : Config) : elImplemented c (PState.reset c).el = true := by
  unfold PState.reset
  cases h3 : c.haveEL3 <;> cases h2 : c.haveEL2 <;> simp [elImplemented, h3, h2]

theorem reset_wellFormed (c : Config) : (Pe.reset c).WellFormed c where
  memCanonical := rfl
  tlbNodup := tlbOfEntries_nodup _
  tlbEntries := fun _ he => (mem_tlbOfEntries.mp he).2
  pcAligned := rfl
  vbar1Aligned := rfl
  vbar2Aligned := rfl
  vbar3Aligned := rfl
  elLegal := reset_elImplemented c
  inProgram := nofun

/-- With nothing issued the invariant speaks of the PEs alone. -/
theorem State.Inv.of_no_ops {s : State} (hops : s.ops = []) (hpes : ∀ p ∈ s.allPes, p.WellFormed s.cfg) : s.Inv :=
  ⟨hpes, by simp [hops], by simp [hops], by simp [hops]⟩

end Sys2Proof.Machine

namespace Sys2Proof.Proofs
open Sys2Proof.Machine

/-- Settles O45: the one PE of the reset machine is well formed, and nothing was issued. -/
theorem resetMeetsTheInvariant : Obligations.ResetMeetsTheInvariant :=
  State.Inv.of_no_ops rfl fun p hp => by
    obtain rfl : p = Pe.reset resetConfig := by simpa [reset_allPes] using hp
    exact reset_wellFormed resetConfig

/-- Settles O55, by what the reset values are. -/
theorem resetLeavesNothingPending : Obligations.ResetLeavesNothingPending := by
  unfold Obligations.ResetLeavesNothingPending
  refine ⟨rfl, rfl, rfl, fun p hp => ?_⟩
  obtain rfl : p = Pe.reset resetConfig := by simpa [reset_allPes] using hp
  exact ⟨rfl, rfl, rfl, rfl, tlbOfEntries_nodup _, fun e he hwf => mem_tlbOfEntries.mpr ⟨he, hwf⟩, rfl⟩

end Sys2Proof.Proofs

namespace Sys2Proof.Machine

/-! ### The helper functions -/

section
variable {c : Config} {p : Pe}

theorem selectedSecurity_noEl3 (h3 : c.haveEL3 = false) : selectedSecurity c p = some c.noEl3Security := by
  simp [selectedSecurity, h3]

theorem selectedSecurity_noRme (h3 : c.haveEL3 = true) (hr : c.featRME = false) :
    selectedSecurity c p = some (if p.sys.scrEl3.ns then .nonSecure else .secure) := by
  simp [selectedSecurity, h3, hr]

theorem selectedSecurity_rme (h3 : c.haveEL3 = true) (hr : c.featRME = true)
    (h : p.sys.scrEl3.nse = false ∨ p.sys.scrEl3.ns = true) : selectedSecurity c p =
      some (if p.sys.scrEl3.nse then .realm else if p.sys.scrEl3.ns then .nonSecure else .secure) := by
  cases hnse : p.sys.scrEl3.nse <;> cases hns : p.sys.scrEl3.ns <;> simp_all [selectedSecurity]

theorem selectedSecurity_reserved (h3 : c.haveEL3 = true) (hr : c.featRME = true) (hnse : p.sys.scrEl3.nse = true)
    (hns : p.sys.scrEl3.ns = false) : selectedSecurity c p = none := by
  simp [selectedSecurity, h3, hr, hnse, hns]

/-- Only the reserved combination selects nothing. -/
theorem selectedSecurity_some (h3 : c.haveEL3 = true)
    (h : ¬(c.featRME = true ∧ p.sys.scrEl3.nse = true ∧ p.sys.scrEl3.ns = false)) :
    ∃ ss, selectedSecurity c p = some ss := by
  cases hr : c.featRME with
  | false => exact ⟨_, selectedSecurity_noRme h3 hr⟩
  | true =>
    refine ⟨_, selectedSecurity_rme h3 hr ?_⟩
    simpa [hr, imp_iff_not_or] using h

/-- A selected state is the helper's, and valid when the implementation has it. -/
theorem selectedSecurityValid_of_some {ss : SecurityState} (h : selectedSecurity c p = some ss) :
    selectedSecurityValid c p = (c.haveEL3 = false || implementsSecurity c ss) := by
  simp [selectedSecurityValid, h]

theorem selectedSecurityValid_of_none (h : selectedSecurity c p = none) : selectedSecurityValid c p = false := by
  simp [selectedSecurityValid, h]

section Documented
variable (hdoc : p.helpers = Helpers.documented)
include hdoc

theorem securityStateEl1_documented :
    securityStateEl1 c p = (selectedSecurity c p).getD Config.reservedSecurityState := by
  simp [securityStateEl1, hdoc, Helpers.documented]

theorem securityStateEl2_documented :
    securityStateEl2 c p = (selectedSecurity c p).getD Config.reservedSecurityState := by
  simp [securityStateEl2, hdoc, Helpers.documented]

theorem validSecurityStateEl1_documented : validSecurityStateEl1 c p = selectedSecurityValid c p := by
  simp [validSecurityStateEl1, hdoc, Helpers.documented]

theorem validSecurityStateEl2_documented : validSecurityStateEl2 c p = selectedSecurityValid c p := by
  simp [validSecurityStateEl2, hdoc, Helpers.documented]

theorem el2Enabled_documented_iff : el2Enabled c p = true ↔
    c.haveEL2 = true ∧ (c.haveEL3 = false ∨ p.sys.scrEl3.ns = true ∨ p.sys.scrEl3.eel2 = true) := by
  simp [el2Enabled, hdoc, Helpers.documented, or_assoc]

theorem hcrxEl2Enabled_documented_iff : hcrxEl2Enabled c p = true ↔
    c.featHCX = true ∧ el2Enabled c p = true ∧ (c.haveEL3 = false ∨ p.sys.scrEl3.hxen = true) := by
  simp [hcrxEl2Enabled, hdoc, Helpers.documented, and_assoc]

theorem elIsInHost_documented_iff : elIsInHost c p = true ↔
    el2Enabled c p = true ∧ p.sys.hcrEl2.e2h = true ∧ p.sys.hcrEl2.tge = true := by
  simp [elIsInHost, hdoc, Helpers.documented, and_assoc]

theorem currentVmid_documented : currentVmid c p = if el2Enabled c p then
    if p.sys.vtcrEl2.vs then p.sys.vttbrEl2.vmid else (p.sys.vttbrEl2.vmid.setWidth 8).setWidth 16 else 0 := by
  rw [currentVmid, hdoc]
  rfl

theorem largeBaseAddr_el10_documented_iff :
    largeBaseAddr c p .el10 = true ↔ c.featLPA2 = true ∧ p.sys.tcrEl1.ds = true := by
  simp [largeBaseAddr, hdoc, Helpers.documented]

theorem largeBaseAddr_el20_documented_iff :
    largeBaseAddr c p .el20 = true ↔ c.featLPA2 = true ∧ p.sys.tcrEl2.ds = true := by
  simp [largeBaseAddr, hdoc, Helpers.documented]

end Documented
end

end Sys2Proof.Machine

namespace Sys2Proof.Proofs
open Sys2Proof.Machine

/-- Settles O56, by an equation for each helper: with its answer supplied, and with the documented body. -/
theorem helperFunctions : Obligations.HelperFunctions := by
  unfold Obligations.HelperFunctions
  refine ⟨fun c p => el2Enabled_haveEL2, fun c p b ss v => ?supplied, fun c p hdoc => ?documented⟩
  case supplied =>
    refine ⟨fun h => ?_, fun h => ?_, fun h => ?_, fun h => ?_, fun h => ?_, fun h => ?_, fun h => ?_, fun h => ?_,
      fun h => ?_, fun h => ?_⟩
    · simp [el2Enabled, h]
    · simp [hcrxEl2Enabled, h]
    · simp [elIsInHost, h]
    · simp [securityStateEl1, h]
    · simp [securityStateEl2, h]
    · simp [validSecurityStateEl1, h]
    · simp [validSecurityStateEl2, h]
    · simp [currentVmid, h]
    · simp [largeBaseAddr, h]
    · simp [largeBaseAddr, h]
  case documented =>
    rw [securityStateEl1_documented hdoc, securityStateEl2_documented hdoc, validSecurityStateEl1_documented hdoc,
      validSecurityStateEl2_documented hdoc]
    refine ⟨el2Enabled_documented_iff hdoc, hcrxEl2Enabled_documented_iff hdoc, elIsInHost_documented_iff hdoc, rfl,
      fun h3 hr => ?noRme, fun h3 hr h => ?rme, fun h3 hr hnse hns => ?reserved, fun h3 => ?noEl3, fun h3 h => ?valid,
      fun h2 => ?vmidOff, fun h2 hvs => ?vmidWide, fun h2 hvs => ?vmidNarrow, largeBaseAddr_el10_documented_iff hdoc,
      largeBaseAddr_el20_documented_iff hdoc⟩
    case noRme => rw [selectedSecurity_noRme h3 hr, Option.getD_some]
    case rme => rw [selectedSecurity_rme h3 hr h, Option.getD_some]
    case reserved =>
      have hinvalid := selectedSecurityValid_of_none (selectedSecurity_reserved h3 hr hnse hns)
      exact ⟨hinvalid, hinvalid⟩
    case noEl3 =>
      have hvalid : selectedSecurityValid c p = true := by
        simp [selectedSecurityValid_of_some (selectedSecurity_noEl3 h3), h3]
      exact ⟨by rw [selectedSecurity_noEl3 h3, Option.getD_some], hvalid, hvalid⟩
    case valid =>
      obtain ⟨ss, hss⟩ := selectedSecurity_some h3 h
      refine ⟨rfl, ?_⟩
      rw [selectedSecurityValid_of_some hss, hss, Option.getD_some, h3]
      cases ss <;> rfl
    case vmidOff => simp [currentVmid_documented hdoc, h2]
    case vmidWide => simp [currentVmid_documented hdoc, h2, hvs]
    case vmidNarrow =>
      rw [currentVmid_documented hdoc, if_pos h2, hvs, if_neg Bool.false_ne_true, BitVec.toNat_setWidth,
        BitVec.toNat_setWidth]
      omega

end Sys2Proof.Proofs
end

section
/-! What holds along a run, and the promise that the complete mark stands for. -/

namespace Sys2Proof.Machine

/-- A run of `n + 1` steps is a step and a run of `n` from where it leads. -/
theorem run_succ {M : Host.Core} {n : Nat} {s t : M.State} (h : M.run (n + 1) s = .next t) :
    ∃ u, M.step s = .next u ∧ M.run n u = .next t := by
  rw [Host.Core.run] at h
  cases hu : M.step s with
  | next u => exact ⟨u, rfl, by rwa [hu] at h⟩
  | fault r => rw [hu] at h; cases h
  | refused r => rw [hu] at h; cases h

/-- What every step keeps, every run keeps. -/
theorem run_keeps {M : Host.Core} {P : M.State → Prop} (hstep : ∀ s t, P s → M.step s = .next t → P t) (n : Nat)
    {s t : M.State} (hs : P s) (h : M.run n s = .next t) : P t := by
  induction n generalizing s with
  | zero => exact Host.Outcome.next.inj h ▸ hs
  | succ n ih =>
    obtain ⟨u, hu, hrun⟩ := run_succ h
    exact ih (hstep s u hs hu) hrun

theorem run_inv (n : Nat) {s t : State} (hs : s.Inv) (h : Sys2Proof.core.run n s = .next t) : t.Inv :=
  run_keeps (M := Sys2Proof.core) (P := State.Inv) (fun _ _ => step_inv) n hs h

/-- The accesses the statements speak of are those that completion waits for (41_tlbi_rvaa_operation R82). -/
theorem waits_iff_opWaitsFor {op : Op} {p : Nat} {a : Access} : op.waits p a = true ↔ OpWaitsFor op p a := waits_iff

/-- Where a cleaned operation was performed, no entry it requires is in the TLB. -/
theorem Op.Cleaned.not_required {s : State} {op : Op} (hc : op.Cleaned s) {p : Nat} {q : Pe}
    (hp : op.performedOn p = true) (hq : s.peAt p = some q) : ∀ e ∈ q.tlb, op.requires s.cfg e = false := by
  obtain ⟨x, hx, rfl⟩ := performedOn_iff.mp hp
  exact (hc x hx).2 q hq

/-- A good operation that is marked complete was performed on every PE of its scope, left no required entry there, and
waits for nothing there (20_memory R42). -/
theorem Op.Good.promise {s : State} {op : Op} (g : op.Good s) (hc : op.complete = true) {p : Nat} {q : Pe}
    (hp : p ∈ s.scope op) (hq : s.peAt p = some q) :
    (∀ e ∈ q.tlb, op.requires s.cfg e = false) ∧ ∀ a ∈ q.inFlight, OpWaitsFor op p a → a.complete = true := by
  obtain ⟨hperf, hacc⟩ := completable_iff.mp (g.completed hc) p hp
  exact ⟨g.cleaned.not_required hperf hq, fun a ha hw => hacc q hq a ha (waits_iff_opWaitsFor.mpr hw)⟩

end Sys2Proof.Machine

namespace Sys2Proof.Proofs
open Sys2Proof.Machine

/-- Settles O46: the invariant holds along the run, and it gives the condition of completion and the cleaned TLBs. -/
theorem completeOperationsKeepTheirPromise : Obligations.CompleteOperationsKeepTheirPromise := by
  unfold Obligations.CompleteOperationsKeepTheirPromise
  intro n s t op hs hrun hop hcomplete p hp
  obtain ⟨q, hq⟩ := (peAt_isSome_iff t p).mpr (mem_scope.mp hp).1
  have good : op.Good t := (run_inv n hs hrun).good hop
  exact ⟨q, hq, good.promise hcomplete hp hq⟩

end Sys2Proof.Proofs
end

section
/-! Which words and which bytes the decoder takes, as equivalences, and that decode and encode agree. -/

namespace Sys2Proof
open Sys2Proof.Machine

/-! ### The word of a System instruction as a number -/

/-- The places of the fields in the word (30_encoding R47). -/
theorem sysWord_toNat (f : SysFields) (rt : BitVec 5) :
    (sysWord f rt).toNat = 0b1101010100 * 2 ^ 22 + f.op0.toNat * 2 ^ 19 + f.op1.toNat * 2 ^ 16 +
      f.crn.toNat * 2 ^ 12 + f.crm.toNat * 2 ^ 8 + f.op2.toNat * 2 ^ 5 + rt.toNat := by
  simp only [sysWord, toNat_append_eq, BitVec.toNat_ofNat]
  omega

/-- The mask clears `Rt` and nothing else (30_encoding R47). -/
theorem and_sysMask (w : InstrWord) : w &&& sysMask = w.extractLsb' 5 27 ++ 0#5 := by
  have hsplit : w.extractLsb' 5 27 ++ w.extractLsb' 0 5 = w :=
    (BitVec.extractLsb'_append_extractLsb'_eq_extractLsb' (show 5 = 0 + 5 from rfl)).trans BitVec.extractLsb'_eq_self
  have hmask : sysMask = BitVec.allOnes 27 ++ 0#5 := by decide
  calc w &&& sysMask
      = (w.extractLsb' 5 27 ++ w.extractLsb' 0 5) &&& (BitVec.allOnes 27 ++ 0#5) := by rw [hsplit, hmask]
    _ = w.extractLsb' 5 27 ++ 0#5 := by rw [BitVec.and_append, BitVec.and_allOnes, BitVec.and_zero]

theorem and_sysMask_toNat (w : InstrWord) : (w &&& sysMask).toNat = w.toNat / 32 * 32 := by
  have hlt := w.isLt
  simp only [and_sysMask, toNat_append_eq, BitVec.extractLsb'_toNat, BitVec.toNat_ofNat, Nat.shiftRight_eq_div_pow]
  omega

/-- A word has a row's fixed bits and the number `n` in `Rt` exactly when it is the row's word with `n` there. -/
theorem fixed_and_rt_iff {w : InstrWord} {f : SysFields} {n : Nat} :
    (w &&& sysMask = sysWord f 0#5 ∧ n = w.toNat % 32) ↔ (n < 32 ∧ w = sysWord f (BitVec.ofNat 5 n)) := by
  simp only [← BitVec.toNat_inj, and_sysMask_toNat, sysWord_toNat, BitVec.toNat_ofNat]
  omega

/-! ### Decoding a word -/

/-- The fixed bits of the rows of 30_encoding R46, as words. -/
theorem sysWord_rvaale1Fields : sysWord rvaale1Fields 0#5 = 0xD50886E0#32 := by decide

theorem sysWord_rvaale1nxsFields : sysWord rvaale1nxsFields 0#5 = 0xD50896E0#32 := by decide

theorem decodeWord_rvaale1 {w : InstrWord} (h : w &&& sysMask = sysWord rvaale1Fields 0#5) :
    decodeWord w = .ok (.tlbiRvaale1 (w.toNat % 32)) := by
  simp [decodeWord, decodeTable, h]

theorem decodeWord_rvaale1nxs {w : InstrWord} (h : w &&& sysMask = sysWord rvaale1nxsFields 0#5) :
    decodeWord w = .ok (.tlbiRvaale1nxs (w.toNat % 32)) := by
  simp [decodeWord, decodeTable, h, sysWord_rvaale1Fields, sysWord_rvaale1nxsFields]

/-- A word is an instruction exactly when it has the fixed bits of the instruction's row, and its register number. -/
theorem decodeWord_ok_iff {w : InstrWord} {i : Instr} :
    decodeWord w = .ok i ↔ w &&& sysMask = sysWord i.fields 0#5 ∧ i.operandReg = w.toNat % 32 := by
  constructor
  · intro h
    by_cases h1 : w &&& sysMask = sysWord rvaale1Fields 0#5
    · rw [decodeWord_rvaale1 h1] at h
      obtain rfl := Except.ok.inj h
      exact ⟨h1, rfl⟩
    by_cases h2 : w &&& sysMask = sysWord rvaale1nxsFields 0#5
    · rw [decodeWord_rvaale1nxs h2] at h
      obtain rfl := Except.ok.inj h
      exact ⟨h2, rfl⟩
    · rw [decodeWord_other (sysWord_rvaale1Fields ▸ h1) (sysWord_rvaale1nxsFields ▸ h2)] at h
      cases h
  · rintro ⟨hfixed, hreg⟩
    cases i with
    | tlbiRvaale1 t => exact (decodeWord_rvaale1 hfixed).trans (hreg ▸ rfl)
    | tlbiRvaale1nxs t => exact (decodeWord_rvaale1nxs hfixed).trans (hreg ▸ rfl)

/-- The words that decode are the words of the well-formed instructions. -/
theorem decodeWord_ok_iff_encode {w : InstrWord} {i : Instr} :
    decodeWord w = .ok i ↔ i.wellFormed = true ∧ w = encode i := by
  rw [decodeWord_ok_iff, fixed_and_rt_iff, wellFormed_iff, encode]

/-! ### Decoding bytes -/

/-- Bytes put together and taken apart again (20_memory R32). -/
theorem bytesOfWord_wordOfBytes (b0 b1 b2 b3 : Byte) : bytesOfWord (wordOfBytes b0 b1 b2 b3) = [b0, b1, b2, b3] := by
  have hnum : (wordOfBytes b0 b1 b2 b3).toNat =
      b3.toNat * 2 ^ 24 + b2.toNat * 2 ^ 16 + b1.toNat * 2 ^ 8 + b0.toNat := by
    simp only [wordOfBytes, toNat_append_eq]
    omega
  have h0 := b0.isLt
  have h1 := b1.isLt
  have h2 := b2.isLt
  have h3 := b3.isLt
  simp only [bytesOfWord, List.cons.injEq, ← BitVec.toNat_inj, BitVec.extractLsb'_toNat, hnum,
    Nat.shiftRight_eq_div_pow, and_true]
  omega

theorem decode_bytesOfWord_append (w : InstrWord) (rest : List Byte) :
    decode (bytesOfWord w ++ rest) = (decodeWord w).map (·, rest) := by
  simp only [bytesOfWord, List.cons_append, List.nil_append, decode, wordOfBytes_bytesOfWord]
  cases decodeWord w <;> rfl

/-- The decoder reads one word and hands back what stands behind it. -/
theorem decode_ok_iff {bs rest : List Byte} {i : Instr} :
    decode bs = .ok (i, rest) ↔ ∃ w, decodeWord w = .ok i ∧ bs = bytesOfWord w ++ rest := by
  constructor
  · intro h
    match bs with
    | b0 :: b1 :: b2 :: b3 :: tail =>
      change decode ([b0, b1, b2, b3] ++ tail) = _ at h
      rw [← bytesOfWord_wordOfBytes, decode_bytesOfWord_append] at h
      cases hw : decodeWord (wordOfBytes b0 b1 b2 b3) with
      | error r => rw [hw] at h; cases h
      | ok j =>
        rw [hw] at h
        cases h
        exact ⟨_, hw, by rw [bytesOfWord_wordOfBytes]; rfl⟩
    | [] | [_] | [_, _] | [_, _, _] => cases h
  · rintro ⟨w, hw, rfl⟩
    rw [decode_bytesOfWord_append, hw]
    rfl

/-- The bytes that decode are those of a well-formed instruction, with the rest behind them. -/
theorem decode_ok_iff_encodeBytes {bs rest : List Byte} {i : Instr} :
    decode bs = .ok (i, rest) ↔ i.wellFormed = true ∧ bs = encodeBytes i ++ rest := by
  simp only [decode_ok_iff, decodeWord_ok_iff_encode, encodeBytes, and_assoc, exists_and_left, exists_eq_left]

/-! ### The fields of an instruction's word -/

/-- Each field of the word stands in its place (30_encoding R47). -/
theorem sysWord_fields (f : SysFields) (rt : BitVec 5) :
    (sysWord f rt).extractLsb' 22 10 = 0b1101010100#10 ∧ (sysWord f rt).extractLsb' 21 1 = 0#1 ∧
    (sysWord f rt).extractLsb' 19 2 = f.op0 ∧ (sysWord f rt).extractLsb' 16 3 = f.op1 ∧
    (sysWord f rt).extractLsb' 12 4 = f.crn ∧ (sysWord f rt).extractLsb' 8 4 = f.crm ∧
    (sysWord f rt).extractLsb' 5 3 = f.op2 ∧ (sysWord f rt).extractLsb' 0 5 = rt := by
  have hop0 := f.op0.isLt
  have hop1 := f.op1.isLt
  have hcrn := f.crn.isLt
  have hcrm := f.crm.isLt
  have hop2 := f.op2.isLt
  have hrt := rt.isLt
  simp only [← BitVec.toNat_inj, BitVec.extractLsb'_toNat, sysWord_toNat, Nat.shiftRight_eq_div_pow,
    BitVec.toNat_ofNat]
  omega

end Sys2Proof

namespace Sys2Proof.Proofs
open Sys2Proof.Machine

/-- Settles O2: the bytes that decode are those of a well-formed instruction. -/
theorem decodeAndEncodeAgree : Obligations.DecodeAndEncodeAgree := by
  unfold Obligations.DecodeAndEncodeAgree
  exact ⟨fun i rest hwf => decode_ok_iff_encodeBytes.mpr ⟨hwf, rfl⟩,
    fun bs i rest h => decode_ok_iff_encodeBytes.mp h⟩

/-- Settles O3, by the equivalence for each row, the refusal of other words and the places of the fields. -/
theorem wordsDecodeByMaskAndMatch : Obligations.WordsDecodeByMaskAndMatch := by
  unfold Obligations.WordsDecodeByMaskAndMatch
  refine ⟨fun w t => ?base, fun w t => ?nxs, fun w => decodeWord_other, fun i hwf => ?fields⟩
  case base => rw [← sysWord_rvaale1Fields]; exact decodeWord_ok_iff
  case nxs => rw [← sysWord_rvaale1nxsFields]; exact decodeWord_ok_iff
  case fields =>
    obtain ⟨hhead, hl, hop0, hop1, hcrn, hcrm, hop2, hrt⟩ := sysWord_fields i.fields (BitVec.ofNat 5 i.operandReg)
    have hreg : ((encode i).extractLsb' 0 5).toNat = i.operandReg := by
      rw [encode, hrt, BitVec.toNat_ofNat, Nat.mod_eq_of_lt ((wellFormed_iff i).mp hwf)]
    cases i with
    | tlbiRvaale1 t => exact ⟨hhead, hl, hop0, hop1, hcrn, hcrm, hop2, hreg⟩
    | tlbiRvaale1nxs t => exact ⟨hhead, hl, hop0, hop1, hcrn, hcrm, hop2, hreg⟩

/-- Settles O1, by running the decoder on the seven words. -/
theorem specWordsDecode : Obligations.SpecWordsDecode := by
  unfold Obligations.SpecWordsDecode
  exact ⟨rfl, rfl, rfl, rfl, rfl, rfl, rfl⟩

end Sys2Proof.Proofs
end

section
/-! The operand: its fields as numbers, taken apart and assembled, and that an operation reads nothing else of it. -/

namespace Sys2Proof.Machine

/-- The fields are the bits 30_encoding R56 names. -/
theorem decodeOperand_toNat (xt : Word) :
    (decodeOperand xt).tg.toNat = xt.toNat / 2 ^ 46 % 4 ∧ (decodeOperand xt).scale.toNat = xt.toNat / 2 ^ 44 % 4 ∧
    (decodeOperand xt).num.toNat = xt.toNat / 2 ^ 39 % 32 ∧ (decodeOperand xt).ttl.toNat = xt.toNat / 2 ^ 37 % 4 ∧
    (decodeOperand xt).base.toNat = xt.toNat % 2 ^ 37 := by
  simp only [decodeOperand, BitVec.extractLsb'_toNat, Nat.shiftRight_eq_div_pow, pow_zero, Nat.div_one, and_self]

theorem encodeOperand_toNat (o : Operand) :
    (encodeOperand o).toNat = o.tg.toNat * 2 ^ 46 + o.scale.toNat * 2 ^ 44 + o.num.toNat * 2 ^ 39 +
      o.ttl.toNat * 2 ^ 37 + o.base.toNat := by
  simp only [encodeOperand, toNat_append_eq, BitVec.toNat_ofNat]
  omega

/-- Operands are told apart by their fields as numbers. -/
theorem operand_eq_of_toNat {o o' : Operand} (htg : o.tg.toNat = o'.tg.toNat) (hscale : o.scale.toNat = o'.scale.toNat)
    (hnum : o.num.toNat = o'.num.toNat) (httl : o.ttl.toNat = o'.ttl.toNat) (hbase : o.base.toNat = o'.base.toNat) :
    o = o' := by
  cases o
  cases o'
  simp only [Operand.mk.injEq, ← BitVec.toNat_inj]
  exact ⟨htg, hscale, hnum, httl, hbase⟩

theorem decodeOperand_encodeOperand (o : Operand) : decodeOperand (encodeOperand o) = o := by
  obtain ⟨htg, hscale, hnum, httl, hbase⟩ := decodeOperand_toNat (encodeOperand o)
  rw [encodeOperand_toNat] at htg hscale hnum httl hbase
  have h1 := o.tg.isLt
  have h2 := o.scale.isLt
  have h3 := o.num.isLt
  have h4 := o.ttl.isLt
  have h5 := o.base.isLt
  apply operand_eq_of_toNat <;> omega

/-- Assembling the fields clears bits [63:48] (30_encoding R50). -/
theorem encodeOperand_decodeOperand_toNat (xt : Word) :
    (encodeOperand (decodeOperand xt)).toNat = xt.toNat % 2 ^ 48 := by
  obtain ⟨htg, hscale, hnum, httl, hbase⟩ := decodeOperand_toNat xt
  rw [encodeOperand_toNat, htg, hscale, hnum, httl, hbase]
  omega

/-- Operands that agree below bit 48 have the same fields: they assemble to the same word. -/
theorem decodeOperand_congr {xt xt' : Word} (h : xt.toNat % 2 ^ 48 = xt'.toNat % 2 ^ 48) :
    decodeOperand xt = decodeOperand xt' := by
  have hword : encodeOperand (decodeOperand xt) = encodeOperand (decodeOperand xt') := by
    apply BitVec.eq_of_toNat_eq
    rw [encodeOperand_decodeOperand_toNat, encodeOperand_decodeOperand_toNat, h]
  rw [← decodeOperand_encodeOperand (decodeOperand xt), hword, decodeOperand_encodeOperand]

/-- The request depends on the operand's fields only. -/
theorem requestOf_congr (c : Config) (large : Bool) {xt xt' : Word} (h : decodeOperand xt = decodeOperand xt') :
    requestOf c large xt = requestOf c large xt' := by
  simp only [requestOf, h]

/-- What is required depends on the request, and on what the operation's other arguments say. -/
theorem requires_withXt_congr (c : Config) (op : Op) {xt xt' : Word} (e : TlbEntry)
    (h : requestOf c op.large xt = requestOf c op.large xt') :
    ({ op with call := { op.call with xt := xt } } : Op).requires c e =
      ({ op with call := { op.call with xt := xt' } } : Op).requires c e := by
  simp only [Op.requires, Op.request, contextMatches, h]

end Sys2Proof.Machine

namespace Sys2Proof.Proofs
open Sys2Proof.Machine

/-- Settles O28, by the fields and the assembled operand as numbers. -/
theorem operandFieldsRoundTrip : Obligations.OperandFieldsRoundTrip := by
  unfold Obligations.OperandFieldsRoundTrip
  exact ⟨decodeOperand_toNat, encodeOperand_decodeOperand_toNat, decodeOperand_encodeOperand, encodeOperand_toNat,
    by decide, by decide⟩

/-- Settles O29: operands that agree below bit 48 have the same fields, so they make the same request. -/
theorem res0BitsHaveNoEffect : Obligations.Res0BitsHaveNoEffect := by
  unfold Obligations.Res0BitsHaveNoEffect
  intro c op xt xt' e h
  exact requires_withXt_congr c op e (requestOf_congr c op.large (decodeOperand_congr h))

end Sys2Proof.Proofs
end

section
/-! What each encoding answers, level by level: one equation for both, their differences in four tables. -/

namespace Sys2Proof.Machine

/-! ### Where the two encodings differ -/

/-- The features an encoding needs (40_tlbi_rvaale1 R60). -/
def encodingPresent (c : Config) : Instr → Bool
  | .tlbiRvaale1 _ => c.featTLBIRANGE
  | .tlbiRvaale1nxs _ => c.featTLBIRANGE && c.featXS

/-- The fine-grained trap of an encoding (10_state R16 to R18). -/
def fineTrap (c : Config) (p : Pe) : Instr → Bool
  | .tlbiRvaale1 _ => fineTrapBase c p
  | .tlbiRvaale1nxs _ => fineTrapNxs c p

/-- Which accesses the operation of an encoding waits for at EL1 (40_tlbi_rvaale1 R61, R62). -/
def el1Attr (c : Config) (p : Pe) : Instr → TlbiAttr
  | .tlbiRvaale1 _ => el1BaseAttr c p
  | .tlbiRvaale1nxs _ => .excludeXS

/-- Which accesses the operation of an encoding waits for at EL2 and EL3 (40_tlbi_rvaale1 R61, R62). -/
def ownAttr : Instr → TlbiAttr
  | .tlbiRvaale1 _ => .allAttr
  | .tlbiRvaale1nxs _ => .excludeXS

theorem encodingPresent_base {c : Config} (hrange : c.featTLBIRANGE = true) (n : Nat) :
    encodingPresent c (.tlbiRvaale1 n) = true := hrange

theorem encodingPresent_nxs {c : Config} (hrange : c.featTLBIRANGE = true) (hxs : c.featXS = true) (n : Nat) :
    encodingPresent c (.tlbiRvaale1nxs n) = true := by simp [encodingPresent, hrange, hxs]

/-! ### The answer at each level -/

section
variable {i : Instr} {s : State}

theorem exec_absent (h : encodingPresent s.cfg i = false) : exec i s = .next (raiseUndefined s) := by
  cases i with
  | tlbiRvaale1 n => exact if_pos h
  | tlbiRvaale1nxs n =>
    rw [exec, execTlbiRvaale1nxs]
    rcases Bool.and_eq_false_iff.mp h with hrange | hxs
    · rw [if_pos hrange]
    · rw [if_pos hxs, ite_self]

/-- An encoding that is present passes the tests of its features, and its arm of the level answers. -/
theorem exec_present (h : encodingPresent s.cfg i = true) :
    exec i s = match s.pe.pstate.el with
      | .el0 => .next (raiseUndefined s)
      | .el1 =>
        if coarseTrap s.cfg s.pe then .next (raiseSystemAccessTrap i.fields i.operandReg s)
        else if fineTrap s.cfg s.pe i then .next (raiseSystemAccessTrap i.fields i.operandReg s)
        else .next (issueEl10 (el1Shareability s.cfg s.pe) (el1Attr s.cfg s.pe i) i.operandReg s)
      | .el2 => .next (atEl2 (ownAttr i) i.operandReg s)
      | .el3 => .next (atEl3 (ownAttr i) i.operandReg s) := by
  cases i with
  | tlbiRvaale1 n => exact if_neg (ne_false_of_eq_true h)
  | tlbiRvaale1nxs n =>
    obtain ⟨hrange, hxs⟩ := (Bool.and_eq_true _ _).mp h
    exact (if_neg (ne_false_of_eq_true hrange)).trans (if_neg (ne_false_of_eq_true hxs))

theorem exec_el0 (hel : s.pe.pstate.el = .el0) : exec i s = .next (raiseUndefined s) := by
  cases h : encodingPresent s.cfg i with
  | false => exact exec_absent h
  | true => rw [exec_present h, hel]

theorem exec_el1_trapped (h : encodingPresent s.cfg i = true) (hel : s.pe.pstate.el = .el1)
    (htrap : coarseTrap s.cfg s.pe = true ∨ fineTrap s.cfg s.pe i = true) :
    exec i s = .next (raiseSystemAccessTrap i.fields i.operandReg s) := by
  rw [exec_present h, hel]
  rcases htrap with hcoarse | hfine
  · exact if_pos hcoarse
  · simp only [hfine, if_true, ite_self]

theorem exec_el1_issues (h : encodingPresent s.cfg i = true) (hel : s.pe.pstate.el = .el1)
    (hcoarse : ¬coarseTrap s.cfg s.pe = true) (hfine : ¬fineTrap s.cfg s.pe i = true) :
    exec i s = .next (issueEl10 (el1Shareability s.cfg s.pe) (el1Attr s.cfg s.pe i) i.operandReg s) := by
  rw [exec_present h, hel]
  exact (if_neg hcoarse).trans (if_neg hfine)

theorem exec_el2 (h : encodingPresent s.cfg i = true) (hel : s.pe.pstate.el = .el2) :
    exec i s = .next (atEl2 (ownAttr i) i.operandReg s) := by
  rw [exec_present h, hel]

theorem exec_el3 (h : encodingPresent s.cfg i = true) (hel : s.pe.pstate.el = .el3) :
    exec i s = .next (atEl3 (ownAttr i) i.operandReg s) := by
  rw [exec_present h, hel]

end

/-! ### The two arms that turn on host mode -/

section
variable {attr : TlbiAttr} {n : Nat} {s : State}

theorem atEl2_host (hhost : elIsInHost s.cfg s.pe = true) : atEl2 attr n s = issueEl20 attr n s := if_pos hhost

theorem atEl2_guest (hhost : elIsInHost s.cfg s.pe = false) : atEl2 attr n s = issueEl10 .nsh attr n s :=
  if_neg (Bool.eq_false_iff.mp hhost)

/-- The Security state is no obstacle: FEAT_RME is not there, or the state is valid. -/
theorem not_invalid {rme valid : Bool} (h : rme = false ∨ valid = true) : ¬(rme && !valid) = true := by
  rcases h with rfl | rfl <;> simp

theorem atEl3_host (hhost : elIsInHost s.cfg s.pe = true)
    (hvalid : s.cfg.featRME = false ∨ validSecurityStateEl2 s.cfg s.pe = true) :
    atEl3 attr n s = issueEl20 attr n s :=
  (if_pos hhost).trans (if_neg (not_invalid hvalid))

theorem atEl3_guest (hhost : elIsInHost s.cfg s.pe = false)
    (hvalid : s.cfg.featRME = false ∨ validSecurityStateEl1 s.cfg s.pe = true) :
    atEl3 attr n s = issueEl10 .nsh attr n s :=
  (if_neg (Bool.eq_false_iff.mp hhost)).trans (if_neg (not_invalid hvalid))

theorem atEl3_invalid (hrme : s.cfg.featRME = true)
    (hinvalid : (if elIsInHost s.cfg s.pe then validSecurityStateEl2 s.cfg s.pe
      else validSecurityStateEl1 s.cfg s.pe) = false) : atEl3 attr n s = retire s := by
  unfold atEl3
  split at hinvalid <;> simp [*]

end

/-! ### The issued operation in the words of the statements -/

theorem operandOf_eq_readX (s : State) (n : Nat) : operandOf s n = readX s.pe n := by
  unfold operandOf
  split
  · rw [readX_reg]
  · rw [readX_above]; assumption

theorem issueEl10_afterIssue (sh : Shareability) (attr : TlbiAttr) (n : Nat) (s : State) :
    issueEl10 sh attr n s = afterIssue s
      { ss := securityStateEl1 s.cfg s.pe, regime := .el10, vmid := some (currentVmid s.cfg s.pe), sh := sh
        level := .last, attr := attr, xt := operandOf s n } := by
  rw [operandOf_eq_readX]; rfl

theorem issueEl20_afterIssue (attr : TlbiAttr) (n : Nat) (s : State) :
    issueEl20 attr n s = afterIssue s
      { ss := securityStateEl2 s.cfg s.pe, regime := .el20, vmid := none, sh := .nsh
        level := .last, attr := attr, xt := operandOf s n } := by
  rw [operandOf_eq_readX]; rfl

theorem el1Shareability_eq (c : Config) (p : Pe) : el1Shareability c p =
    if el2Enabled c p = true ∧ p.sys.hcrEl2.fb = true then .ish else .nsh := by
  simp [el1Shareability]

theorem el1BaseAttr_eq (c : Config) (p : Pe) : el1BaseAttr c p =
    if c.featXS = true ∧ c.featHCX = true ∧ hcrxEl2Enabled c p = true ∧ p.sys.hcrxEl2.fnxs = true
    then .excludeXS else .allAttr := by
  simp [el1BaseAttr, and_assoc]

end Sys2Proof.Machine

namespace Sys2Proof.Proofs
open Sys2Proof.Machine

/-- Settles O14: every arm of both encodings answers a next state. -/
theorem execNeverStops : Obligations.ExecNeverStops := by
  unfold Obligations.ExecNeverStops
  exact exec_next

/-- Settles O9: neither trap's condition holds, so the arm of EL1 issues. -/
theorem baseEncodingIssuesAtEl1 : Obligations.BaseEncodingIssuesAtEl1 := by
  unfold Obligations.BaseEncodingIssuesAtEl1
  intro s n hrange hel hcoarse hfine
  rw [← coarseTrap_iff] at hcoarse
  rw [← fineTrapBase_iff] at hfine
  rw [exec_el1_issues (encodingPresent_base hrange n) hel hcoarse hfine, issueEl10_afterIssue, el1Shareability_eq]
  simp only [el1Attr, el1BaseAttr_eq, Instr.operandReg]

/-- Settles O10: neither trap's condition holds, so the arm of EL1 issues. -/
theorem nxsEncodingIssuesAtEl1 : Obligations.NxsEncodingIssuesAtEl1 := by
  unfold Obligations.NxsEncodingIssuesAtEl1
  intro s n hrange hxs hel hcoarse hfine
  rw [← coarseTrap_iff] at hcoarse
  rw [← fineTrapNxs_iff] at hfine
  rw [exec_el1_issues (encodingPresent_nxs hrange hxs n) hel hcoarse hfine, issueEl10_afterIssue, el1Shareability_eq]
  rfl

/-- Settles O11: the arm of EL2 issues by host mode. -/
theorem bothEncodingsIssueAtEl2 : Obligations.BothEncodingsIssueAtEl2 := by
  unfold Obligations.BothEncodingsIssueAtEl2
  intro s n hrange hel
  refine ⟨fun hhost => ⟨?_, fun hxs => ?_⟩, fun hhost => ⟨?_, fun hxs => ?_⟩⟩
  · rw [exec_el2 (encodingPresent_base hrange n) hel, atEl2_host hhost, issueEl20_afterIssue]; rfl
  · rw [exec_el2 (encodingPresent_nxs hrange hxs n) hel, atEl2_host hhost, issueEl20_afterIssue]; rfl
  · rw [exec_el2 (encodingPresent_base hrange n) hel, atEl2_guest hhost, issueEl10_afterIssue]; rfl
  · rw [exec_el2 (encodingPresent_nxs hrange hxs n) hel, atEl2_guest hhost, issueEl10_afterIssue]; rfl

/-- Settles O12: the arm of EL3 issues by host mode, where the Security state is no obstacle. -/
theorem bothEncodingsIssueAtEl3 : Obligations.BothEncodingsIssueAtEl3 := by
  unfold Obligations.BothEncodingsIssueAtEl3
  intro s n hrange hel
  refine ⟨fun hhost hvalid => ⟨?_, fun hxs => ?_⟩, fun hhost hvalid => ⟨?_, fun hxs => ?_⟩⟩
  · rw [exec_el3 (encodingPresent_base hrange n) hel, atEl3_host hhost hvalid, issueEl20_afterIssue]; rfl
  · rw [exec_el3 (encodingPresent_nxs hrange hxs n) hel, atEl3_host hhost hvalid, issueEl20_afterIssue]; rfl
  · rw [exec_el3 (encodingPresent_base hrange n) hel, atEl3_guest hhost hvalid, issueEl10_afterIssue]; rfl
  · rw [exec_el3 (encodingPresent_nxs hrange hxs n) hel, atEl3_guest hhost hvalid, issueEl10_afterIssue]; rfl

/-- Settles O13: the arm of EL3 retires where the Security state is an obstacle. -/
theorem invalidSecurityStateAtEl3DoesNothing : Obligations.InvalidSecurityStateAtEl3DoesNothing := by
  unfold Obligations.InvalidSecurityStateAtEl3DoesNothing
  intro s n hrange hrme hel hinvalid
  refine ⟨?_, fun hxs => ?_⟩
  · rw [exec_el3 (encodingPresent_base hrange n) hel, atEl3_invalid hrme hinvalid]; rfl
  · rw [exec_el3 (encodingPresent_nxs hrange hxs n) hel, atEl3_invalid hrme hinvalid]; rfl

end Sys2Proof.Proofs
end

section
/-! What an instruction leaves unchanged, and what of its answer the operand's value decides. -/

namespace Sys2Proof.Machine

/-- An instruction takes an exception and issues nothing, or it retires. -/
theorem exec_excepts_or_retires {i : Instr} {s t : State} (h : exec i s = .next t) :
    (∃ r l, t = s.withPe (s.pe.takeException r l)) ∨
    ∃ u : State, t = retire u ∧ u.pe = s.pe ∧ u.cfg = s.cfg ∧ u.before = s.before ∧ u.after = s.after ∧
      u.schedule = s.schedule ∧ (u.ops = s.ops ∨ ∃ op, u.ops = s.ops ++ [op]) := by
  cases exec_ending h with
  | undefined h => exact .inl ⟨_, _, h⟩
  | trap _ _ h => exact .inl ⟨_, _, h⟩
  | nothing _ h => exact .inr ⟨s, h, rfl, rfl, rfl, rfl, rfl, .inl rfl⟩
  | issue10 sh attr _ h => exact .inr ⟨_, h, rfl, rfl, rfl, rfl, rfl, .inr ⟨_, rfl⟩⟩
  | issue20 attr h => exact .inr ⟨_, h, rfl, rfl, rfl, rfl, rfl, .inr ⟨_, rfl⟩⟩

/-- The offsets into the vectors that exist (60_exceptions R94). -/
theorem vectorOffset_cases (ps : PState) (l : TargetEl) :
    vectorOffset ps l = 0x400 ∨ vectorOffset ps l = 0x200 ∨ vectorOffset ps l = 0x000 := by
  unfold vectorOffset
  split_ifs <;> simp

theorem takeException_bank_other (p : Pe) (r : Raised) {l m : TargetEl} (h : m.toEl ≠ l.toEl) :
    (p.takeException r l).bank m = p.bank m := by
  rw [takeException_bank, if_neg fun heq => h (congrArg TargetEl.toEl heq)]

/-- Entry saves nothing into a stack pointer, not even its own level's. -/
theorem takeException_bank_sp (p : Pe) (r : Raised) (l m : TargetEl) :
    ((p.takeException r l).bank m).sp = (p.bank m).sp := by
  rw [takeException_bank]
  split_ifs with h
  · rw [h]
  · rfl

/-! ### Every general register replaced -/

/-- The PE with other general registers. -/
def Pe.withRegs (p : Pe) (regs : Vector Word 31) : Pe := { p with regs := regs }

/-- The machine with other general registers in its running PE. -/
def State.withRegs (s : State) (regs : Vector Word 31) : State := s.withPe (s.pe.withRegs regs)

/-- The record of an operation without its operand. -/
def Op.withoutOperand (op : Op) : Op := { op with call := { op.call with xt := 0 } }

/-- Two answers that tell apart nothing but the general registers and the operands of the issued operations. -/
structure AgreeButOperand (regs : Vector Word 31) (t u : State) : Prop where
  pe  : u.pe = t.pe.withRegs regs
  ops : u.ops.map Op.withoutOperand = t.ops.map Op.withoutOperand

theorem takeException_withRegs (p : Pe) (regs : Vector Word 31) (r : Raised) (l : TargetEl) :
    (p.withRegs regs).takeException r l = (p.takeException r l).withRegs regs := by
  cases l <;> rfl

section
variable (regs : Vector Word 31) (attr : TlbiAttr) (n : Nat) (s : State)

theorem raiseUndefined_agree : AgreeButOperand regs (raiseUndefined s) (raiseUndefined (s.withRegs regs)) :=
  ⟨takeException_withRegs .., rfl⟩

theorem raiseSystemAccessTrap_agree (fields : SysFields) : AgreeButOperand regs (raiseSystemAccessTrap fields n s)
    (raiseSystemAccessTrap fields n (s.withRegs regs)) :=
  ⟨takeException_withRegs .., rfl⟩

theorem retire_agree : AgreeButOperand regs (retire s) (retire (s.withRegs regs)) := ⟨rfl, rfl⟩

theorem issueEl10_agree (sh : Shareability) :
    AgreeButOperand regs (issueEl10 sh attr n s) (issueEl10 sh attr n (s.withRegs regs)) :=
  ⟨rfl, by simp only [issueEl10_eq, retire_ops, tlbiRvaa_ops, List.map_append]; rfl⟩

theorem issueEl20_agree : AgreeButOperand regs (issueEl20 attr n s) (issueEl20 attr n (s.withRegs regs)) :=
  ⟨rfl, by simp only [issueEl20_eq, retire_ops, tlbiRvaa_ops, List.map_append]; rfl⟩

theorem AgreeButOperand.ite {regs : Vector Word 31} {c : Prop} [Decidable c] {t t' u u' : State}
    (h : AgreeButOperand regs t u) (h' : AgreeButOperand regs t' u') :
    AgreeButOperand regs (if c then t else t') (if c then u else u') := by
  split_ifs
  · exact h
  · exact h'

theorem atEl2_agree : AgreeButOperand regs (atEl2 attr n s) (atEl2 attr n (s.withRegs regs)) :=
  .ite (issueEl20_agree ..) (issueEl10_agree ..)

theorem atEl3_agree : AgreeButOperand regs (atEl3 attr n s) (atEl3 attr n (s.withRegs regs)) :=
  .ite (.ite (retire_agree ..) (issueEl20_agree ..)) (.ite (retire_agree ..) (issueEl10_agree ..))

end

/-- No test of either encoding reads a general register, so both runs take the same arm. -/
theorem exec_agree (i : Instr) (s : State) (regs : Vector Word 31) :
    ∃ t u, exec i s = .next t ∧ exec i (s.withRegs regs) = .next u ∧ AgreeButOperand regs t u := by
  cases h : encodingPresent s.cfg i with
  | false => exact ⟨_, _, exec_absent h, exec_absent h, raiseUndefined_agree ..⟩
  | true =>
    cases hel : s.pe.pstate.el with
    | el0 => exact ⟨_, _, exec_el0 hel, exec_el0 hel, raiseUndefined_agree ..⟩
    | el1 =>
      by_cases htrap : coarseTrap s.cfg s.pe = true ∨ fineTrap s.cfg s.pe i = true
      · exact ⟨_, _, exec_el1_trapped h hel htrap, exec_el1_trapped h hel htrap, raiseSystemAccessTrap_agree ..⟩
      · obtain ⟨hcoarse, hfine⟩ := not_or.mp htrap
        exact ⟨_, _, exec_el1_issues h hel hcoarse hfine, exec_el1_issues h hel hcoarse hfine, issueEl10_agree ..⟩
    | el2 => exact ⟨_, _, exec_el2 h hel, exec_el2 h hel, atEl2_agree ..⟩
    | el3 => exact ⟨_, _, exec_el3 h hel, exec_el3 h hel, atEl3_agree ..⟩

end Sys2Proof.Machine

namespace Sys2Proof.Proofs
open Sys2Proof.Machine

/-- Settles O15: an exception writes the bank of its level and issues nothing, a retired instruction moves `pc` only. -/
theorem instructionsLeaveTheRestUnchanged : Obligations.InstructionsLeaveTheRestUnchanged := by
  unfold Obligations.InstructionsLeaveTheRestUnchanged
  intro i s t h
  rcases exec_excepts_or_retires h with ⟨r, l, rfl⟩ | ⟨u, rfl, hpe, hcfg, hbefore, hafter, hsched, hops⟩
  · exact ⟨takeException_regs .., takeException_sys .., takeException_helpers .., takeException_spEl0 ..,
      fun m => ⟨takeException_bank_sp .., takeException_vbar ..⟩, fun a => by rw [withPe_pe, takeException_mem],
      takeException_mem .., takeException_program .., takeException_tlb .., takeException_inFlight ..,
      rfl, rfl, rfl, rfl, .inl rfl, fun hr => absurd hr (List.cons_ne_self _ _),
      fun _ => ⟨rfl, fun m => takeException_bank_other _ _⟩⟩
  · have hpc : (retire u).pe = { s.pe with pc := s.pe.pc + 4 } := by rw [retire_pe, hpe]
    rw [hpc]
    exact ⟨rfl, rfl, rfl, rfl, fun m => by rw [withPc_bank]; exact ⟨rfl, rfl⟩, fun _ => rfl, rfl, rfl, rfl, rfl,
      hcfg, hbefore, hafter, hsched, hops, fun _ => ⟨rfl, withPc_bank _ _⟩, fun hr => absurd rfl hr⟩

/-- Settles O16: a retired instruction adds 4, an exception goes to an offset from its level's vector base. -/
theorem pcAdvancesOrGoesToTheVector : Obligations.PcAdvancesOrGoesToTheVector := by
  unfold Obligations.PcAdvancesOrGoesToTheVector
  intro i s t h
  rcases exec_excepts_or_retires h with ⟨r, l, rfl⟩ | ⟨u, rfl, hpe, -⟩
  · refine .inr ⟨r, l, takeException_raised .., rfl, ?_⟩
    simp only [withPe_pe, takeException_pc]
    rcases vectorOffset_cases s.pe.pstate l with hv | hv | hv <;> simp [hv]
  · exact .inl (by simp [hpe])

/-- Settles O27: with the registers replaced the same arm answers, and it reads the operand into the operation only. -/
theorem exceptionsDoNotReadTheOperand : Obligations.ExceptionsDoNotReadTheOperand := by
  unfold Obligations.ExceptionsDoNotReadTheOperand
  intro i s t regs ht
  obtain ⟨t', u, ht', hu, hpe, hops⟩ := exec_agree i s regs
  obtain rfl : t' = t := Host.Outcome.next.inj (ht'.symm.trans ht)
  exact ⟨u, hu, hpe, by simpa using congrArg List.length hops, hops⟩

end Sys2Proof.Proofs
end

section
/-! The two encodings side by side: what makes each trap, and the one operation each can issue. -/

namespace Sys2Proof.Machine

/-! ### The arm that answers -/

/-- The arm an encoding answers from, with the tests that led there. -/
inductive Arm (i : Instr) (s : State) : State → Prop where
  | undefined : Arm i s (raiseUndefined s)
  | trap (hpresent : encodingPresent s.cfg i = true) (hel : s.pe.pstate.el = .el1)
      (htrap : coarseTrap s.cfg s.pe = true ∨ fineTrap s.cfg s.pe i = true) :
      Arm i s (raiseSystemAccessTrap i.fields i.operandReg s)
  | el1 (hel : s.pe.pstate.el = .el1) (hcoarse : ¬coarseTrap s.cfg s.pe = true)
      (hfine : ¬fineTrap s.cfg s.pe i = true) :
      Arm i s (issueEl10 (el1Shareability s.cfg s.pe) (el1Attr s.cfg s.pe i) i.operandReg s)
  | el2 (hel : s.pe.pstate.el = .el2) : Arm i s (atEl2 (ownAttr i) i.operandReg s)
  | el3 (hel : s.pe.pstate.el = .el3) : Arm i s (atEl3 (ownAttr i) i.operandReg s)

theorem exec_arm {i : Instr} {s t : State} (h : exec i s = .next t) : Arm i s t := by
  suffices ∃ u, exec i s = .next u ∧ Arm i s u by
    obtain ⟨u, hu, harm⟩ := this
    exact Host.Outcome.next.inj (hu.symm.trans h) ▸ harm
  cases hp : encodingPresent s.cfg i with
  | false => exact ⟨_, exec_absent hp, .undefined⟩
  | true =>
    cases hel : s.pe.pstate.el with
    | el0 => exact ⟨_, exec_el0 hel, .undefined⟩
    | el1 =>
      by_cases htrap : coarseTrap s.cfg s.pe = true ∨ fineTrap s.cfg s.pe i = true
      · exact ⟨_, exec_el1_trapped hp hel htrap, .trap hp hel htrap⟩
      · obtain ⟨hcoarse, hfine⟩ := not_or.mp htrap
        exact ⟨_, exec_el1_issues hp hel hcoarse hfine, .el1 hel hcoarse hfine⟩
    | el2 => exact ⟨_, exec_el2 hp hel, .el2 hel⟩
    | el3 => exact ⟨_, exec_el3 hp hel, .el3 hel⟩

/-! ### What an arm raises -/

theorem atEl2_raised (attr : TlbiAttr) (n : Nat) (s : State) : (atEl2 attr n s).pe.raised = s.pe.raised := by
  unfold atEl2
  split_ifs <;> rfl

theorem atEl3_raised (attr : TlbiAttr) (n : Nat) (s : State) : (atEl3 attr n s).pe.raised = s.pe.raised := by
  unfold atEl3
  split_ifs <;> rfl

/-- A trap is taken only at EL1, by an encoding that is present, on one of its two conditions. -/
theorem exec_trapped {i : Instr} {s t : State} {ec : BitVec 6} {iss : BitVec 25} (h : exec i s = .next t)
    (hr : t.pe.raised = .trapEl2 ec iss :: s.pe.raised) :
    encodingPresent s.cfg i = true ∧ s.pe.pstate.el = .el1 ∧
      (coarseTrap s.cfg s.pe = true ∨ fineTrap s.cfg s.pe i = true) := by
  cases exec_arm h with
  | undefined => cases hr
  | trap hpresent hel htrap => exact ⟨hpresent, hel, htrap⟩
  | el1 => exact absurd hr.symm (List.cons_ne_self _ _)
  | el2 => exact absurd (hr.symm.trans (atEl2_raised ..)) (List.cons_ne_self _ _)
  | el3 => exact absurd (hr.symm.trans (atEl3_raised ..)) (List.cons_ne_self _ _)

/-- At EL1 an encoding that raises nothing meets neither trap's condition. -/
theorem exec_el1_silent {i : Instr} {s t : State} (h : exec i s = .next t) (hel : s.pe.pstate.el = .el1)
    (hr : t.pe.raised = s.pe.raised) : ¬coarseTrap s.cfg s.pe = true ∧ ¬fineTrap s.cfg s.pe i = true := by
  cases exec_arm h with
  | undefined => exact absurd hr (List.cons_ne_self _ _)
  | trap => exact absurd hr (trap_raised_ne _ _ s)
  | el1 _ hcoarse hfine => exact ⟨hcoarse, hfine⟩
  | el2 hel' => exact absurd (hel.symm.trans hel') nofun
  | el3 hel' => exact absurd (hel.symm.trans hel') nofun

/-- The nXS encoding's fine-grained trap is the base encoding's with further gates (10_state R18). -/
theorem fineTrapBase_of_nxs {c : Config} {p : Pe} (h : fineTrapNxs c p = true) : fineTrapBase c p = true := by
  obtain ⟨hel2, hfgt, hgate, -, -, hbit⟩ := fineTrapNxs_iff.mp h
  exact fineTrapBase_iff.mpr ⟨hel2, hfgt, hgate, hbit⟩

/-! ### What an arm issues -/

/-- Which accesses the operation that an encoding can issue here waits for. -/
def attrHere (s : State) (i : Instr) : TlbiAttr :=
  if s.pe.pstate.el = .el1 then el1Attr s.cfg s.pe i else ownAttr i

/-- The call of the operation an encoding can issue here, which the encoding enters by `attr` only. -/
def callHere (s : State) (attr : TlbiAttr) (n : Nat) : TlbiCall :=
  if s.pe.pstate.el = .el1 then el10Call s (el1Shareability s.cfg s.pe) attr n
  else if elIsInHost s.cfg s.pe then el20Call s attr n
  else el10Call s .nsh attr n

theorem attrHere_nxs (s : State) (n : Nat) : attrHere s (.tlbiRvaale1nxs n) = .excludeXS := ite_self _

theorem attrHere_base_own {s : State} (n : Nat) (hel : s.pe.pstate.el = .el2 ∨ s.pe.pstate.el = .el3) :
    attrHere s (.tlbiRvaale1 n) = .allAttr :=
  if_neg fun h => by simp [h] at hel

theorem callHere_attr (s : State) (attr : TlbiAttr) (n : Nat) : (callHere s attr n).attr = attr := by
  unfold callHere
  split_ifs <;> rfl

theorem callHere_withAttr (s : State) (attr attr' : TlbiAttr) (n : Nat) :
    { callHere s attr n with attr := attr' } = callHere s attr' n := by
  unfold callHere
  split_ifs <;> rfl

theorem atEl2_ops {attr : TlbiAttr} {n : Nat} {s : State} (hel : s.pe.pstate.el ≠ .el1) :
    (atEl2 attr n s).ops = s.ops ++ [newOp (callHere s attr n) s] := by
  rw [callHere, if_neg hel]
  unfold atEl2
  split_ifs <;> rfl

theorem atEl3_ops {attr : TlbiAttr} {n : Nat} {s : State} (hel : s.pe.pstate.el ≠ .el1) :
    (atEl3 attr n s).ops = s.ops ∨ (atEl3 attr n s).ops = s.ops ++ [newOp (callHere s attr n) s] := by
  rw [callHere, if_neg hel]
  unfold atEl3
  split_ifs
  · exact .inl rfl
  · exact .inr rfl
  · exact .inl rfl
  · exact .inr rfl

/-- An instruction issues nothing, or the one operation of its level. -/
theorem exec_ops_here {i : Instr} {s t : State} (h : exec i s = .next t) :
    t.ops = s.ops ∨ t.ops = s.ops ++ [newOp (callHere s (attrHere s i) i.operandReg) s] := by
  cases exec_arm h with
  | undefined => exact .inl rfl
  | trap => exact .inl rfl
  | el1 hel => rw [callHere, attrHere, if_pos hel, if_pos hel]; exact .inr rfl
  | el2 hel =>
    have hne : s.pe.pstate.el ≠ .el1 := by simp [hel]
    rw [attrHere, if_neg hne]
    exact .inr (atEl2_ops hne)
  | el3 hel =>
    have hne : s.pe.pstate.el ≠ .el1 := by simp [hel]
    rw [attrHere, if_neg hne]
    exact atEl3_ops hne

theorem exec_issued_eq {i : Instr} {s t : State} {op : Op} (h : exec i s = .next t) (hop : t.ops = s.ops ++ [op]) :
    op = newOp (callHere s (attrHere s i) i.operandReg) s := by
  rcases exec_ops_here h with hsame | hnew
  · simp [hsame] at hop
  · simpa [hnew] using hop.symm

/-- The same call but for `attr` makes the same operation but for `attr`. -/
theorem newOp_callHere_withAttr (s : State) (attr attr' : TlbiAttr) (n : Nat) :
    newOp (callHere s attr' n) s =
      { newOp (callHere s attr n) s with call := { (newOp (callHere s attr n) s).call with attr := attr' } } := by
  rw [← callHere_withAttr s attr attr' n]; rfl

end Sys2Proof.Machine

namespace Sys2Proof.Proofs
open Sys2Proof.Machine

/-- Settles O17: the encoding enters the operation by `attr` only, and the trap by its fine-grained condition. -/
theorem encodingsDifferOnlyInTheAttribute : Obligations.EncodingsDifferOnlyInTheAttribute := by
  unfold Obligations.EncodingsDifferOnlyInTheAttribute
  intro n s a b ha hb
  refine ⟨fun x y hx hy => ?issued, fun _ iss hr => ?nxsTrap, fun iss hr hsilent => ?baseTrapOnly⟩
  case issued =>
    have hx := exec_issued_eq ha hx
    have hy := exec_issued_eq hb hy
    rw [attrHere_nxs] at hy
    subst hx hy
    refine ⟨newOp_callHere_withAttr .., fun hel hxs hhcx hhcrx hfnxs => ?_, fun hel => ?_⟩
    · have : attrHere s (.tlbiRvaale1 n) = .excludeXS := by
        simp [attrHere, el1Attr, el1BaseAttr_eq, hel, hxs, hhcx, hhcrx, hfnxs]
      rw [this]; rfl
    · rw [newOp_call, callHere_attr, attrHere_base_own n hel]
  case nxsTrap =>
    obtain ⟨hpresent, hel, htrap⟩ := exec_trapped hb hr
    have hbase : encodingPresent s.cfg (.tlbiRvaale1 n) = true := ((Bool.and_eq_true _ _).mp hpresent).1
    have ha' := exec_el1_trapped hbase hel (htrap.imp_right fineTrapBase_of_nxs)
    obtain rfl := Host.Outcome.next.inj (ha.symm.trans ha')
    exact ⟨_, rfl⟩
  case baseTrapOnly =>
    obtain ⟨-, hel, htrap⟩ := exec_trapped ha hr
    obtain ⟨hcoarse, hfine⟩ := exec_el1_silent hb hel hsilent
    obtain ⟨hel2, hfgt, hgate, hbit⟩ := fineTrapBase_iff.mp (htrap.resolve_left hcoarse)
    have hexempt : ¬(s.cfg.featHCX = true ∧
        (hcrxEl2Enabled s.cfg s.pe = false ∨ s.pe.sys.hcrxEl2.fgtnxs = false)) :=
      fun ⟨hhcx, hoff⟩ => hfine (fineTrapNxs_iff.mpr ⟨hel2, hfgt, hgate, hhcx, hoff, hbit⟩)
    refine ⟨Bool.eq_false_iff.mpr fun httlb => hcoarse (coarseTrap_iff.mpr ⟨hel2, httlb⟩), hbit, ?_⟩
    simpa only [not_and_or, not_or, Bool.not_eq_true, Bool.not_eq_false] using hexempt

end Sys2Proof.Proofs
end

section
/-! What no step does: bring in a TLB entry, write a register that is not an exception's, change an issued operation. -/

namespace Sys2Proof.Machine

/-! ### A PE from one step to the next -/

/-- What every step keeps of a PE: no entry comes into its TLB, and what no instruction writes stands. -/
structure Pe.Keeps (q q' : Pe) : Prop where
  tlb     : ∀ e ∈ q'.tlb, e ∈ q.tlb
  regs    : q'.regs = q.regs
  sys     : q'.sys = q.sys
  helpers : q'.helpers = q.helpers
  mem     : q'.mem = q.mem
  program : q'.program = q.program
  spEl0   : q'.spEl0 = q.spEl0

theorem Pe.Keeps.refl (q : Pe) : q.Keeps q := ⟨fun _ => id, rfl, rfl, rfl, rfl, rfl, rfl⟩

/-- The end of a fetched instruction, seen from the PE before its fetch was in flight. -/
theorem PeAfterExec.keeps {c : Config} {p q : Pe} {f : FetchChoice} (h : PeAfterExec c (p.recordFetch f) q) :
    p.Keeps q := by
  cases h with
  | retired h => subst h; exact ⟨fun _ => id, rfl, rfl, rfl, rfl, rfl, rfl⟩
  | excepted r l _ h =>
    subst h
    exact ⟨fun e he => by rwa [takeException_tlb] at he, takeException_regs .., takeException_sys ..,
      takeException_helpers .., takeException_mem .., takeException_program .., takeException_spEl0 ..⟩

theorem performOp_keeps (k p' : Nat) (drops : List TlbEntry) {s : State} {p : Nat} {q : Pe} (h : s.peAt p = some q) :
    ∃ q', (performOp k p' drops s).peAt p = some q' ∧ q.Keeps q' := by
  rcases performOp_cases k p' drops s with hp | ⟨op, _, -, -, -, -, hp⟩
  · exact ⟨q, by rw [hp, h], .refl q⟩
  · rw [hp, modifyOp_peAt, modifyPe_peAt, h]
    split_ifs
    · exact ⟨_, rfl, fun e he => (mem_tlbAfter.mp he).1, rfl, rfl, rfl, rfl, rfl, rfl⟩
    · exact ⟨q, rfl, .refl q⟩

theorem agentMove_keeps (m : Move) {s : State} {p : Nat} {q : Pe} (h : s.peAt p = some q) :
    ∃ q', (agentMove m s).peAt p = some q' ∧ q.Keeps q' := by
  cases m with
  | run p' f => exact ⟨q, h, .refl q⟩
  | perform k p' drops => exact performOp_keeps k p' drops h
  | declare k => exact ⟨q, (declareOp_peAt k s p).trans h, .refl q⟩
  | finish p' a =>
    refine ⟨_, finishAccess_peAt p' a h, ?_⟩
    split_ifs
    · exact ⟨fun _ => id, rfl, rfl, rfl, rfl, rfl, rfl⟩
    · exact .refl q

theorem peAt_congr {s u : State} (h : u.allPes = s.allPes) (p : Nat) : u.peAt p = s.peAt p := by
  rw [State.peAt, h, State.peAt]

theorem step_keeps {s t : State} {p : Nat} {q : Pe} (h : step s = .next t) (hq : s.peAt p = some q) :
    ∃ q', t.peAt p = some q' ∧ q.Keeps q' := by
  rcases step_cases h with ⟨u, -, -, hpes, -, -, rfl | ⟨i, f, -, hi⟩⟩ | ⟨m, ms, -, -, rfl⟩
  · exact ⟨q, (peAt_congr hpes p).trans hq, .refl q⟩
  · rw [← peAt_congr hpes] at hq
    rw [exec_peAt hi, withPe_peAt, withPe_peId]
    split_ifs with hp
    · obtain rfl : u.pe = q := Option.some.inj ((peAt_peId u).symm.trans (hp ▸ hq))
      exact ⟨t.pe, rfl, (exec_pe hi).keeps⟩
    · exact ⟨q, hq, .refl q⟩
  · exact agentMove_keeps m (s := s.withSchedule ms) hq

theorem step_cfg_npe {s t : State} (h : step s = .next t) : t.cfg = s.cfg ∧ t.npe = s.npe := by
  rcases step_cases h with ⟨u, ms, hcfg, hpes, -, -, rfl | ⟨i, f, -, hi⟩⟩ | ⟨m, ms, -, -, rfl⟩
  · exact ⟨hcfg, congrArg List.length hpes⟩
  · exact ⟨(exec_cfg hi).trans hcfg, ((exec_npe hi).trans (withPe_npe ..)).trans (congrArg List.length hpes)⟩
  · exact ⟨(agentMove_frame m _).cfg, (agentMove_frame m _).npe⟩

/-! ### An issued operation from one step to the next -/

/-- What can become of an issued operation: removals are added and the mark is set, the rest stands. -/
structure Op.Grows (op op' : Op) : Prop where
  call      : op'.call = op.call
  issuer    : op'.issuer = op.issuer
  el2en     : op'.el2en = op.el2en
  large     : op'.large = op.large
  performed : op.performed <+: op'.performed
  complete  : op.complete = true → op'.complete = true

theorem Op.Grows.refl (op : Op) : op.Grows op := ⟨rfl, rfl, rfl, rfl, List.prefix_rfl, id⟩

/-- Every operation of the first list has grown into the one of its number in the second. -/
def OpsGrow (l l' : List Op) : Prop :=
  ∀ (k : Nat) (op : Op), l[k]? = some op → ∃ op' : Op, l'[k]? = some op' ∧ op.Grows op'

theorem OpsGrow.refl (l : List Op) : OpsGrow l l := fun _ op h => ⟨op, h, .refl op⟩

theorem OpsGrow.append (l l' : List Op) : OpsGrow l (l ++ l') := fun _ op h =>
  ⟨op, (List.getElem?_append_left (List.getElem?_eq_some_iff.mp h).1).trans h, .refl op⟩

theorem OpsGrow.modify {f : Op → Op} (hf : ∀ op : Op, op.Grows (f op)) (k : Nat) (l : List Op) :
    OpsGrow l (l.modify k f) := by
  intro j op hj
  refine ⟨if k = j then f op else op, by rw [List.getElem?_modify, hj]; rfl, ?_⟩
  split_ifs
  · exact hf op
  · exact .refl op

theorem performOp_opsGrow (k p : Nat) (drops : List TlbEntry) (s : State) :
    OpsGrow s.ops (performOp k p drops s).ops := by
  rcases performOp_cases k p drops s with h | ⟨op, q, -, -, -, -, h⟩
  · rw [h]
    exact .refl s.ops
  · rw [h, modifyOp_ops, modifyPe_ops]
    refine .modify (fun o => ?_) k s.ops
    exact ⟨rfl, rfl, rfl, rfl, List.prefix_append .., id⟩

theorem declareOp_opsGrow (k : Nat) (s : State) : OpsGrow s.ops (declareOp k s).ops := by
  rcases declareOp_cases k s with h | ⟨op, -, -, h⟩
  · rw [h]
    exact .refl s.ops
  · rw [h, modifyOp_ops]
    refine .modify (fun o => ?_) k s.ops
    exact ⟨rfl, rfl, rfl, rfl, List.prefix_rfl, fun _ => rfl⟩

theorem agentMove_opsGrow (m : Move) (s : State) : OpsGrow s.ops (agentMove m s).ops := by
  cases m with
  | run p f => exact .refl s.ops
  | perform k p drops => exact performOp_opsGrow k p drops s
  | declare k => exact declareOp_opsGrow k s
  | finish p a =>
    rw [agentMove, finishAccess, modifyPe_ops]
    exact .refl s.ops

theorem step_ops {s t : State} (h : step s = .next t) :
    s.ops.length ≤ t.ops.length ∧ t.ops.length ≤ s.ops.length + 1 ∧ OpsGrow s.ops t.ops := by
  rcases step_cases h with ⟨u, ms, -, -, hops, -, rfl | ⟨i, f, -, hi⟩⟩ | ⟨m, ms, -, -, rfl⟩
  · rw [hops]
    exact ⟨le_rfl, Nat.le_succ _, .refl _⟩
  · obtain ⟨q, l, rfl, hl⟩ := exec_shape hi
    simp only [withPe_ops, hops, List.length_append]
    exact ⟨by omega, by omega, .append s.ops l⟩
  · have hlen : (agentMove m (s.withSchedule ms)).ops.length = s.ops.length := (agentMove_frame m _).ops
    exact ⟨hlen.ge, by omega, agentMove_opsGrow m (s.withSchedule ms)⟩

end Sys2Proof.Machine

namespace Sys2Proof.Proofs
open Sys2Proof.Machine

/-- Settles O47, by what every step keeps of a PE. -/
theorem noStepAddsEntriesOrWritesGeneralOrControlRegisters :
    Obligations.NoStepAddsEntriesOrWritesGeneralOrControlRegisters := by
  unfold Obligations.NoStepAddsEntriesOrWritesGeneralOrControlRegisters
  intro s t h
  obtain ⟨hcfg, hnpe⟩ := step_cfg_npe h
  refine ⟨hcfg, hnpe, fun p q hq => ?_⟩
  obtain ⟨q', hq', htlb, hregs, hsys, hhelpers, hmem, hprogram, hsp⟩ := step_keeps h hq
  exact ⟨q', hq', htlb, hregs, hsys, hhelpers, hmem, hprogram, hsp⟩

/-- Settles O48: an instruction appends to the issued operations, the agent's moves make one of them grow. -/
theorem issuedOperationsAreFixed : Obligations.IssuedOperationsAreFixed := by
  unfold Obligations.IssuedOperationsAreFixed
  intro s t h
  obtain ⟨hle, hone, hgrow⟩ := step_ops h
  refine ⟨hle, hone, fun k op hk => ?_⟩
  obtain ⟨op', hop', hcall, hissuer, hel2en, hlarge, hperformed, hcomplete⟩ := hgrow k op hk
  exact ⟨op', hop', hcall, hissuer, hel2en, hlarge, hperformed, hcomplete⟩

end Sys2Proof.Proofs
end

section
/-! The arithmetic of an operand: where the range starts, how long it is, what its level hint asks. -/

namespace Sys2Proof.Machine

/-! ### The starting address -/

theorem baseShift_cases (large : Bool) (g : Granule) :
    baseShift large g = 12 ∨ baseShift large g = 14 ∨ baseShift large g = 16 := by
  cases large
  · cases g
    · exact .inl rfl
    · exact .inr (.inl rfl)
    · exact .inr (.inr rfl)
  · exact .inr (.inr rfl)

/-- The field's top bit, bit 36, is copied to every bit above it (41_tlbi_rvaa_operation R72: log 11). -/
theorem signExtend_base_toNat (base : BitVec 37) :
    (base.signExtend 64).toNat = base.toNat + (if base.toNat < 2 ^ 36 then 0 else 2 ^ 64 - 2 ^ 37) := by
  have hlt := base.isLt
  have hwidth : (base.setWidth 64).toNat = base.toNat := by
    rw [BitVec.toNat_setWidth]
    omega
  rw [BitVec.toNat_signExtend, hwidth, BitVec.msb_eq_decide]
  simp only [decide_eq_true_eq, Nat.add_one_sub_one]
  split_ifs <;> omega

theorem baseVa_toNat (large : Bool) (g : Granule) (base : BitVec 37) :
    (baseVa large g base).toNat = (base.signExtend 64).toNat * 2 ^ baseShift large g % 2 ^ 64 := by
  rw [baseVa, BitVec.toNat_shiftLeft, Nat.shiftLeft_eq]

/-- The bits of the starting address: the field, zeros below it, copies of its top bit above it. -/
theorem baseVa_bits (large : Bool) (g : Granule) (base : BitVec 37) :
    (baseVa large g base).toNat / 2 ^ baseShift large g % 2 ^ 37 = base.toNat ∧
    (baseVa large g base).toNat % 2 ^ baseShift large g = 0 ∧
    (baseVa large g base).toNat / 2 ^ (baseShift large g + 37) =
      (if base.toNat < 2 ^ 36 then 0 else 2 ^ (64 - (baseShift large g + 37)) - 1) := by
  have hlt := base.isLt
  rw [baseVa_toNat, signExtend_base_toNat]
  rcases baseShift_cases large g with h | h | h
  all_goals
    rw [h]
    split_ifs <;> omega

/-! ### The size of the range -/

theorem granuleBytes_eq (g : Granule) :
    granuleBytes g = (match g with | .g4K => 4096 | .g16K => 16384 | .g64K => 65536) := by
  cases g <;> rfl

/-- `NUM` and `SCALE` count between 2 and 2^21 granules. -/
theorem rangeGranules_bounds (num : BitVec 5) (scale : BitVec 2) :
    2 ≤ (num.toNat + 1) * 2 ^ (5 * scale.toNat + 1) ∧ (num.toNat + 1) * 2 ^ (5 * scale.toNat + 1) ≤ 2 ^ 21 := by
  have hn := num.isLt
  have hs := scale.isLt
  have hlo : 2 ^ 1 ≤ 2 ^ (5 * scale.toNat + 1) := Nat.pow_le_pow_right (by decide) (by omega)
  have hhi : 2 ^ (5 * scale.toNat + 1) ≤ 2 ^ 16 := Nat.pow_le_pow_right (by decide) (by omega)
  constructor
  · calc 2 = 1 * 2 ^ 1 := rfl
      _ ≤ _ := Nat.mul_le_mul (by omega) hlo
  · calc _ ≤ 2 ^ 5 * 2 ^ 16 := Nat.mul_le_mul (by omega) hhi
      _ = 2 ^ 21 := rfl

/-- The largest `NUM` at one scale reaches as far as the smallest at the next. -/
theorem rangeSize_next_scale (g : Granule) {scale : BitVec 2} (h : scale.toNat < 3) :
    rangeSize g 31 scale = rangeSize g 0 (scale + 1) := by
  have hnext : (scale + 1).toNat = scale.toNat + 1 := by
    rw [BitVec.toNat_add, show (1 : BitVec 2).toNat = 1 from rfl]
    omega
  have hexp : 5 * (scale.toNat + 1) + 1 = 5 + (5 * scale.toNat + 1) := by omega
  have h31 : (31 : BitVec 5).toNat + 1 = 2 ^ 5 := rfl
  have h0 : (0 : BitVec 5).toNat + 1 = 1 := rfl
  rw [rangeSize, rangeSize, hnext, hexp, Nat.pow_add 2 5, h31, h0, Nat.one_mul]

/-! ### The level hint -/

/-- No hint names no leaf entry size. -/
theorem leafLog2_noHint (g : Granule) : leafLog2 g 0b00 = none := rfl

theorem leafLog2_level1 (g : Granule) :
    leafLog2 g 0b01 = some (match g with | .g4K => 30 | .g16K => 36 | .g64K => 42) := by
  cases g <;> rfl

theorem leafLog2_level2 (g : Granule) :
    leafLog2 g 0b10 = some (match g with | .g4K => 21 | .g16K => 25 | .g64K => 29) := by
  cases g <;> rfl

/-- A level hint names a leaf entry size at levels 1 and 2 only. -/
theorem leafLog2_eq_some {g : Granule} {ttl : BitVec 2} {n : Nat} (h : leafLog2 g ttl = some n) :
    ttl = 0b01 ∨ ttl = 0b10 := by
  unfold leafLog2 at h
  split_ifs at h with h1 h2
  · exact .inl h1
  · exact .inr h2

/-- The UNPREDICTABLE set is the starts off the leaf entry size that the hint names (41_tlbi_rvaa_operation R83). -/
theorem unpredictableRange_iff {g : Granule} {ttl : BitVec 2} {start : Nat} :
    unpredictableRange g ttl start = true ↔ ∃ n, leafLog2 g ttl = some n ∧ ¬2 ^ n ∣ start := by
  unfold unpredictableRange
  cases leafLog2 g ttl with
  | none => simp
  | some n => simp [Nat.dvd_iff_mod_eq_zero]

end Sys2Proof.Machine

namespace Sys2Proof.Proofs
open Sys2Proof.Machine

/-- Settles O30: the number of the case table is `baseShift`. -/
theorem startingAddressPlacesTheField : Obligations.StartingAddressPlacesTheField := by
  unfold Obligations.StartingAddressPlacesTheField
  intro large g base n hn
  obtain rfl : n = baseShift large g := by
    rw [hn]
    cases large <;> cases g <;> rfl
  exact baseVa_bits large g base

/-- Settles O31, by the bounds on the number of granules. -/
theorem rangeSizeFormula : Obligations.RangeSizeFormula := by
  unfold Obligations.RangeSizeFormula
  refine ⟨fun g num scale => ?_, fun g => ⟨rfl, rfl⟩, fun g _ h => rangeSize_next_scale g h⟩
  obtain ⟨hlo, hhi⟩ := rangeGranules_bounds num scale
  exact ⟨congrArg (_ * ·) (granuleBytes_eq g), Nat.mul_le_mul_right _ hlo, Nat.mul_le_mul_right _ hhi⟩

/-- Settles O32, by the two branches of the definition. -/
theorem effectiveLevelHint : Obligations.EffectiveLevelHint := by
  unfold Obligations.EffectiveLevelHint
  intro c g ttl
  refine ⟨fun httl hg hlpa => if_pos ⟨httl, hg, hlpa⟩, fun h => if_neg ?_⟩
  rintro ⟨httl, hg, hlpa⟩
  simp [httl, hg, hlpa] at h

/-- Settles O36: the hint names a leaf entry size at levels 1 and 2, and the start is no multiple of it. -/
theorem unpredictableSetIsMisalignment : Obligations.UnpredictableSetIsMisalignment := by
  unfold Obligations.UnpredictableSetIsMisalignment
  intro g ttl start
  rw [unpredictableRange_iff]
  constructor
  · rintro ⟨n, hn, hoff⟩
    rcases leafLog2_eq_some hn with rfl | rfl
    · rw [leafLog2_level1] at hn
      cases hn
      cases g <;> exact .inl ⟨rfl, hoff⟩
    · rw [leafLog2_level2] at hn
      cases hn
      cases g <;> exact .inr ⟨rfl, hoff⟩
  · rintro (⟨rfl, hoff⟩ | ⟨rfl, hoff⟩)
    · exact ⟨_, leafLog2_level1 g, by cases g <;> exact hoff⟩
    · exact ⟨_, leafLog2_level2 g, by cases g <;> exact hoff⟩

end Sys2Proof.Proofs
end

section
/-! What an operation requires: each requirement in the words of its rule, and the requirement as their conjunction. -/

namespace Sys2Proof.Machine

/-! ### The five requirements -/

theorem kindMatches_iff {c : Config} {r : Request} {e : TlbEntry} : kindMatches c r e = true ↔
    e.stage1 = true ∧ e.leaf = true ∧ ((e.descBits = .d64 ∧ (r.ttl = 0b00 ∨ e.level = (r.ttl.toNat : Int))) ∨
      (c.featD128 = true ∧ e.descBits = .d128 ∧ r.ttl = 0b00)) := by
  unfold kindMatches
  cases e.descBits <;> simp [and_assoc]

theorem addrMatches_iff {r : Request} {e : TlbEntry} :
    addrMatches r e = true ↔ ∃ v, r.start ≤ v ∧ v < r.stop ∧ TlbEntryTranslates e v := by
  simp only [addrMatches, List.any_eq_true, blockMeets_iff, TlbEntryTranslates]
  constructor
  · rintro ⟨b, hb, v, hstart, hstop, hblock⟩
    exact ⟨v, hstart, hstop, b, hb, hblock⟩
  · rintro ⟨v, hstart, hstop, b, hb, hblock⟩
    exact ⟨b, hb, v, hstart, hstop, hblock⟩

theorem contextMatches_iff {op : Op} {e : TlbEntry} : contextMatches op e = true ↔
    e.ss = op.call.ss ∧ e.regime = op.call.regime ∧
      (op.call.regime = .el10 → op.el2en = true → e.vmid = op.call.vmid) := by
  simp only [contextMatches, Bool.and_eq_true, Bool.or_eq_true, Bool.not_eq_true', ← Bool.not_eq_true,
    decide_eq_true_eq, and_assoc]
  rw [← and_imp, imp_iff_not_or]

theorem granuleMatches_iff {r : Request} {e : TlbEntry} : granuleMatches r e = true ↔ e.granule = r.granule :=
  decide_eq_true_iff

theorem predictableFor_iff {r : Request} {e : TlbEntry} : predictableFor r e = true ↔
    (e.descBits = .d64 → unpredictableRange r.granule r.ttl r.start = false) := by
  unfold predictableFor
  cases e.descBits <;> simp

/-! ### What is required -/

/-- An operation with a request requires the entries that meet all five (41_tlbi_rvaa_operation R81, R83). -/
theorem requires_iff {c : Config} {op : Op} {r : Request} (hr : op.request c = some r) (e : TlbEntry) :
    op.requires c e = true ↔ kindMatches c r e = true ∧ addrMatches r e = true ∧ contextMatches op e = true ∧
      granuleMatches r e = true ∧ predictableFor r e = true := by
  simp only [Op.requires, hr, Bool.and_eq_true, and_assoc]

/-- An operation without a request requires nothing (41_tlbi_rvaa_operation R84: log 13). -/
theorem requires_noRequest {c : Config} {op : Op} (hr : op.request c = none) (e : TlbEntry) :
    op.requires c e = false := by
  simp only [Op.requires, hr]

/-- A reserved granule names no range. -/
theorem request_of_reserved {op : Op} (c : Config) (h : (decodeOperand op.call.xt).tg = 0b00) :
    op.request c = none := by
  simp [Op.request, requestOf, h, granuleOfTg]

/-- The request of an operand whose granule is `g` (41_tlbi_rvaa_operation R71 to R75). -/
def operandRequest (c : Config) (op : Op) (g : Granule) : Request :=
  let o := decodeOperand op.call.xt
  let start := (baseVa op.large g o.base).toNat
  { granule := g, start := start, stop := rangeEnd start (rangeSize g o.num o.scale), ttl := effectiveTtl c g o.ttl }

theorem request_of_granule {op : Op} {g : Granule} (c : Config)
    (h : granuleOfTg (decodeOperand op.call.xt).tg = some g) : op.request c = some (operandRequest c op g) := by
  simp only [Op.request, requestOf, h, operandRequest]

/-- A required entry translates an address of the range (41_tlbi_rvaa_operation R77). -/
theorem requires_meets_range {c : Config} {op : Op} {e : TlbEntry} {r : Request} (hr : op.request c = some r)
    (h : op.requires c e = true) : ∃ v, r.start ≤ v ∧ v < r.stop ∧ TlbEntryTranslates e v := by
  obtain ⟨-, haddr, -⟩ := (requires_iff hr e).mp h
  exact addrMatches_iff.mp haddr

/-- In the UNPREDICTABLE set nothing is required: no 64-bit entry by R83, and no 128-bit one since the level hint is
not 0b00 (41_tlbi_rvaa_operation R76). -/
theorem requires_unpredictable {c : Config} {op : Op} {r : Request} (hr : op.request c = some r)
    (h : unpredictableRange r.granule r.ttl r.start = true) (e : TlbEntry) : op.requires c e = false := by
  rw [Bool.eq_false_iff]
  intro hreq
  obtain ⟨hkind, -, -, -, hpred⟩ := (requires_iff hr e).mp hreq
  obtain ⟨-, -, ⟨h64, -⟩ | ⟨-, -, hhint⟩⟩ := kindMatches_iff.mp hkind
  · exact absurd h (Bool.eq_false_iff.mp (predictableFor_iff.mp hpred h64))
  · obtain ⟨n, hn, -⟩ := unpredictableRange_iff.mp h
    rw [hhint, leafLog2_noHint] at hn
    cases hn

end Sys2Proof.Machine

namespace Sys2Proof.Proofs
open Sys2Proof.Machine

/-- Settles O33: the requirement is the conjunction, and each conjunct says what its rule says. -/
theorem requiredEntriesMeetTheFiveRequirements : Obligations.RequiredEntriesMeetTheFiveRequirements := by
  unfold Obligations.RequiredEntriesMeetTheFiveRequirements
  rintro c op e g o stop rfl hg rfl
  rw [requires_iff (request_of_granule c hg), kindMatches_iff, addrMatches_iff, contextMatches_iff, granuleMatches_iff,
    predictableFor_iff]
  exact Iff.rfl

/-- Settles O34: no requirement reads `asid` or `isGlobal`, so the two sides are the same computation. -/
theorem asidAndGlobalAreIgnored : Obligations.AsidAndGlobalAreIgnored := by
  unfold Obligations.AsidAndGlobalAreIgnored
  exact fun c op e isGlobal asid => rfl

/-- Settles O35, by the request each of the three kinds of operand makes. -/
theorem operandsWithoutASettledRange : Obligations.OperandsWithoutASettledRange := by
  unfold Obligations.OperandsWithoutASettledRange
  refine ⟨?reserved, ?pastTop, ?unpredictable⟩
  case reserved => exact fun c op e h => requires_noRequest (request_of_reserved c h) e
  case pastTop =>
    rintro c op e g start size hg rfl rfl hpast
    have hstop : (operandRequest c op g).stop = Config.endPastTop _ _ := rangeEnd_of_gt hpast
    have hmeets := fun hreq => hstop ▸ requires_meets_range (e := e) (request_of_granule c hg) hreq
    refine ⟨hmeets, fun hempty => Bool.eq_false_iff.mpr fun hreq => ?_⟩
    obtain ⟨v, hlo, hhi, -⟩ := hmeets hreq
    exact absurd (hlo.trans_lt hhi) hempty.not_gt
  case unpredictable => exact fun c op e g hg h => requires_unpredictable (request_of_granule c hg) h e

end Sys2Proof.Proofs
end

section
/-! The removal on a PE: which PEs it reaches, what it can leave, and that removals commute. -/

namespace Sys2Proof.Machine

/-! ### The scope -/

theorem inScope_nsh {c : Config} {op : Op} (h : op.call.sh = .nsh) {p : Nat} :
    op.inScope c p = true ↔ p = op.issuer := by
  simp [Op.inScope, h]

theorem inScope_ish {c : Config} {op : Op} (h : op.call.sh = .ish) {p : Nat} :
    op.inScope c p = true ↔ p = op.issuer ∨ (op.issuer, p) ∈ c.isPairs := by
  simp [Op.inScope, h, inIsDomain]

/-- An operation reaches its issuer, whatever its shareability. -/
theorem inScope_issuer (c : Config) (op : Op) : op.inScope c op.issuer = true := by
  cases h : op.call.sh with
  | nsh => exact (inScope_nsh h).mpr rfl
  | ish => exact (inScope_ish h).mpr (.inl rfl)

/-! ### One removal -/

theorem modify_eq_set_of_getElem? {α : Type} {l : List α} {i : Nat} {a : α} (h : l[i]? = some a) (f : α → α) :
    l.modify i f = l.set i (f a) := by
  obtain ⟨hi, rfl⟩ := List.getElem?_eq_some_iff.mp h
  exact List.modify_eq_set_get f hi

theorem modify_eq_self_of_fixed {α : Type} {l : List α} {i : Nat} {f : α → α} (h : ∀ a, l[i]? = some a → f a = a) :
    l.modify i f = l := by
  cases hi : l[i]? with
  | none => exact List.modify_eq_self (List.getElem?_eq_none_iff.mp hi)
  | some a =>
    obtain ⟨hlt, rfl⟩ := List.getElem?_eq_some_iff.mp hi
    rw [modify_eq_set_of_getElem? hi, h _ hi, List.set_getElem_self]

/-- A removal out of scope, repeated, or of a missing operation changes nothing (log 22). -/
theorem performOp_idle {k p : Nat} (drops : List TlbEntry) {s : State}
    (h : ∀ op, s.ops[k]? = some op → p ∉ s.scope op ∨ op.performedOn p = true) : performOp k p drops s = s := by
  rcases performOp_cases k p drops s with hp | ⟨op, q, hk, hq, hin, hnot, -⟩
  · exact hp
  · rcases h op hk with hout | hdone
    · exact absurd (mem_scope.mpr ⟨(peAt_isSome_iff s p).mp ⟨q, hq⟩, hin⟩) hout
    · exact absurd hdone (Bool.eq_false_iff.mp hnot)

/-- Every set of entries that are not required can be what a removal leaves: the agent drops the others (D13: log
23). -/
theorem exists_drops_mem_tlbAfter {c : Config} {op : Op} {tlb keep : List TlbEntry}
    (h : ∀ e ∈ keep, e ∈ tlb ∧ op.requires c e = false) :
    ∃ drops, ∀ e, e ∈ tlbAfter c op drops tlb ↔ e ∈ keep := by
  refine ⟨tlb.filter (fun e => e ∉ keep), fun e => ?_⟩
  rw [mem_tlbAfter, List.mem_filter, decide_eq_true_eq]
  constructor
  · rintro ⟨htlb, -, hdrop⟩
    exact not_not.mp fun hne => hdrop ⟨htlb, hne⟩
  · exact fun he => ⟨(h e he).1, (h e he).2, fun hdrop => hdrop.2 he⟩

/-! ### A removal as a change of one PE and of one operation -/

/-- The operation is still to be performed on PE `p`, which is one it reaches. -/
def Op.due (op : Op) (c : Config) (p : Nat) : Bool := op.inScope c p && !op.performedOn p

/-- What the removal of an operation, if there is one, makes of the PE it names. -/
def Pe.cleanedBy (c : Config) (p : Nat) (drops : List TlbEntry) (op? : Option Op) (q : Pe) : Pe :=
  match op? with
  | some op => if op.due c p then { q with tlb := tlbAfter c op drops q.tlb } else q
  | none => q

/-- What the removal on a PE, if there is one, makes of the operation it names. -/
def Op.markedOn (c : Config) (p : Nat) (q? : Option Pe) (op : Op) : Op :=
  match q? with
  | some q =>
    if op.due c p then
      { op with performed := op.performed ++ [{ pe := p, required := q.tlb.filter (op.requires c) }] }
    else op
  | none => op

/-- A removal changes the list of PEs in one place and the list of operations in one place. -/
theorem performOp_lists (k p : Nat) (drops : List TlbEntry) (s : State) :
    (performOp k p drops s).allPes = s.allPes.modify p (Pe.cleanedBy s.cfg p drops s.ops[k]?) ∧
    (performOp k p drops s).ops = s.ops.modify k (Op.markedOn s.cfg p (s.peAt p)) := by
  cases hk : s.ops[k]? with
  | none =>
    rw [performOp_idle drops (fun op hop => absurd (hk.symm.trans hop) nofun)]
    exact ⟨(modify_eq_self_of_fixed fun _ _ => rfl).symm,
      (modify_eq_self_of_fixed fun op hop => absurd (hk.symm.trans hop) nofun).symm⟩
  | some op =>
    cases hp : s.peAt p with
    | none =>
      have hidle : performOp k p drops s = s := by simp only [performOp, hk, hp]
      rw [hidle]
      exact ⟨(modify_eq_self_of_fixed fun q hq => absurd (hp.symm.trans hq) nofun).symm,
        (modify_eq_self_of_fixed fun _ _ => rfl).symm⟩
    | some q =>
      cases hdue : op.due s.cfg p with
      | true =>
        obtain ⟨hin, hnot⟩ : op.inScope s.cfg p = true ∧ op.performedOn p = false := by simpa [Op.due] using hdue
        have hscope : p ∈ s.scope op := mem_scope.mpr ⟨(peAt_isSome_iff s p).mp ⟨q, hp⟩, hin⟩
        rw [performOp_pending hk hp hscope hnot, modifyOp_allPes, modifyPe_allPes, modifyOp_ops, modifyPe_ops,
          modify_eq_set_of_getElem? hp, modify_eq_set_of_getElem? hk, modify_eq_set_of_getElem? hp,
          modify_eq_set_of_getElem? hk, Pe.cleanedBy, Op.markedOn, if_pos hdue, if_pos hdue]
        exact ⟨rfl, rfl⟩
      | false =>
        have hnot := Bool.eq_false_iff.mp hdue
        have hidle : performOp k p drops s = s := by
          simp only [performOp, hk, hp]
          exact if_neg hnot
        rw [hidle]
        refine ⟨(modify_eq_self_of_fixed fun _ _ => if_neg hnot).symm,
          (modify_eq_self_of_fixed fun o ho => ?_).symm⟩
        obtain rfl := Option.some.inj (hk.symm.trans ho)
        exact if_neg hnot

theorem performOp_allPes (k p : Nat) (drops : List TlbEntry) (s : State) :
    (performOp k p drops s).allPes = s.allPes.modify p (Pe.cleanedBy s.cfg p drops s.ops[k]?) :=
  (performOp_lists k p drops s).1

theorem performOp_ops (k p : Nat) (drops : List TlbEntry) (s : State) :
    (performOp k p drops s).ops = s.ops.modify k (Op.markedOn s.cfg p (s.peAt p)) :=
  (performOp_lists k p drops s).2

theorem performOp_cfg (k p : Nat) (drops : List TlbEntry) (s : State) : (performOp k p drops s).cfg = s.cfg :=
  (agentMove_frame (.perform k p drops) s).cfg

theorem performOp_npe (k p : Nat) (drops : List TlbEntry) (s : State) : (performOp k p drops s).npe = s.npe :=
  (agentMove_frame (.perform k p drops) s).npe

/-- A removal leaves every PE but the one it names. -/
theorem performOp_peAt_ne {p r : Nat} (h : p ≠ r) (k : Nat) (drops : List TlbEntry) (s : State) :
    (performOp k p drops s).peAt r = s.peAt r := by
  rw [State.peAt, performOp_allPes k p drops s, List.getElem?_modify_ne (h := h), State.peAt]

theorem peAt_isSome (s : State) (p : Nat) : (s.peAt p).isSome = decide (p < s.npe) := by
  rw [Bool.eq_iff_iff, Option.isSome_iff_exists, peAt_isSome_iff, decide_eq_true_iff]

/-! ### Two removals -/

@[simp] theorem markedOn_inScope (op : Op) (c c' : Config) (p r : Nat) (q? : Option Pe) :
    (op.markedOn c p q?).inScope c' r = op.inScope c' r := by
  unfold Op.markedOn
  cases q? with
  | none => rfl
  | some q => cases op.due c p <;> rfl

@[simp] theorem markedOn_requires (op : Op) (c c' : Config) (p : Nat) (q? : Option Pe) :
    (op.markedOn c p q?).requires c' = op.requires c' := by
  unfold Op.markedOn
  cases q? with
  | none => rfl
  | some q => cases op.due c p <;> rfl

theorem performedOn_append (op : Op) (p r : Nat) (es : List TlbEntry) :
    ({ op with performed := op.performed ++ [⟨p, es⟩] } : Op).performedOn r = (op.performedOn r || p == r) := by
  simp [Op.performedOn]

/-- An operation is performed after a removal where it was before, and on the PE of the removal if it reaches it. -/
theorem markedOn_performedOn (op : Op) (c : Config) (p r : Nat) (q? : Option Pe) :
    (op.markedOn c p q?).performedOn r = (op.performedOn r || (p == r && q?.isSome && op.inScope c p)) := by
  unfold Op.markedOn
  cases q? with
  | none => simp
  | some q =>
    cases hin : op.inScope c p with
    | false => simp [Op.due, hin]
    | true =>
      cases hdone : op.performedOn p with
      | false => simp [Op.due, hin, hdone, performedOn_append]
      | true =>
        have hsame : p = r → op.performedOn r = true := fun hpr => hpr ▸ hdone
        simpa [Op.due, hin, hdone] using hsame

/-- What a removal makes of a PE does not depend on another removal made before, of another operation or elsewhere. -/
theorem cleanedBy_after_performOp {k k' p p' : Nat} (h : k ≠ k' ∨ p ≠ p') (c : Config) (drops drops' : List TlbEntry)
    (s : State) :
    Pe.cleanedBy c p drops (performOp k' p' drops' s).ops[k]? = Pe.cleanedBy c p drops s.ops[k]? := by
  rw [performOp_ops k' p' drops' s]
  by_cases hk : k' = k
  · subst hk
    have hp : p' ≠ p := fun heq => h.elim (fun hne => hne rfl) (fun hne => hne heq.symm)
    rw [List.getElem?_modify_eq]
    cases s.ops[k']? with
    | none => rfl
    | some op =>
      funext q
      simp [Pe.cleanedBy, Op.due, markedOn_performedOn, hp, tlbAfter]
  · rw [List.getElem?_modify_ne (h := hk)]

theorem tlbAfter_comm (c : Config) (op op' : Op) (drops drops' tlb : List TlbEntry) :
    tlbAfter c op drops (tlbAfter c op' drops' tlb) = tlbAfter c op' drops' (tlbAfter c op drops tlb) :=
  List.filter_comm ..

theorem cleanedBy_comm (c : Config) (p : Nat) (drops drops' : List TlbEntry) (op? op?' : Option Op) (q : Pe) :
    Pe.cleanedBy c p drops op? (Pe.cleanedBy c p drops' op?' q) =
      Pe.cleanedBy c p drops' op?' (Pe.cleanedBy c p drops op? q) := by
  cases op? with
  | none => rfl
  | some op =>
    cases op?' with
    | none => rfl
    | some op' =>
      simp only [Pe.cleanedBy]
      split_ifs
      · exact congrArg (fun tlb => { q with tlb := tlb }) (tlbAfter_comm ..)
      all_goals rfl

/-- Two removals leave the same PEs in either order. -/
theorem performOp_allPes_comm {k k' p p' : Nat} (h : k ≠ k' ∨ p ≠ p') (drops drops' : List TlbEntry) (s : State) :
    (performOp k p drops (performOp k' p' drops' s)).allPes =
      (performOp k' p' drops' (performOp k p drops s)).allPes := by
  have h' : k' ≠ k ∨ p' ≠ p := h.imp Ne.symm Ne.symm
  rw [performOp_allPes k p drops _, performOp_allPes k' p' drops' _, performOp_allPes k' p' drops' _,
    performOp_allPes k p drops _, performOp_cfg, performOp_cfg, cleanedBy_after_performOp h,
    cleanedBy_after_performOp h']
  by_cases hp : p' = p
  · subst hp
    rw [List.modify_modify_eq, List.modify_modify_eq]
    congr 1
    funext q
    exact cleanedBy_comm ..
  · exact List.modify_modify_ne _ _ _ hp

/-- An operation of the list after a removal. -/
theorem performOp_getElem? (k p : Nat) (drops : List TlbEntry) (s : State) (j : Nat) :
    (performOp k p drops s).ops[j]? =
      s.ops[j]?.map (fun op => if k = j then op.markedOn s.cfg p (s.peAt p) else op) := by
  rw [performOp_ops k p drops s, List.getElem?_modify]
  rfl

/-- Two removals leave every operation performed on the same PEs in either order. -/
theorem performOp_performedOn_comm (k k' p p' : Nat) (drops drops' : List TlbEntry) (s : State) (j r : Nat) :
    (performOp k p drops (performOp k' p' drops' s)).ops[j]?.map (fun op => op.performedOn r) =
      (performOp k' p' drops' (performOp k p drops s)).ops[j]?.map (fun op => op.performedOn r) := by
  simp only [performOp_getElem?, performOp_cfg, Option.map_map]
  refine congrArg (fun f => s.ops[j]?.map f) (funext fun op => ?_)
  simp only [Function.comp_apply]
  by_cases hk : k = j <;> by_cases hk' : k' = j
  · simp only [hk, hk', if_true, markedOn_performedOn, markedOn_inScope, peAt_isSome, performOp_npe]
    exact Bool.or_right_comm ..
  · simp [hk, hk', markedOn_performedOn, peAt_isSome, performOp_npe]
  · simp [hk, hk', markedOn_performedOn, peAt_isSome, performOp_npe]
  · simp [hk, hk']

/-- Two removals of different operations on different PEs change the list of operations in two places. -/
theorem performOp_ops_comm {k k' p p' : Nat} (hk : k ≠ k') (hp : p ≠ p') (drops drops' : List TlbEntry) (s : State) :
    (performOp k p drops (performOp k' p' drops' s)).ops = (performOp k' p' drops' (performOp k p drops s)).ops := by
  rw [performOp_ops k p drops _, performOp_ops k' p' drops' _, performOp_ops k' p' drops' _,
    performOp_ops k p drops _, performOp_cfg, performOp_cfg, performOp_peAt_ne hp, performOp_peAt_ne hp.symm]
  exact List.modify_modify_ne _ _ _ hk.symm

/-- States are told apart by their PEs as one list, the number of the one that runs, and the other fields. -/
theorem state_eq_of_allPes {s t : State} (hcfg : s.cfg = t.cfg) (hid : s.peId = t.peId) (hpes : s.allPes = t.allPes)
    (hops : s.ops = t.ops) (hsched : s.schedule = t.schedule) : s = t := by
  obtain ⟨hbefore, hrest⟩ := List.append_inj hpes hid
  obtain ⟨hpe, hafter⟩ := List.cons.inj hrest
  cases s
  cases t
  simp_all

/-- Two removals of different operations on different PEs commute. -/
theorem performOp_comm {k k' p p' : Nat} (hk : k ≠ k') (hp : p ≠ p') (drops drops' : List TlbEntry) (s : State) :
    performOp k p drops (performOp k' p' drops' s) = performOp k' p' drops' (performOp k p drops s) := by
  have frame (k p : Nat) (drops : List TlbEntry) (s : State) := agentMove_frame (.perform k p drops) s
  refine state_eq_of_allPes ?_ ?_ (performOp_allPes_comm (.inl hk) drops drops' s)
    (performOp_ops_comm hk hp drops drops' s) ?_
  · exact ((frame ..).cfg.trans (frame ..).cfg).trans ((frame ..).cfg.trans (frame ..).cfg).symm
  · exact ((frame ..).peId.trans (frame ..).peId).trans ((frame ..).peId.trans (frame ..).peId).symm
  · exact ((frame ..).schedule.trans (frame ..).schedule).trans ((frame ..).schedule.trans (frame ..).schedule).symm

end Sys2Proof.Machine

namespace Sys2Proof.Proofs
open Sys2Proof.Machine

/-- Settles O37, by the two tests of the scope. -/
theorem scopeOfAnOperation : Obligations.ScopeOfAnOperation := by
  unfold Obligations.ScopeOfAnOperation
  intro s op hissuer
  refine ⟨fun hsh p => ?_, fun hsh p => ?_, mem_scope.mpr ⟨hissuer, inScope_issuer s.cfg op⟩⟩
  · rw [mem_scope, inScope_nsh hsh]
    exact ⟨And.right, fun hp => ⟨hp ▸ hissuer, hp⟩⟩
  · rw [mem_scope, inScope_ish hsh]

/-- Settles O38: sound by the equation of a removal that takes place; complete by dropping every entry that is not to be
kept. -/
theorem removalLeavesAnyAllowedSet : Obligations.RemovalLeavesAnyAllowedSet := by
  unfold Obligations.RemovalLeavesAnyAllowedSet
  intro s k p drops ms op q hs hk hp hscope hnot
  have hperform : ∀ drops' : List TlbEntry, agentMove (.perform k p drops') (s.withSchedule ms) = _ := fun drops' =>
    performOp_pending (s := s.withSchedule ms) hk hp hscope hnot
  constructor
  · refine ⟨_, tlbAfter s.cfg op drops q.tlb, step_of_agent hs nofun, fun e he => ?_, ?_⟩
    · obtain ⟨htlb, hreq, -⟩ := mem_tlbAfter.mp he
      exact ⟨htlb, hreq⟩
    · rw [hperform, modifyOp_allPes, modifyPe_allPes, modifyOp_ops, modifyPe_ops]
      exact ⟨modify_eq_set_of_getElem? hp _, modify_eq_set_of_getElem? hk _, by simp, by simp, by simp⟩
  · intro keep hkeep
    obtain ⟨drops', hleft⟩ := exists_drops_mem_tlbAfter hkeep
    refine ⟨drops', _, { q with tlb := tlbAfter s.cfg op drops' q.tlb },
      step_of_agent (s := s.withSchedule (.perform k p drops' :: ms)) rfl nofun, ?_, hleft⟩
    show (agentMove (.perform k p drops') (s.withSchedule ms)).peAt p = _
    rw [hperform]
    simp [hp]

/-- Settles O39: such a removal is idle. -/
theorem removalOnceAndInScopeOnly : Obligations.RemovalOnceAndInScopeOnly := by
  unfold Obligations.RemovalOnceAndInScopeOnly
  intro s k p drops ms hs h
  rw [step_of_agent hs nofun, agentMove, performOp_idle (s := s.withSchedule ms) drops h]
  rfl

/-- Settles O42: removals change one place of each list, and what they make of it does not depend on the other's. -/
theorem removalsComeInAnyOrder : Obligations.RemovalsComeInAnyOrder := by
  unfold Obligations.RemovalsComeInAnyOrder
  intro s k k' p p' drops drops'
  exact ⟨fun hk hp => performOp_comm hk hp drops drops' s, fun h => ⟨performOp_allPes_comm h drops drops' s,
    performOp_performedOn_comm k k' p p' drops drops' s⟩⟩

end Sys2Proof.Proofs
end

section
/-! Completion: the declaration, and AllAttr and ExcludeXS side by side. -/

namespace Sys2Proof.Machine

/-! ### The declaration -/

theorem declareOp_completable {k : Nat} {s : State} {op : Op} (hk : s.ops[k]? = some op)
    (hc : s.completable op = true) :
    declareOp k s = { s with ops := s.ops.set k { op with complete := true } } := by
  simp only [declareOp, hk, hc, if_true, State.modifyOp, modify_eq_set_of_getElem? hk]

theorem declareOp_early {k : Nat} {s : State} {op : Op} (hk : s.ops[k]? = some op) (hc : ¬s.completable op = true) :
    declareOp k s = s := by
  simp only [declareOp, hk]
  exact if_neg hc

/-- The condition of 41_tlbi_rvaa_operation R82 in the words of the statements. -/
theorem completable_iff_opWaitsFor {s : State} {op : Op} :
    s.completable op = true ↔ ∀ p ∈ s.scope op, op.performedOn p = true ∧
      ∀ q, s.peAt p = some q → ∀ a ∈ q.inFlight, OpWaitsFor op p a → a.complete = true := by
  simp only [completable_iff, waits_iff_opWaitsFor]

/-! ### AllAttr and ExcludeXS -/

/-- The operation with another choice of the accesses it waits for. -/
def Op.withAttr (op : Op) (attr : TlbiAttr) : Op := { op with call := { op.call with attr := attr } }

@[simp] theorem withAttr_scope (s : State) (op : Op) (attr : TlbiAttr) : s.scope (op.withAttr attr) = s.scope op := rfl

@[simp] theorem withAttr_performedOn (op : Op) (attr : TlbiAttr) (p : Nat) :
    (op.withAttr attr).performedOn p = op.performedOn p := rfl

@[simp] theorem withAttr_requires (op : Op) (attr : TlbiAttr) (c : Config) (e : TlbEntry) :
    (op.withAttr attr).requires c e = op.requires c e := rfl

/-- With ExcludeXS an operation waits for the same accesses but those with XS = 1 (20_memory R38). -/
theorem withAttr_excludeXS_waits {op : Op} {p : Nat} {a : Access} :
    (op.withAttr .excludeXS).waits p a = true ↔ op.waits p a = true ∧ a.xs = false := by
  have hattr : (op.withAttr .excludeXS).call.attr ≠ .allAttr := nofun
  rw [waits_iff, waits_iff, or_iff_right hattr, and_assoc]
  exact and_congr_right fun _ => ⟨fun h => ⟨.inr h, h⟩, And.right⟩

/-- The condition passes from an operation to one performed on the same PEs that waits for no further access. -/
theorem completable_of_waits {s : State} {op op' : Op} (hscope : s.scope op' = s.scope op)
    (hperf : ∀ p, op'.performedOn p = op.performedOn p)
    (hwaits : ∀ p q a, s.peAt p = some q → a ∈ q.inFlight → op'.waits p a = true →
      op.waits p a = true ∨ a.complete = true)
    (h : s.completable op = true) : s.completable op' = true := by
  rw [completable_iff] at h ⊢
  intro p hp
  obtain ⟨hdone, hacc⟩ := h p (hscope ▸ hp)
  exact ⟨(hperf p).trans hdone, fun q hq a ha hw => (hwaits p q a hq ha hw).elim (hacc q hq a ha) id⟩

end Sys2Proof.Machine

namespace Sys2Proof.Proofs
open Sys2Proof.Machine

/-- Settles O40, by the two outcomes of a declaration. -/
theorem completionCondition : Obligations.CompletionCondition := by
  unfold Obligations.CompletionCondition
  intro s k ms op hs hk
  rw [← completable_iff_opWaitsFor, step_of_agent hs nofun, agentMove]
  replace hk : (s.withSchedule ms).ops[k]? = some op := hk
  exact ⟨fun hc => congrArg _ (declareOp_completable hk hc), fun hc => congrArg _ (declareOp_early hk hc),
    fun attr e => withAttr_requires op attr s.cfg e⟩

/-- Settles O41: what AllAttr waits for and ExcludeXS does not is accesses with XS = 1. -/
theorem excludeXsCompletesNoLater : Obligations.ExcludeXsCompletesNoLater := by
  unfold Obligations.ExcludeXsCompletesNoLater
  intro s op
  constructor
  · exact completable_of_waits (withAttr_scope s op .excludeXS) (withAttr_performedOn op _)
      fun p q a _ _ hw => .inl (withAttr_excludeXS_waits.mp hw).1
  · intro h hxs
    refine completable_of_waits (withAttr_scope s op .excludeXS).symm (fun p => (withAttr_performedOn op _ p).symm)
      (fun p q a hq ha hw => ?_) h
    cases hx : a.xs with
    | true => exact .inr (hxs q (peAt_mem hq) a ha hx)
    | false => exact .inl (withAttr_excludeXS_waits.mpr ⟨hw, hx⟩)

end Sys2Proof.Proofs
end

section
/-! Exception entry and return: what entry saves where it goes, and the order in which an instruction's tests raise. -/

namespace Sys2Proof.Machine

/-! ### Entry and return -/

/-- What entry saves at the level it goes to (60_exceptions R94). -/
theorem takeException_bank_target (p : Pe) (r : Raised) (l : TargetEl) :
    (p.takeException r l).bank l =
      { p.bank l with elr := p.pc, spsr := p.pstate, esr := syndrome p.raised.length r } := by
  rw [takeException_bank, if_pos rfl]

theorem takeException_currentSp (p : Pe) (r : Raised) (l : TargetEl) :
    (p.takeException r l).currentSp = (p.bank l).sp := by
  cases l <;> rfl

theorem vectorOffset_eq (ps : PState) (l : TargetEl) :
    vectorOffset ps l = if ps.el ≠ l.toEl then 0x400 else if ps.sp = true then 0x200 else 0x000 := by
  rw [vectorOffset, ite_not]

/-- What was raised changes by exception entry only. -/
theorem exec_raised_ne {i : Instr} {s t : State} (h : exec i s = .next t) (hr : t.pe.raised ≠ s.pe.raised) :
    ∃ r l, t = s.withPe (s.pe.takeException r l) := by
  rcases exec_excepts_or_retires h with hexcept | ⟨u, rfl, hpe, -⟩
  · exact hexcept
  · exact absurd (by rw [retire_pe, hpe]) hr

/-! ### The tests of an encoding in the words of the statements -/

theorem encodingPresent_eq_false_iff {c : Config} {i : Instr} :
    encodingPresent c i = false ↔ c.featTLBIRANGE = false ∨ (isNxs i = true ∧ c.featXS = false) := by
  cases i with
  | tlbiRvaale1 n => simp [encodingPresent, isNxs]
  | tlbiRvaale1nxs n =>
    simp only [encodingPresent, isNxs, true_and]
    exact Bool.and_eq_false_iff

theorem fineTrap_iff {c : Config} {p : Pe} {i : Instr} :
    fineTrap c p i = true ↔ el2Enabled c p = true ∧ c.featFGT = true ∧
      (c.haveEL3 = false ∨ p.sys.scrEl3.fgten = true) ∧
      (isNxs i = true → c.featHCX = true ∧ (hcrxEl2Enabled c p = false ∨ p.sys.hcrxEl2.fgtnxs = false)) ∧
      p.sys.hfgitrEl2.tlbirvaale1 = true := by
  cases i with
  | tlbiRvaale1 n => simp [fineTrap, fineTrapBase_iff, isNxs]
  | tlbiRvaale1nxs n => simp [fineTrap, fineTrapNxs_iff, isNxs, and_assoc]

/-- Either trap needs EL2 enabled (60_exceptions R96). -/
theorem trap_el2Enabled {c : Config} {p : Pe} {i : Instr} (h : coarseTrap c p = true ∨ fineTrap c p i = true) :
    el2Enabled c p = true :=
  h.elim coarseTrap_el2 fun hfine => (fineTrap_iff.mp hfine).1

/-! ### The first exception of the order -/

/-- The order of 60_exceptions R93 in the model's tests: both features and EL0 raise the one, both traps the other. -/
theorem firstException_eq (i : Instr) (s : State) : firstException i s =
    if encodingPresent s.cfg i = false ∨ s.pe.pstate.el = .el0 then some .undefined
    else if s.pe.pstate.el = .el1 ∧ (coarseTrap s.cfg s.pe = true ∨ fineTrap s.cfg s.pe i = true) then
      some (.trapEl2 0x18 (trapIss i.fields i.operandReg))
    else none := by
  simp only [firstException, encodingPresent_eq_false_iff, coarseTrap_iff, fineTrap_iff, and_or_left, ite_or]

theorem firstException_undefined_iff {i : Instr} {s : State} :
    firstException i s = some .undefined ↔ encodingPresent s.cfg i = false ∨ s.pe.pstate.el = .el0 := by
  rw [firstException_eq]
  split_ifs with hundef htrap
  · exact iff_of_true rfl hundef
  · exact iff_of_false nofun hundef
  · exact iff_of_false nofun hundef

theorem exec_undefined {i : Instr} {s : State} (h : encodingPresent s.cfg i = false ∨ s.pe.pstate.el = .el0) :
    exec i s = .next (raiseUndefined s) := h.elim exec_absent exec_el0

/-- One of the two `return` arms applies (40_tlbi_rvaale1 R61, R62). -/
def ReturnArm (s : State) : Prop :=
  s.pe.pstate.el = .el3 ∧ s.cfg.featRME = true ∧
    (if elIsInHost s.cfg s.pe then validSecurityStateEl2 s.cfg s.pe else validSecurityStateEl1 s.cfg s.pe) = false

theorem atEl3_issues {s : State} (attr : TlbiAttr) (n : Nat) (hel : s.pe.pstate.el = .el3) (h : ¬ReturnArm s) :
    ∃ op, (atEl3 attr n s).ops = s.ops ++ [op] := by
  simp only [ReturnArm, hel, true_and, not_and_or, Bool.not_eq_true, Bool.not_eq_false] at h
  cases hhost : elIsInHost s.cfg s.pe with
  | true => rw [atEl3_host hhost (by simpa [hhost] using h)]; exact ⟨_, rfl⟩
  | false => rw [atEl3_guest hhost (by simpa [hhost] using h)]; exact ⟨_, rfl⟩

/-- What an execution does about the first exception of the order: it takes it, or there is none, and then it issues one
operation but in a `return` arm. -/
inductive FollowsOrder (i : Instr) (s t : State) : Prop where
  | undefined (hfirst : firstException i s = some .undefined) (h : t = raiseUndefined s)
  | trap (hfirst : firstException i s = some (.trapEl2 0x18 (trapIss i.fields i.operandReg)))
      (h : t = raiseSystemAccessTrap i.fields i.operandReg s)
  | returns (hfirst : firstException i s = none) (harm : ReturnArm s) (h : t = retire s)
  | issues (hfirst : firstException i s = none) (harm : ¬ReturnArm s) (hraised : t.pe.raised = s.pe.raised)
      (hops : ∃ op, t.ops = s.ops ++ [op])

theorem exec_followsOrder {i : Instr} {s t : State} (h : exec i s = .next t) : FollowsOrder i s t := by
  by_cases hundef : encodingPresent s.cfg i = false ∨ s.pe.pstate.el = .el0
  · exact .undefined (firstException_undefined_iff.mpr hundef)
      (Host.Outcome.next.inj (h.symm.trans (exec_undefined hundef)))
  obtain ⟨hpresent, hel0⟩ := not_or.mp hundef
  rw [Bool.not_eq_false] at hpresent
  by_cases htrap : s.pe.pstate.el = .el1 ∧ (coarseTrap s.cfg s.pe = true ∨ fineTrap s.cfg s.pe i = true)
  · exact .trap (by rw [firstException_eq, if_neg hundef, if_pos htrap])
      (Host.Outcome.next.inj (h.symm.trans (exec_el1_trapped hpresent htrap.1 htrap.2)))
  have hfirst : firstException i s = none := by rw [firstException_eq, if_neg hundef, if_neg htrap]
  cases hel : s.pe.pstate.el with
  | el0 => exact absurd hel hel0
  | el1 =>
    obtain ⟨hcoarse, hfine⟩ := not_or.mp (not_and.mp htrap hel)
    obtain rfl := Host.Outcome.next.inj (h.symm.trans (exec_el1_issues hpresent hel hcoarse hfine))
    exact .issues hfirst (by simp [ReturnArm, hel]) rfl ⟨_, rfl⟩
  | el2 =>
    obtain rfl := Host.Outcome.next.inj (h.symm.trans (exec_el2 hpresent hel))
    exact .issues hfirst (by simp [ReturnArm, hel]) (atEl2_raised ..) ⟨_, atEl2_ops (by simp [hel])⟩
  | el3 =>
    obtain rfl := Host.Outcome.next.inj (h.symm.trans (exec_el3 hpresent hel))
    by_cases harm : ReturnArm s
    · exact .returns hfirst harm (atEl3_invalid harm.2.1 harm.2.2)
    · exact .issues hfirst harm (atEl3_raised ..) (atEl3_issues _ _ hel harm)

/-- An execution raises the first exception of the order, and nothing where there is none. -/
theorem exec_raised {i : Instr} {s t : State} (h : exec i s = .next t) :
    t.pe.raised = (firstException i s).toList ++ s.pe.raised := by
  cases exec_followsOrder h with
  | undefined hfirst ht => rw [hfirst, ht]; rfl
  | trap hfirst ht => rw [hfirst, ht]; rfl
  | returns hfirst _ ht => rw [hfirst, ht]; rfl
  | issues hfirst _ hraised _ => rw [hfirst, hraised]; rfl

theorem exec_raised_iff {i : Instr} {s t : State} {r : Raised} (h : exec i s = .next t) :
    t.pe.raised = r :: s.pe.raised ↔ firstException i s = some r := by
  rw [exec_raised h]
  cases firstException i s with
  | none => simp
  | some r' => simp

/-! ### Each exception by its record -/

theorem exec_eq_raiseUndefined {i : Instr} {s t : State} (h : exec i s = .next t)
    (hr : t.pe.raised = .undefined :: s.pe.raised) : t = raiseUndefined s :=
  Host.Outcome.next.inj
    (h.symm.trans (exec_undefined (firstException_undefined_iff.mp ((exec_raised_iff h).mp hr))))

theorem exec_eq_raiseSystemAccessTrap {i : Instr} {s t : State} {ec : BitVec 6} {iss : BitVec 25}
    (h : exec i s = .next t) (hr : t.pe.raised = .trapEl2 ec iss :: s.pe.raised) :
    t = raiseSystemAccessTrap i.fields i.operandReg s := by
  obtain ⟨hpresent, hel, htrap⟩ := exec_trapped h hr
  exact Host.Outcome.next.inj (h.symm.trans (exec_el1_trapped hpresent hel htrap))

theorem undefinedTarget_toEl (c : Config) (p : Pe) : (undefinedTarget c p).toEl =
    if p.pstate.el = .el0 then (if el2Enabled c p = true ∧ p.sys.hcrEl2.tge = true then .el2 else .el1)
    else p.pstate.el := by
  unfold undefinedTarget
  cases p.pstate.el with
  | el0 =>
    simp only [Bool.and_eq_true, if_true]
    split_ifs <;> rfl
  | el1 => rfl
  | el2 => rfl
  | el3 => rfl

/-- The syndrome of an Undefined exception has EC 0 and ISS 0, whatever its IL (60_exceptions R90). -/
theorem syndrome_undefined_fields (n : Nat) :
    (syndrome n .undefined).toNat / 2 ^ 26 = 0 ∧ (syndrome n .undefined).toNat % 2 ^ 25 = 0 := by
  have hil := (Config.undefinedIl n).isLt
  rw [syndrome_undefined_toNat]
  omega

/-- The ISS of a trap as a number (60_exceptions R91). -/
theorem trapIss_toNat (f : SysFields) {n : Nat} (hn : n < 32) : (trapIss f n).toNat =
    f.op0.toNat * 2 ^ 20 + f.op2.toNat * 2 ^ 17 + f.op1.toNat * 2 ^ 14 + f.crn.toNat * 2 ^ 10 + n * 2 ^ 5 +
      f.crm.toNat * 2 := by
  simp only [trapIss, toNat_append_eq, BitVec.toNat_ofNat]
  omega

/-! ### The hypervisor's controls out of effect -/

theorem callHere_nsh {s : State} (attr : TlbiAttr) (n : Nat)
    (h : s.pe.pstate.el = .el1 → el2Enabled s.cfg s.pe = false) : (callHere s attr n).sh = .nsh := by
  unfold callHere
  split_ifs with hel
  · simp [el10Call, el1Shareability, h hel]
  · rfl
  · rfl

theorem attrHere_own {s : State} (i : Instr)
    (h : s.pe.pstate.el = .el1 → hcrxEl2Enabled s.cfg s.pe = false) : attrHere s i = ownAttr i := by
  unfold attrHere
  split_ifs with hel
  · cases i with
    | tlbiRvaale1 n => simp [el1Attr, el1BaseAttr, ownAttr, h hel]
    | tlbiRvaale1nxs n => rfl
  · rfl

end Sys2Proof.Machine

namespace Sys2Proof.Proofs
open Sys2Proof.Machine

/-- Settles O24: return reads back from the target's bank what entry saved there. -/
theorem exceptionReturnRestores : Obligations.ExceptionReturnRestores := by
  unfold Obligations.ExceptionReturnRestores
  intro p r l
  simp only [Pe.exceptionReturn, takeException_bank_target, takeException_regs, and_self]

/-- Settles O23: what was raised changes by entry only, and the level says which bank entry saved into. -/
theorem exceptionEntrySavesAndVectors : Obligations.ExceptionEntrySavesAndVectors := by
  unfold Obligations.ExceptionEntrySavesAndVectors
  intro i s t l h hr hlevel
  obtain ⟨r, m, rfl⟩ := exec_raised_ne h hr
  obtain rfl : m = l := toEl_injective hlevel
  rw [withPe_pe, takeException_bank_target, takeException_pc, vectorOffset_eq]
  exact ⟨rfl, rfl, rfl, rfl, rfl, rfl, takeException_currentSp .., rfl⟩

/-- Settles O19, by what an execution does about the first exception of the order. -/
theorem oneExceptionInTheOrderOfTheSpec : Obligations.OneExceptionInTheOrderOfTheSpec := by
  unfold Obligations.OneExceptionInTheOrderOfTheSpec
  intro i s t h
  refine ⟨exec_raised h, ?_⟩
  cases exec_followsOrder h with
  | undefined hfirst ht =>
    subst ht
    exact ⟨fun _ => rfl, fun hnone => absurd (hfirst.symm.trans hnone) nofun, fun _ _ _ => rfl⟩
  | trap hfirst ht =>
    subst ht
    exact ⟨fun _ => rfl, fun hnone => absurd (hfirst.symm.trans hnone) nofun, fun _ _ _ => rfl⟩
  | returns hfirst harm ht =>
    subst ht
    exact ⟨fun _ => rfl, fun _ hnot => absurd harm hnot, fun _ _ _ => rfl⟩
  | issues hfirst harm _ hops =>
    exact ⟨fun hsome => by simp [hfirst] at hsome, fun _ _ => hops,
      fun hel hrme hinvalid => absurd ⟨hel, hrme, hinvalid⟩ harm⟩

/-- Settles O20: the first exception is `Undefined` exactly when a feature is missing or the level is EL0. -/
theorem undefinedInExactlyThreeCases : Obligations.UndefinedInExactlyThreeCases := by
  unfold Obligations.UndefinedInExactlyThreeCases
  intro i s
  obtain ⟨t, h⟩ := exec_next i s
  refine ⟨t, h, ?_, fun hr => by rw [exec_eq_raiseUndefined h hr]; rfl⟩
  rw [exec_raised_iff h, firstException_undefined_iff, encodingPresent_eq_false_iff, or_assoc]

/-- Settles O21: the record names `raiseUndefined`, whose target and syndrome are GK12's. -/
theorem undefinedTargetAndSyndrome : Obligations.UndefinedTargetAndSyndrome := by
  unfold Obligations.UndefinedTargetAndSyndrome
  intro i s t h hr
  obtain rfl := exec_eq_raiseUndefined h hr
  refine ⟨undefinedTarget_toEl s.cfg s.pe, fun l hlevel => ?_⟩
  obtain rfl : l = undefinedTarget s.cfg s.pe := toEl_injective hlevel
  rw [raiseUndefined, withPe_pe, takeException_bank_target]
  exact syndrome_undefined_fields s.pe.raised.length

/-- Settles O22: the record names `raiseSystemAccessTrap`, whose syndrome holds the encoding's fields. -/
theorem trapSyndromeNamesTheInstruction : Obligations.TrapSyndromeNamesTheInstruction := by
  unfold Obligations.TrapSyndromeNamesTheInstruction
  intro i s t ec iss h hr
  obtain rfl := exec_eq_raiseSystemAccessTrap h hr
  obtain ⟨rfl, rfl⟩ : 0x18 = ec ∧ trapIss i.fields i.operandReg = iss := by
    simpa [raiseSystemAccessTrap] using hr
  refine ⟨rfl, rfl, syndrome_trapEl2_toNat s.pe.raised.length .., fun hwf => ?_⟩
  rw [trapIss_toNat i.fields ((wellFormed_iff i).mp hwf)]
  cases i with
  | tlbiRvaale1 n => simp only [Instr.fields, Instr.operandReg, rvaale1Fields, BitVec.reduceToNat]; omega
  | tlbiRvaale1nxs n => simp only [Instr.fields, Instr.operandReg, rvaale1nxsFields, BitVec.reduceToNat]; omega

/-- Settles O26: at EL1 every control of the hypervisor is gated by EL2 enabled, and no other level reads one. -/
theorem hypervisorControlsNeedEl1AndEl2Enabled : Obligations.HypervisorControlsNeedEl1AndEl2Enabled := by
  unfold Obligations.HypervisorControlsNeedEl1AndEl2Enabled
  intro i s t h hout hhcrx
  have hoff : s.pe.pstate.el = .el1 → el2Enabled s.cfg s.pe = false := fun hel => by simpa [hel] using hout
  refine ⟨fun ec iss hr => ?_, fun op hop => ?_⟩
  · obtain ⟨-, hel, htrap⟩ := exec_trapped h hr
    exact absurd (trap_el2Enabled htrap) (ne_true_of_eq_false (hoff hel))
  · have hcrxOff : s.pe.pstate.el = .el1 → hcrxEl2Enabled s.cfg s.pe = false := fun hel =>
      Bool.eq_false_iff.mpr fun hon => ne_true_of_eq_false (hoff hel) (hhcrx hon)
    rw [exec_issued_eq h hop, newOp_call, callHere_attr, attrHere_own i hcrxOff]
    exact ⟨callHere_nsh _ _ hoff, by cases i <;> rfl⟩

end Sys2Proof.Proofs
end

section
/-! A PE that has raised an exception runs no further instruction. -/

namespace Sys2Proof.Machine

/-- A PE that only the agents' moves have changed, from `q` to `q'`: its TLB and its accesses, none of which is new. -/
structure Pe.AgentsOnly (q q' : Pe) : Prop where
  rest     : { q with tlb := q'.tlb, inFlight := q'.inFlight } = q'
  accesses : q'.inFlight.length = q.inFlight.length

theorem Pe.AgentsOnly.refl (q : Pe) : q.AgentsOnly q := ⟨rfl, rfl⟩

theorem Pe.AgentsOnly.trans {q q' q'' : Pe} (h : q.AgentsOnly q') (h' : q'.AgentsOnly q'') : q.AgentsOnly q'' := by
  refine ⟨?_, h'.accesses.trans h.accesses⟩
  rw [← h'.rest, ← h.rest]

theorem Pe.AgentsOnly.raised {q q' : Pe} (h : q.AgentsOnly q') : q'.raised = q.raised := by rw [← h.rest]

theorem agentMove_agentsOnly (m : Move) {s : State} {p : Nat} {q : Pe} (h : s.peAt p = some q) :
    ∃ q', (agentMove m s).peAt p = some q' ∧ q.AgentsOnly q' := by
  cases m with
  | run p' f => exact ⟨q, h, .refl q⟩
  | perform k p' drops =>
    obtain ⟨tlb, ht⟩ := performOp_peAt (k := k) (p' := p') (drops := drops) h
    exact ⟨_, ht, rfl, rfl⟩
  | declare k => exact ⟨q, (declareOp_peAt k s p).trans h, .refl q⟩
  | finish p' a =>
    refine ⟨_, finishAccess_peAt p' a h, ?_⟩
    split_ifs
    · exact ⟨rfl, List.length_modify ..⟩
    · exact .refl q

/-- A step leaves a PE that has raised an exception to the agents: a PE that runs an instruction has raised none. -/
theorem step_raised_agentsOnly {s t : State} {p : Nat} {q : Pe} (h : step s = .next t) (hq : s.peAt p = some q)
    (hr : q.raised ≠ []) : ∃ q', t.peAt p = some q' ∧ q.AgentsOnly q' := by
  rcases step_cases h with ⟨u, -, -, hpes, -, -, rfl | ⟨i, f, hf, hi⟩⟩ | ⟨m, ms, -, -, rfl⟩
  · exact ⟨q, (peAt_congr hpes p).trans hq, .refl q⟩
  · rw [← peAt_congr hpes] at hq
    have hne : p ≠ u.peId := by
      rintro rfl
      obtain rfl : u.pe = q := Option.some.inj ((peAt_peId u).symm.trans hq)
      exact hr (fetch_instr hf).2.1
    rw [exec_peAt hi, withPe_peAt, withPe_peId, if_neg hne, if_neg hne]
    exact ⟨q, hq, .refl q⟩
  · exact agentMove_agentsOnly m (s := s.withSchedule ms) hq

theorem run_raised_agentsOnly (n : Nat) {s t : State} {p : Nat} {q : Pe} (h : Sys2Proof.core.run n s = .next t)
    (hq : s.peAt p = some q) (hr : q.raised ≠ []) : ∃ q', t.peAt p = some q' ∧ q.AgentsOnly q' := by
  refine run_keeps (M := Sys2Proof.core) (P := fun u : State => ∃ q', u.peAt p = some q' ∧ q.AgentsOnly q')
    (fun u v hu hstep => ?_) n ⟨q, hq, .refl q⟩ h
  obtain ⟨q', hq', hagents⟩ := hu
  obtain ⟨q'', hq'', hagents'⟩ := step_raised_agentsOnly hstep hq' (hagents.raised ▸ hr)
  exact ⟨q'', hq'', hagents.trans hagents'⟩

end Sys2Proof.Machine

namespace Sys2Proof.Proofs
open Sys2Proof.Machine

/-- Settles O51: along the run every step leaves the PE to the agents. -/
theorem anExceptionEndsTheRunOfItsPe : Obligations.AnExceptionEndsTheRunOfItsPe := by
  unfold Obligations.AnExceptionEndsTheRunOfItsPe
  intro n s t p q h hq hr
  obtain ⟨q', hq', hrest, haccesses⟩ := run_raised_agentsOnly n h hq hr
  exact ⟨q', hq', hrest, haccesses⟩

end Sys2Proof.Proofs
end

section
/-! What final states are, and where a PE with a program fetches. -/

namespace Sys2Proof.Machine

/-- A well-formed PE that fetches an instruction stands at a word of its program: it has not reached the end. -/
theorem Pe.WellFormed.fetch_in_program {c : Config} {p : Pe} (w : p.WellFormed c) {g : Program} {i : Instr}
    (hg : p.program = some g) (hf : fetch p = .instr i) :
    ∃ k : Nat, k < g.words ∧ p.pc = g.base + BitVec.ofNat 64 (4 * k) := by
  obtain ⟨hexit, hr, hal, -, -⟩ := fetch_instr hf
  obtain ⟨hbase, hend, hin⟩ := w.inProgram g hg
  obtain ⟨hlo, hhi⟩ := hin hr
  have hne : p.pc.toNat ≠ g.base.toNat + 4 * g.words := by
    rw [← programEnd_toNat hend, ne_eq, ← BitVec.toNat_eq, ← exited_iff hg, hexit]
    exact Bool.false_ne_true
  refine ⟨(p.pc.toNat - g.base.toNat) / 4, by omega, BitVec.eq_of_toNat_eq ?_⟩
  rw [programEnd_toNat (by omega)]
  omega

/-- A PE with no program, or one it has exited (70_reset_and_hazards R114 (2)). -/
theorem noProgram_or_exited_iff {p : Pe} : (p.program.isNone || p.exited) = true ↔
    ∀ g, p.program = some g → p.pc = g.base + BitVec.ofNat 64 (4 * g.words) := by
  cases hg : p.program with
  | none => simp
  | some g => simp [exited_iff hg]

/-- Final states, as 70_reset_and_hazards R114 (3) words them. -/
theorem final_iff {s : State} : s.final = true ↔
    (∀ p ∈ s.allPes, p.raised = [] ∧ ∀ g, p.program = some g → p.pc = g.base + BitVec.ofNat 64 (4 * g.words)) ∧
    (∀ op ∈ s.ops, op.complete = true ∧ ∀ p ∈ s.scope op, op.performedOn p = true) := by
  rw [State.final, Bool.and_eq_true, List.all_eq_true, List.all_eq_true]
  refine and_congr (forall₂_congr fun p _ => ?pe) (forall₂_congr fun op _ => ?op)
  case pe => rw [Bool.and_eq_true, noProgram_or_exited_iff, and_comm]; simp [Pe.faulted]
  case op => rw [Bool.and_eq_true, List.all_eq_true, and_comm]

/-- A PE that has raised an exception keeps its state from being final (D15: log 16). -/
theorem not_final_of_raised {s : State} {p : Nat} {q : Pe} (hq : s.peAt p = some q) (hr : q.raised ≠ []) :
    s.final = false :=
  Bool.eq_false_iff.mpr fun hfinal => hr ((final_iff.mp hfinal).1 q (peAt_mem hq)).1

end Sys2Proof.Machine

namespace Sys2Proof.Proofs
open Sys2Proof.Machine

/-- Settles O7: the invariant holds along the run, and a well-formed PE fetches in its program only. -/
theorem noFetchBeyondTheProgram : Obligations.NoFetchBeyondTheProgram := by
  unfold Obligations.NoFetchBeyondTheProgram
  intro n s t p q g i hs hrun hq hg hf
  exact ((run_inv n hs hrun).pes q (peAt_mem hq)).fetch_in_program hg hf

/-- Settles O50: what a PE has raised stands along the run. -/
theorem faultedRunsAreNeverFinal : Obligations.FaultedRunsAreNeverFinal := by
  unfold Obligations.FaultedRunsAreNeverFinal
  refine ⟨fun s => final_iff, fun n s t hrun ⟨q, hq, hr⟩ => ?_⟩
  obtain ⟨p, hp⟩ := (mem_allPes_iff s q).mp hq
  obtain ⟨q', hq', hagents⟩ := run_raised_agentsOnly n hrun hp hr
  exact not_final_of_raised hq' (hagents.raised ▸ hr)

end Sys2Proof.Proofs
end

section
/-! What every move of the machine lets stand: issued operations and accesses in flight keep their numbers, and what was
done to them is never undone. -/

namespace Sys2Proof.Machine

/-! ### Growth -/

/-- What can become of an access in flight: it completes. -/
structure Access.Grows (x x' : Access) : Prop where
  used     : x'.used = x.used
  xs       : x'.xs = x.xs
  complete : x.complete = true → x'.complete = true

theorem Access.Grows.refl (x : Access) : x.Grows x := ⟨rfl, rfl, id⟩

/-- Every access of the first list has grown into the one of its number in the second. -/
def AccessesGrow (l l' : List Access) : Prop :=
  ∀ (a : Nat) (x : Access), l[a]? = some x → ∃ x' : Access, l'[a]? = some x' ∧ x.Grows x'

theorem AccessesGrow.refl (l : List Access) : AccessesGrow l l := fun _ x h => ⟨x, h, .refl x⟩

theorem AccessesGrow.append (l l' : List Access) : AccessesGrow l (l ++ l') := fun _ x h =>
  ⟨x, (List.getElem?_append_left (List.getElem?_eq_some_iff.mp h).1).trans h, .refl x⟩

theorem AccessesGrow.complete (l : List Access) (a : Nat) :
    AccessesGrow l (l.modify a (fun x => { x with complete := true })) := by
  intro b x hb
  refine ⟨if a = b then { x with complete := true } else x, by rw [List.getElem?_modify, hb]; rfl, ?_⟩
  split_ifs
  · exact ⟨rfl, rfl, fun _ => rfl⟩
  · exact .refl x

/-- What every move keeps of the machine, as the issued operations and the accesses in flight see it. -/
structure State.Grows (s t : State) : Prop where
  cfg      : t.cfg = s.cfg
  npe      : t.npe = s.npe
  ops      : OpsGrow s.ops t.ops
  accesses : ∀ p q, s.peAt p = some q → ∃ q', t.peAt p = some q' ∧ AccessesGrow q.inFlight q'.inFlight

theorem State.Grows.of_same {s t : State} (hcfg : t.cfg = s.cfg) (hpes : t.allPes = s.allPes) (hops : t.ops = s.ops) :
    s.Grows t :=
  ⟨hcfg, congrArg List.length hpes, hops ▸ .refl _, fun p q hq => ⟨q, (peAt_congr hpes p).trans hq, .refl _⟩⟩

theorem State.Grows.refl (s : State) : s.Grows s := .of_same rfl rfl rfl

theorem Op.Grows.trans {op op' op'' : Op} (h : op.Grows op') (h' : op'.Grows op'') : op.Grows op'' :=
  ⟨h'.call.trans h.call, h'.issuer.trans h.issuer, h'.el2en.trans h.el2en, h'.large.trans h.large,
    h.performed.trans h'.performed, h'.complete ∘ h.complete⟩

theorem State.Grows.trans {s t u : State} (h : s.Grows t) (h' : t.Grows u) : s.Grows u where
  cfg := h'.cfg.trans h.cfg
  npe := h'.npe.trans h.npe
  ops k op hk := by
    obtain ⟨op', hk', hgrow⟩ := h.ops k op hk
    obtain ⟨op'', hk'', hgrow'⟩ := h'.ops k op' hk'
    exact ⟨op'', hk'', hgrow.trans hgrow'⟩
  accesses p q hq := by
    obtain ⟨q', hq', hgrow⟩ := h.accesses p q hq
    obtain ⟨q'', hq'', hgrow'⟩ := h'.accesses p q' hq'
    refine ⟨q'', hq'', fun a x hx => ?_⟩
    obtain ⟨x', hx', hxx⟩ := hgrow a x hx
    obtain ⟨x'', hx'', hxx'⟩ := hgrow' a x' hx'
    exact ⟨x'', hx'', hxx'.used.trans hxx.used, hxx'.xs.trans hxx.xs, hxx'.complete ∘ hxx.complete⟩

theorem agentMove_grows (m : Move) (s : State) : s.Grows (agentMove m s) where
  cfg := (agentMove_frame m s).cfg
  npe := (agentMove_frame m s).npe
  ops := agentMove_opsGrow m s
  accesses p q hq := by
    cases m with
    | run p' f => exact ⟨q, hq, .refl _⟩
    | perform k p' drops =>
      obtain ⟨tlb, ht⟩ := performOp_peAt (k := k) (p' := p') (drops := drops) hq
      exact ⟨_, ht, .refl _⟩
    | declare k => exact ⟨q, (declareOp_peAt k s p).trans hq, .refl _⟩
    | finish p' a =>
      refine ⟨_, finishAccess_peAt p' a hq, ?_⟩
      split_ifs
      · exact .complete q.inFlight a
      · exact .refl _

/-- A PE that has run an instruction has one access more, its fetch. -/
theorem exec_inFlight {i : Instr} {f : FetchChoice} {u t : State}
    (h : exec i (u.withPe (u.pe.recordFetch f)) = .next t) : t.pe.inFlight = (u.pe.recordFetch f).inFlight :=
  (exec_pe h).inFlight

theorem exec_grows {i : Instr} {f : FetchChoice} {u t : State}
    (h : exec i (u.withPe (u.pe.recordFetch f)) = .next t) : u.Grows t where
  cfg := (exec_cfg h).trans (withPe_cfg ..)
  npe := (exec_npe h).trans (withPe_npe ..)
  ops := by
    obtain ⟨q, l, rfl, -⟩ := exec_shape h
    exact .append u.ops l
  accesses p q hq := by
    rw [exec_peAt h, withPe_peAt, withPe_peId]
    split_ifs with hp
    · obtain rfl : u.pe = q := Option.some.inj ((peAt_peId u).symm.trans (hp ▸ hq))
      exact ⟨t.pe, rfl, exec_inFlight h ▸ .append _ _⟩
    · exact ⟨q, hq, .refl _⟩

theorem step_grows {s t : State} (h : step s = .next t) : s.Grows t := by
  rcases step_cases h with ⟨u, ms, hcfg, hpes, hops, -, rfl | ⟨i, f, -, hi⟩⟩ | ⟨m, ms, -, -, rfl⟩
  · exact .of_same hcfg hpes hops
  · exact (State.Grows.of_same hcfg hpes hops).trans (exec_grows hi)
  · exact (State.Grows.of_same (withSchedule_cfg s ms) rfl rfl).trans (agentMove_grows m (s.withSchedule ms))

/-- An access that a step adds uses entries of the TLB only. -/
theorem step_newAccess {s t : State} {p a : Nat} {q q' : Pe} {x : Access} (h : step s = .next t)
    (hq : s.peAt p = some q) (hq' : t.peAt p = some q') (hx : q'.inFlight[a]? = some x)
    (hnew : q.inFlight.length ≤ a) : ∀ e ∈ x.used, e ∈ q.tlb := by
  have hlt : a < q'.inFlight.length := (List.getElem?_eq_some_iff.mp hx).1
  have hsame : q'.inFlight.length ≠ q.inFlight.length := by omega
  rcases step_cases h with ⟨u, -, -, hpes, -, -, rfl | ⟨i, f, -, hi⟩⟩ | ⟨m, ms, -, -, rfl⟩
  · rw [peAt_congr hpes, hq] at hq'
    exact absurd (Option.some.inj hq' ▸ rfl) hsame
  · rw [← peAt_congr hpes] at hq
    rw [exec_peAt hi, withPe_peAt, withPe_peId] at hq'
    split_ifs at hq' with hp
    · obtain rfl : u.pe = q := Option.some.inj ((peAt_peId u).symm.trans (hp ▸ hq))
      obtain rfl : t.pe = q' := Option.some.inj hq'
      rw [exec_inFlight hi, recordFetch_inFlight, List.getElem?_append_right hnew] at hx
      obtain rfl := List.mem_singleton.mp (List.mem_of_getElem? hx)
      exact fun e he => (List.mem_filter.mp he).1
    · exact absurd (Option.some.inj (hq.symm.trans hq') ▸ rfl) hsame
  · obtain ⟨q'', hq'', hagents⟩ := agentMove_agentsOnly m (s := s.withSchedule ms) hq
    exact absurd (Option.some.inj (hq''.symm.trans hq') ▸ hagents.accesses) hsame

/-! ### What growth keeps of an operation -/

theorem Op.Grows.inScope {op op' : Op} (h : op.Grows op') (c : Config) (p : Nat) :
    op'.inScope c p = op.inScope c p := by
  rw [Op.inScope, Op.inScope, h.call, h.issuer]

theorem Op.Grows.scope {s t : State} {op op' : Op} (h : op.Grows op') (hst : s.Grows t) :
    t.scope op' = s.scope op := by
  rw [State.scope, State.scope, hst.cfg, hst.npe, funext (h.inScope s.cfg)]

theorem Op.Grows.performedOn {op op' : Op} (h : op.Grows op') {p : Nat} (hp : op.performedOn p = true) :
    op'.performedOn p = true := by
  obtain ⟨x, hx, hpe⟩ := performedOn_iff.mp hp
  exact performedOn_iff.mpr ⟨x, h.performed.subset hx, hpe⟩

theorem Op.Grows.requires {op op' : Op} (h : op.Grows op') (c : Config) : op'.requires c = op.requires c := by
  funext e
  simp only [Op.requires, Op.request, contextMatches, h.call, h.large, h.el2en]

/-! ### What is done and stays done -/

/-- Operation `k` was performed on PE `p`, or `p` is not in its scope. -/
def State.PerformDone (s : State) (k p : Nat) : Prop :=
  ∃ op, s.ops[k]? = some op ∧ (p ∈ s.scope op → op.performedOn p = true)

/-- Access `a` of PE `p` has completed. -/
def State.FinishDone (s : State) (p a : Nat) : Prop :=
  ∃ q x, s.peAt p = some q ∧ q.inFlight[a]? = some x ∧ x.complete = true

/-- Operation `k` is marked complete. -/
def State.DeclareDone (s : State) (k : Nat) : Prop :=
  ∃ op, s.ops[k]? = some op ∧ op.complete = true

theorem State.PerformDone.grows {s t : State} {k p : Nat} (h : s.PerformDone k p) (hst : s.Grows t) :
    t.PerformDone k p := by
  obtain ⟨op, hk, hdone⟩ := h
  obtain ⟨op', hk', hgrow⟩ := hst.ops k op hk
  exact ⟨op', hk', fun hp => hgrow.performedOn (hdone (hgrow.scope hst ▸ hp))⟩

theorem State.FinishDone.grows {s t : State} {p a : Nat} (h : s.FinishDone p a) (hst : s.Grows t) :
    t.FinishDone p a := by
  obtain ⟨q, x, hq, hx, hdone⟩ := h
  obtain ⟨q', hq', hgrow⟩ := hst.accesses p q hq
  obtain ⟨x', hx', hxx⟩ := hgrow a x hx
  exact ⟨q', x', hq', hx', hxx.complete hdone⟩

theorem State.DeclareDone.grows {s t : State} {k : Nat} (h : s.DeclareDone k) (hst : s.Grows t) : t.DeclareDone k := by
  obtain ⟨op, hk, hdone⟩ := h
  obtain ⟨op', hk', hgrow⟩ := hst.ops k op hk
  exact ⟨op', hk', hgrow.complete hdone⟩

theorem State.PerformDone.performedOn {s : State} {k p : Nat} {op : Op} (h : s.PerformDone k p)
    (hk : s.ops[k]? = some op) (hp : p ∈ s.scope op) : op.performedOn p = true := by
  obtain ⟨op', hk', hdone⟩ := h
  obtain rfl := Option.some.inj (hk.symm.trans hk')
  exact hdone hp

theorem State.FinishDone.complete {s : State} {p a : Nat} {q : Pe} {x : Access} (h : s.FinishDone p a)
    (hq : s.peAt p = some q) (hx : q.inFlight[a]? = some x) : x.complete = true := by
  obtain ⟨q', x', hq', hx', hdone⟩ := h
  obtain rfl := Option.some.inj (hq.symm.trans hq')
  obtain rfl := Option.some.inj (hx.symm.trans hx')
  exact hdone

theorem State.DeclareDone.complete {s : State} {k : Nat} {op : Op} (h : s.DeclareDone k) (hk : s.ops[k]? = some op) :
    op.complete = true := by
  obtain ⟨op', hk', hdone⟩ := h
  obtain rfl := Option.some.inj (hk.symm.trans hk')
  exact hdone

/-! ### Each agent's move does what it is for -/

theorem performOp_done {k p : Nat} (drops : List TlbEntry) {s : State} {op : Op} (hk : s.ops[k]? = some op) :
    (performOp k p drops s).PerformDone k p := by
  refine ⟨op.markedOn s.cfg p (s.peAt p), by simp [performOp_getElem?, hk], fun hp => ?_⟩
  obtain ⟨hlt, hin⟩ := mem_scope.mp hp
  rw [performOp_npe] at hlt
  rw [performOp_cfg, markedOn_inScope] at hin
  simp [markedOn_performedOn, peAt_isSome, hlt, hin]

theorem finishAccess_done {p a : Nat} {s : State} {q : Pe} {x : Access} (hq : s.peAt p = some q)
    (hx : q.inFlight[a]? = some x) : (finishAccess p a s).FinishDone p a :=
  ⟨_, { x with complete := true }, finishAccess_peAt p a hq, by simp [hx], rfl⟩

theorem declareOp_done {k : Nat} {s : State} {op : Op} (hk : s.ops[k]? = some op) (hc : s.completable op = true) :
    (declareOp k s).DeclareDone k := by
  refine ⟨{ op with complete := true }, ?_, rfl⟩
  rw [declareOp_completable hk hc]
  exact List.getElem?_set_self (List.getElem?_eq_some_iff.mp hk).1

end Sys2Proof.Machine
end

section
/-! Schedules of agents' moves, and one that completes every issued operation. -/

namespace Sys2Proof.Machine

/-! ### The agents' moves do not read the schedule -/

theorem modifyPe_withSchedule (s : State) (ms : List Move) (p : Nat) (f : Pe → Pe) :
    (s.withSchedule ms).modifyPe p f = (s.modifyPe p f).withSchedule ms := by
  rw [State.modifyPe, State.modifyPe, apply_ite (State.withSchedule · ms), apply_ite (State.withSchedule · ms)]
  rfl

theorem performOp_withSchedule (k p : Nat) (drops : List TlbEntry) (s : State) (ms : List Move) :
    performOp k p drops (s.withSchedule ms) = (performOp k p drops s).withSchedule ms := by
  unfold performOp
  simp only [withSchedule_ops, withSchedule_peAt, withSchedule_cfg, modifyPe_withSchedule]
  split
  · rw [apply_ite (State.withSchedule · ms)]
    rfl
  · rfl

theorem declareOp_withSchedule (k : Nat) (s : State) (ms : List Move) :
    declareOp k (s.withSchedule ms) = (declareOp k s).withSchedule ms := by
  unfold declareOp
  simp only [withSchedule_ops, withSchedule_completable]
  split
  · rw [apply_ite (State.withSchedule · ms)]
    rfl
  · rfl

theorem agentMove_withSchedule (m : Move) (s : State) (ms : List Move) :
    agentMove m (s.withSchedule ms) = (agentMove m s).withSchedule ms := by
  cases m with
  | run p f => rfl
  | perform k p drops => exact performOp_withSchedule k p drops s ms
  | declare k => exact declareOp_withSchedule k s ms
  | finish p a => exact modifyPe_withSchedule s ms p _

/-! ### A list of agents' moves -/

/-- The agents' moves of a list, one after the other. -/
def agentMoves (ms : List Move) (s : State) : State := ms.foldl (fun u m => agentMove m u) s

theorem agentMoves_append (ms ms' : List Move) (s : State) :
    agentMoves (ms ++ ms') s = agentMoves ms' (agentMoves ms s) := List.foldl_append

/-- A run is the rest of it from where its first step leads. -/
theorem run_of_step {M : Host.Core} {n : Nat} {s u : M.State} (h : M.step s = .next u) :
    M.run (n + 1) s = M.run n u := by
  rw [Host.Core.run, h]

/-- A schedule of agents' moves runs to its end, and makes them. -/
theorem run_agentMoves {ms : List Move} (h : ∀ m ∈ ms, ∀ p f, m ≠ .run p f) (s : State) :
    Sys2Proof.core.run ms.length (s.withSchedule ms) = .next ((agentMoves ms s).withSchedule []) := by
  induction ms generalizing s with
  | nil => rfl
  | cons m ms ih =>
    have hstep : Sys2Proof.core.step (s.withSchedule (m :: ms)) = .next ((agentMove m s).withSchedule ms) := by
      rw [← agentMove_withSchedule]
      exact step_of_agent (s := s.withSchedule (m :: ms)) rfl (h m List.mem_cons_self)
    exact (run_of_step hstep).trans <| ih (fun m' hm' => h m' (List.mem_cons_of_mem m hm')) (agentMove m s)

/-- What only agents have changed: nothing was issued, and every PE has its `pc` and as many accesses as before. -/
structure State.AgentsOnly (s t : State) : Prop where
  grows : s.Grows t
  ops   : t.ops.length = s.ops.length
  pes   : ∀ p q, s.peAt p = some q → ∃ q', t.peAt p = some q' ∧ q.AgentsOnly q'

theorem State.AgentsOnly.refl (s : State) : s.AgentsOnly s := ⟨.refl s, rfl, fun _ q hq => ⟨q, hq, .refl q⟩⟩

theorem State.AgentsOnly.trans {s t u : State} (h : s.AgentsOnly t) (h' : t.AgentsOnly u) : s.AgentsOnly u where
  grows := h.grows.trans h'.grows
  ops := h'.ops.trans h.ops
  pes p q hq := by
    obtain ⟨q', hq', hagents⟩ := h.pes p q hq
    obtain ⟨q'', hq'', hagents'⟩ := h'.pes p q' hq'
    exact ⟨q'', hq'', hagents.trans hagents'⟩

theorem agentMove_stateAgentsOnly (m : Move) (s : State) : s.AgentsOnly (agentMove m s) :=
  ⟨agentMove_grows m s, (agentMove_frame m s).ops, fun _ _ => agentMove_agentsOnly m⟩

theorem agentMoves_agentsOnly (ms : List Move) (s : State) : s.AgentsOnly (agentMoves ms s) := by
  induction ms generalizing s with
  | nil => exact .refl s
  | cons m ms ih => exact (agentMove_stateAgentsOnly m s).trans (ih (agentMove m s))

/-- The agents move no PE's `pc`. -/
theorem State.AgentsOnly.pcs {s t : State} (h : s.AgentsOnly t) : t.allPes.map Pe.pc = s.allPes.map Pe.pc := by
  have hlen : t.allPes.length = s.allPes.length := h.grows.npe
  refine List.ext_getElem? fun p => ?_
  rw [List.getElem?_map, List.getElem?_map]
  cases hp : s.allPes[p]? with
  | none => rw [List.getElem?_eq_none (hlen ▸ List.getElem?_eq_none_iff.mp hp)]
  | some q =>
    obtain ⟨q', hq', hagents⟩ := h.pes p q hp
    have hq'' : t.allPes[p]? = some q' := hq'
    rw [hq'', Option.map_some, Option.map_some, ← hagents.rest]

/-! ### What each move of a list has done at its end -/

/-- What an agent's move is for, has been done. -/
def Move.Done (s : State) : Move → Prop
  | .run _ _ => True
  | .perform k p _ => s.PerformDone k p
  | .declare k => s.DeclareDone k
  | .finish p a => s.FinishDone p a

theorem Move.Done.grows {s t : State} {m : Move} (h : m.Done s) (hst : s.Grows t) : m.Done t := by
  cases m with
  | run p f => trivial
  | perform k p drops => exact State.PerformDone.grows h hst
  | declare k => exact State.DeclareDone.grows h hst
  | finish p a => exact State.FinishDone.grows h hst

/-- Moves that do what they are for wherever agents lead have all done it at the end of their list. -/
theorem agentMoves_done {ms : List Move} {s : State}
    (h : ∀ m ∈ ms, ∀ u, s.AgentsOnly u → m.Done (agentMove m u)) : ∀ m ∈ ms, m.Done (agentMoves ms s) := by
  induction ms generalizing s with
  | nil => nofun
  | cons m ms ih =>
    intro m' hm'
    rcases List.mem_cons.mp hm' with rfl | hm'
    · exact (h m' List.mem_cons_self s (.refl s)).grows (agentMoves_agentsOnly ms (agentMove m' s)).grows
    · exact ih (fun m'' hm'' u hu =>
        h m'' (List.mem_cons_of_mem m hm'') u ((agentMove_stateAgentsOnly m s).trans hu)) m' hm'

/-! ### The schedule that completes every operation -/

/-- Every issued operation is performed on every PE. -/
def State.performMoves (s : State) : List Move :=
  (List.range s.ops.length).flatMap fun k => (List.range s.npe).map fun p => .perform k p []

/-- Every access in flight completes. -/
def State.finishMoves (s : State) : List Move :=
  s.allPes.zipIdx.flatMap fun x => (List.range x.1.inFlight.length).map fun a => .finish x.2 a

/-- Every issued operation is declared complete. -/
def State.declareMoves (s : State) : List Move := (List.range s.ops.length).map .declare

theorem mem_performMoves {s : State} {m : Move} :
    m ∈ s.performMoves ↔ ∃ k p, k < s.ops.length ∧ p < s.npe ∧ m = .perform k p [] := by
  simp only [State.performMoves, List.mem_flatMap, List.mem_map, List.mem_range]
  exact ⟨fun ⟨k, hk, p, hp, hm⟩ => ⟨k, p, hk, hp, hm.symm⟩, fun ⟨k, p, hk, hp, hm⟩ => ⟨k, hk, p, hp, hm.symm⟩⟩

theorem mem_finishMoves {s : State} {m : Move} :
    m ∈ s.finishMoves ↔ ∃ p a q, s.peAt p = some q ∧ a < q.inFlight.length ∧ m = .finish p a := by
  simp only [State.finishMoves, List.mem_flatMap, List.mem_map, List.mem_range, Prod.exists,
    List.mem_zipIdx_iff_getElem?]
  exact ⟨fun ⟨q, p, hq, a, ha, hm⟩ => ⟨p, a, q, hq, ha, hm.symm⟩,
    fun ⟨p, a, q, hq, ha, hm⟩ => ⟨q, p, hq, a, ha, hm.symm⟩⟩

theorem mem_declareMoves {s : State} {m : Move} : m ∈ s.declareMoves ↔ ∃ k, k < s.ops.length ∧ m = .declare k := by
  simp only [State.declareMoves, List.mem_map, List.mem_range]
  exact ⟨fun ⟨k, hk, hm⟩ => ⟨k, hk, hm.symm⟩, fun ⟨k, hk, hm⟩ => ⟨k, hk, hm.symm⟩⟩

/-- The moves after which nothing is left to perform or to finish. -/
def State.quietingMoves (s : State) : List Move := s.performMoves ++ s.finishMoves

/-- The moves after which every operation is complete. -/
def State.completingMoves (s : State) : List Move := s.quietingMoves ++ (agentMoves s.quietingMoves s).declareMoves

/-- No instruction runs. -/
theorem completingMoves_ne_run {s : State} : ∀ m ∈ s.completingMoves, ∀ p f, m ≠ .run p f := by
  intro m hm p f
  rcases List.mem_append.mp hm with hm | hm
  · rcases List.mem_append.mp hm with hm | hm
    · obtain ⟨_, _, -, -, rfl⟩ := mem_performMoves.mp hm
      nofun
    · obtain ⟨_, _, _, -, -, rfl⟩ := mem_finishMoves.mp hm
      nofun
  · obtain ⟨_, -, rfl⟩ := mem_declareMoves.mp hm
    nofun

/-- Every operation was performed wherever it reaches, and every access in flight has completed. -/
structure State.Quiet (s : State) : Prop where
  performed : ∀ k p, k < s.ops.length → p < s.npe → s.PerformDone k p
  finished  : ∀ p a q, s.peAt p = some q → a < q.inFlight.length → s.FinishDone p a

/-- Removals and ends of accesses make a machine quiet. -/
theorem agentMoves_quiet (s : State) : (agentMoves s.quietingMoves s).Quiet := by
  have hagents := agentMoves_agentsOnly s.quietingMoves s
  have hdone : ∀ m ∈ s.quietingMoves, m.Done (agentMoves s.quietingMoves s) := by
    refine agentMoves_done fun m hm u hu => ?_
    rcases List.mem_append.mp hm with hm | hm
    · obtain ⟨k, p, hk, -, rfl⟩ := mem_performMoves.mp hm
      exact performOp_done [] (List.getElem?_eq_getElem (hu.ops ▸ hk))
    · obtain ⟨p, a, q, hq, ha, rfl⟩ := mem_finishMoves.mp hm
      obtain ⟨q', hq', hqq⟩ := hu.pes p q hq
      exact finishAccess_done hq' (List.getElem?_eq_getElem (hqq.accesses ▸ ha))
  constructor
  · intro k p hk hp
    rw [hagents.ops] at hk
    rw [hagents.grows.npe] at hp
    exact hdone _ (List.mem_append_left _ (mem_performMoves.mpr ⟨k, p, hk, hp, rfl⟩))
  · intro p a q' hq' ha
    obtain ⟨q, hq⟩ := (peAt_isSome_iff s p).mpr (hagents.grows.npe ▸ (peAt_isSome_iff _ p).mp ⟨q', hq'⟩)
    obtain ⟨q'', hq'', hqq⟩ := hagents.pes p q hq
    obtain rfl := Option.some.inj (hq'.symm.trans hq'')
    exact hdone _ (List.mem_append_right _ (mem_finishMoves.mpr ⟨p, a, q, hq, hqq.accesses ▸ ha, rfl⟩))

theorem State.Quiet.agents {s t : State} (h : s.Quiet) (hst : s.AgentsOnly t) : t.Quiet := by
  constructor
  · intro k p hk hp
    exact (h.performed k p (hst.ops ▸ hk) (hst.grows.npe ▸ hp)).grows hst.grows
  · intro p a q' hq' ha
    obtain ⟨q, hq⟩ := (peAt_isSome_iff s p).mpr (hst.grows.npe ▸ (peAt_isSome_iff t p).mp ⟨q', hq'⟩)
    obtain ⟨q'', hq'', hqq⟩ := hst.pes p q hq
    obtain rfl := Option.some.inj (hq'.symm.trans hq'')
    exact (h.finished p a q hq (hqq.accesses ▸ ha)).grows hst.grows

theorem State.Quiet.performedOn {s : State} (h : s.Quiet) {op : Op} (hop : op ∈ s.ops) {p : Nat}
    (hp : p ∈ s.scope op) : op.performedOn p = true := by
  obtain ⟨k, hk⟩ := List.mem_iff_getElem?.mp hop
  exact (h.performed k p (List.getElem?_eq_some_iff.mp hk).1 (mem_scope.mp hp).1).performedOn hk hp

/-- In a quiet machine every operation meets the condition of completion (41_tlbi_rvaa_operation R82). -/
theorem State.Quiet.completable {s : State} (h : s.Quiet) {op : Op} (hop : op ∈ s.ops) : s.completable op = true := by
  refine completable_iff.mpr fun p hp => ⟨h.performedOn hop hp, fun q hq x hx _ => ?_⟩
  obtain ⟨a, ha⟩ := List.mem_iff_getElem?.mp hx
  exact (h.finished p a q hq (List.getElem?_eq_some_iff.mp ha).1).complete hq ha

/-- In a quiet machine the declarations mark every operation. -/
theorem State.Quiet.declared {s : State} (h : s.Quiet) :
    ∀ op ∈ (agentMoves s.declareMoves s).ops, op.complete = true := by
  intro op hop
  obtain ⟨k, hk⟩ := List.mem_iff_getElem?.mp hop
  have hlt : k < s.ops.length := (agentMoves_agentsOnly s.declareMoves s).ops ▸ (List.getElem?_eq_some_iff.mp hk).1
  have hdone : ∀ m ∈ s.declareMoves, m.Done (agentMoves s.declareMoves s) := by
    refine agentMoves_done fun m hm u hu => ?_
    obtain ⟨j, hj, rfl⟩ := mem_declareMoves.mp hm
    rw [← hu.ops] at hj
    exact declareOp_done (List.getElem?_eq_getElem hj) ((h.agents hu).completable (List.getElem_mem hj))
  exact State.DeclareDone.complete (hdone _ (mem_declareMoves.mpr ⟨k, hlt, rfl⟩)) hk

end Sys2Proof.Machine

namespace Sys2Proof.Proofs
open Sys2Proof.Machine

/-- Settles O52: removals and ends of accesses make the machine quiet, and the declarations then mark every
operation. -/
theorem everyOperationCanComplete : Obligations.EveryOperationCanComplete := by
  unfold Obligations.EveryOperationCanComplete
  intro s
  have hagents := agentMoves_agentsOnly s.completingMoves s
  have hrun := run_agentMoves (ms := s.completingMoves) completingMoves_ne_run s
  refine ⟨s.completingMoves, _, completingMoves_ne_run, hrun, hagents.ops, hagents.pcs, ?_⟩
  rw [State.completingMoves, agentMoves_append]
  have hquiet := agentMoves_quiet s
  have hquiet' := hquiet.agents (agentMoves_agentsOnly (agentMoves s.quietingMoves s).declareMoves _)
  exact fun op hop => ⟨hquiet.declared op hop, fun _ p hp => hquiet'.performedOn hop hp⟩

end Sys2Proof.Proofs
end

section
/-! Fair runs: what stays pending is done in the end, so every operation completes and every access does. -/

namespace Sys2Proof.Machine
open Filter (atTop)

section
variable {σ : Nat → State} {μ : Nat → Move}

/-! ### Along a run -/

theorem IsRun.inv (hrun : IsRun σ μ) (hinv : (σ 0).Inv) (n : Nat) : (σ n).Inv := by
  induction n with
  | zero => exact hinv
  | succ n ih => exact step_inv (s := (σ n).withSchedule [μ n]) (ih.of_same rfl rfl rfl) (hrun n)

theorem IsRun.grows (hrun : IsRun σ μ) {n l : Nat} (h : n ≤ l) : (σ n).Grows (σ l) := by
  induction l, h using Nat.le_induction with
  | base => exact .refl (σ n)
  | succ l _ ih =>
    have hsched : (σ l).Grows ((σ l).withSchedule [μ l]) := .of_same rfl rfl rfl
    exact ih.trans (hsched.trans (step_grows (hrun l)))

/-- An operation grows into the one that has its number later. -/
theorem State.Grows.op {s t : State} (h : s.Grows t) {k : Nat} {op op' : Op} (hk : s.ops[k]? = some op)
    (hk' : t.ops[k]? = some op') : op.Grows op' := by
  obtain ⟨op'', hk'', hgrow⟩ := h.ops k op hk
  exact Option.some.inj (hk''.symm.trans hk') ▸ hgrow

/-- What an agent's move leads to. -/
theorem IsRun.agent (hrun : IsRun σ μ) {n : Nat} (h : ∀ p f, μ n ≠ .run p f) :
    σ (n + 1) = (agentMove (μ n) (σ n)).withSchedule [] := by
  rw [← agentMove_withSchedule]
  exact Host.Outcome.next.inj ((hrun n).symm.trans (step_of_agent (s := (σ n).withSchedule [μ n]) rfl h))

/-- Weak fairness of a move: if the move does `done`, and `done` holds wherever the move is not pending, then `done`
comes to hold for good. -/
theorem IsRun.eventually (hrun : IsRun σ μ) {pending done : State → Prop} {made : Move → Prop}
    (hfair : WeaklyFair σ μ pending made) {n : Nat} (hstable : ∀ {s t : State}, done s → s.Grows t → done t)
    (hidle : ∀ m, n ≤ m → ¬pending (σ m) → done (σ m)) (hmade : ∀ m, n ≤ m → made (μ m) → done (σ (m + 1))) :
    ∀ᶠ l in atTop, done (σ l) := by
  obtain ⟨m, hm⟩ : ∃ m, done (σ m) := by
    by_cases hpending : ∀ m, n ≤ m → pending (σ m)
    · obtain ⟨m, hnm, hmove⟩ := hfair n hpending
      exact ⟨m + 1, hmade m hnm hmove⟩
    · push Not at hpending
      obtain ⟨m, hnm, hnot⟩ := hpending
      exact ⟨m, hidle m hnm hnot⟩
  exact Filter.eventually_atTop.mpr ⟨m, fun l hl => hstable hm (hrun.grows hl)⟩

/-- What holds from some point on holds from a point after any given one. -/
theorem exists_ge_forall_of_eventually {P : Nat → Prop} (h : ∀ᶠ l in atTop, P l) (n : Nat) :
    ∃ m, n ≤ m ∧ ∀ l, m ≤ l → P l := by
  obtain ⟨m, hm⟩ := Filter.eventually_atTop.mp h
  exact ⟨max n m, le_max_left n m, fun l hl => hm l ((le_max_right n m).trans hl)⟩

theorem performDone_of_not_pending {s : State} {k p : Nat} {op : Op} (hk : s.ops[k]? = some op)
    (h : ¬s.performPending k p) : s.PerformDone k p :=
  ⟨op, hk, fun hp => Bool.eq_true_of_not_eq_false fun hnot => h ⟨op, hk, hp, hnot⟩⟩

theorem finishDone_of_not_pending {s : State} {p a : Nat} {q : Pe} {x : Access} (hq : s.peAt p = some q)
    (hx : q.inFlight[a]? = some x) (h : ¬s.finishPending p a) : s.FinishDone p a :=
  ⟨q, x, hq, hx, Bool.eq_true_of_not_eq_false fun hnot => h ⟨q, x, hq, hx, hnot⟩⟩

theorem declareDone_of_not_pending {s : State} {k : Nat} {op : Op} (hk : s.ops[k]? = some op)
    (hc : s.completable op = true) (h : ¬s.declarePending k) : s.DeclareDone k :=
  ⟨op, hk, Bool.eq_true_of_not_eq_false fun hnot => h ⟨op, hk, hc, hnot⟩⟩

/-! ### What fairness brings about -/

theorem Fair.performs_done (hfair : Fair σ μ) (hrun : IsRun σ μ) {n k : Nat} {op : Op} (hk : (σ n).ops[k]? = some op)
    (p : Nat) : ∀ᶠ l in atTop, (σ l).PerformDone k p := by
  have hop : ∀ m, n ≤ m → ∃ op', (σ m).ops[k]? = some op' := fun m hm =>
    ((hrun.grows hm).ops k op hk).imp fun _ h => h.1
  refine hrun.eventually (hfair.performs k p) (n := n) State.PerformDone.grows (fun m hm hnot => ?_)
    fun m hm ⟨drops, hmove⟩ => ?_
  · obtain ⟨op', hk'⟩ := hop m hm
    exact performDone_of_not_pending hk' hnot
  · obtain ⟨op', hk'⟩ := hop m hm
    rw [hrun.agent (by simp [hmove]), hmove]
    exact performOp_done drops hk'

theorem Fair.finishes_done (hfair : Fair σ μ) (hrun : IsRun σ μ) {n p a : Nat} {q : Pe} {x : Access}
    (hq : (σ n).peAt p = some q) (hx : q.inFlight[a]? = some x) : ∀ᶠ l in atTop, (σ l).FinishDone p a := by
  have haccess : ∀ m, n ≤ m → ∃ q' x', (σ m).peAt p = some q' ∧ q'.inFlight[a]? = some x' := fun m hm => by
    obtain ⟨q', hq', hgrow⟩ := (hrun.grows hm).accesses p q hq
    obtain ⟨x', hx', -⟩ := hgrow a x hx
    exact ⟨q', x', hq', hx'⟩
  refine hrun.eventually (hfair.finishes p a) (n := n) State.FinishDone.grows (fun m hm hnot => ?_)
    fun m hm hmove => ?_
  · obtain ⟨q', x', hq', hx'⟩ := haccess m hm
    exact finishDone_of_not_pending hq' hx' hnot
  · obtain ⟨q', x', hq', hx'⟩ := haccess m hm
    rw [hrun.agent (by simp [hmove]), hmove]
    exact finishAccess_done hq' hx'

/-! ### Accesses that an operation does not wait for -/

/-- On PE `p` the accesses from number `n` on use no entry that the operation requires to go. -/
def State.SparesFrom (s : State) (op : Op) (p n : Nat) : Prop :=
  ∀ q a x, s.peAt p = some q → q.inFlight[a]? = some x → n ≤ a → ∀ e ∈ x.used, op.requires s.cfg e = false

/-- Where an operation was performed and left no required entry, a step brings in no access that uses one. -/
theorem step_sparesFrom {s t : State} {op : Op} {p n : Nat} (hstep : step s = .next t) (hc : op.Cleaned s)
    (hp : op.performedOn p = true) (h : s.SparesFrom op p n) : t.SparesFrom op p n := by
  intro q' a x' hq' hx' hn
  have hgrows := step_grows hstep
  obtain ⟨q, hq⟩ := (peAt_isSome_iff s p).mpr (hgrows.npe ▸ (peAt_isSome_iff t p).mp ⟨q', hq'⟩)
  rw [hgrows.cfg]
  rcases Nat.lt_or_ge a q.inFlight.length with hlt | hnew
  · obtain ⟨q'', hq'', hacc⟩ := hgrows.accesses p q hq
    obtain rfl := Option.some.inj (hq'.symm.trans hq'')
    obtain ⟨x'', hx'', hgrow⟩ := hacc a _ (List.getElem?_eq_getElem hlt)
    obtain rfl := Option.some.inj (hx'.symm.trans hx'')
    rw [hgrow.used]
    exact h q a _ hq (List.getElem?_eq_getElem hlt) hn
  · exact fun e he => hc.not_required hp hq e (step_newAccess hstep hq hq' hx' hnew e he)

/-- A cleaned operation does not wait for an access that uses no entry it requires. -/
theorem Op.Cleaned.not_waits_of_not_required {s : State} {op : Op} (hc : op.Cleaned s) {p : Nat} {x : Access}
    (hx : ∀ e ∈ x.used, op.requires s.cfg e = false) : op.waits p x = false := by
  rw [Bool.eq_false_iff]
  intro hw
  obtain ⟨⟨e, he, r, hr, -, her⟩, -⟩ := waits_iff.mp hw
  exact absurd ((hc r hr).1 e her) (by simp [hx e he])

theorem Op.Grows.sparesFrom_iff {op op' : Op} (h : op.Grows op') {s : State} {p n : Nat} :
    s.SparesFrom op' p n ↔ s.SparesFrom op p n := by
  simp only [State.SparesFrom, h.requires]

/-- Once an operation was performed on a PE, every access that comes there after is spared. -/
theorem Fair.spares (hfair : Fair σ μ) (hrun : IsRun σ μ) (hinv : (σ 0).Inv) {n k p : Nat} {op : Op}
    (hk : (σ n).ops[k]? = some op) (hp : p ∈ (σ n).scope op) :
    ∃ m q, (σ m).peAt p = some q ∧ ∀ l, m ≤ l → (σ l).SparesFrom op p q.inFlight.length := by
  obtain ⟨m, hnm, hdone⟩ := exists_ge_forall_of_eventually (hfair.performs_done hrun hk p) n
  obtain ⟨q, hq⟩ := (peAt_isSome_iff (σ m) p).mpr ((hrun.grows hnm).npe ▸ (mem_scope.mp hp).1)
  refine ⟨m, q, hq, fun l hl => ?_⟩
  induction l, hl using Nat.le_induction with
  | base =>
    intro q' a x hq' hx ha
    obtain rfl := Option.some.inj (hq.symm.trans hq')
    exact absurd (List.getElem?_eq_some_iff.mp hx).1 (by omega)
  | succ l hl ih =>
    have hgrows := hrun.grows (hnm.trans hl)
    obtain ⟨op', hk', hgrow⟩ := hgrows.ops k op hk
    have hperf : op'.performedOn p = true := (hdone l hl).performedOn hk' (hgrow.scope hgrows ▸ hp)
    have hclean : op'.Cleaned (σ l) := (hrun.inv hinv l).cleaned op' (List.mem_of_getElem? hk')
    exact hgrow.sparesFrom_iff.mp
      (step_sparesFrom (s := (σ l).withSchedule [μ l]) (hrun l) hclean hperf (hgrow.sparesFrom_iff.mpr ih))

/-- In the end an operation waits for no access of a PE of its scope: those in flight when it was performed there have
completed, and the later ones are spared. -/
theorem Fair.waits_ends (hfair : Fair σ μ) (hrun : IsRun σ μ) (hinv : (σ 0).Inv) {n k p : Nat} {op : Op}
    (hk : (σ n).ops[k]? = some op) (hp : p ∈ (σ n).scope op) :
    ∀ᶠ l in atTop, ∀ op' q, (σ l).ops[k]? = some op' → (σ l).peAt p = some q →
      ∀ x ∈ q.inFlight, op'.waits p x = true → x.complete = true := by
  obtain ⟨m, q₀, hq₀, hspares⟩ := hfair.spares hrun hinv hk hp
  have hold : ∀ᶠ l in atTop, ∀ a ∈ Finset.range q₀.inFlight.length, (σ l).FinishDone p a :=
    (Filter.eventually_all_finset _).mpr fun a ha =>
      hfair.finishes_done hrun hq₀ (List.getElem?_eq_getElem (Finset.mem_range.mp ha))
  filter_upwards [hold, Filter.eventually_ge_atTop m, Filter.eventually_ge_atTop n] with l hold hml hnl
  intro op' q hk' hq x hx hw
  obtain ⟨a, ha⟩ := List.mem_iff_getElem?.mp hx
  rcases Nat.lt_or_ge a q₀.inFlight.length with hlt | hnew
  · exact (hold a (Finset.mem_range.mpr hlt)).complete hq ha
  · have hgrow := (hrun.grows hnl).op hk hk'
    have hclean : op'.Cleaned (σ l) := (hrun.inv hinv l).cleaned op' (List.mem_of_getElem? hk')
    have hspare := hgrow.sparesFrom_iff.mpr (hspares l hml) q a x hq ha hnew
    exact absurd hw (Bool.eq_false_iff.mp (hclean.not_waits_of_not_required hspare))

/-! ### Completion -/

theorem Fair.performs_scope (hfair : Fair σ μ) (hrun : IsRun σ μ) {n k : Nat} {op : Op}
    (hk : (σ n).ops[k]? = some op) :
    ∀ᶠ l in atTop, ∀ op', (σ l).ops[k]? = some op' → ∀ p ∈ (σ l).scope op', op'.performedOn p = true := by
  have hdone : ∀ᶠ l in atTop, ∀ p ∈ (σ n).scope op, (σ l).PerformDone k p :=
    (Filter.eventually_all_finite (List.finite_toSet _)).mpr fun p _ => hfair.performs_done hrun hk p
  filter_upwards [hdone, Filter.eventually_ge_atTop n] with l hdone hnl
  intro op' hk' p hp
  have hgrow := (hrun.grows hnl).op hk hk'
  exact (hdone p (hgrow.scope (hrun.grows hnl) ▸ hp)).performedOn hk' hp

/-- In the end an issued operation meets the condition of completion (41_tlbi_rvaa_operation R82), for good. -/
theorem Fair.completable (hfair : Fair σ μ) (hrun : IsRun σ μ) (hinv : (σ 0).Inv) {n k : Nat} {op : Op}
    (hk : (σ n).ops[k]? = some op) :
    ∀ᶠ l in atTop, ∀ op', (σ l).ops[k]? = some op' → (σ l).completable op' = true := by
  have hwaits : ∀ᶠ l in atTop, ∀ p ∈ (σ n).scope op, ∀ op' q, (σ l).ops[k]? = some op' → (σ l).peAt p = some q →
      ∀ x ∈ q.inFlight, op'.waits p x = true → x.complete = true :=
    (Filter.eventually_all_finite (List.finite_toSet _)).mpr fun p hp => hfair.waits_ends hrun hinv hk hp
  filter_upwards [hfair.performs_scope hrun hk, hwaits, Filter.eventually_ge_atTop n] with l hperf hwaits hnl
  intro op' hk'
  have hgrow := (hrun.grows hnl).op hk hk'
  exact completable_iff.mpr fun p hp =>
    ⟨hperf op' hk' p hp, fun q hq => hwaits p (hgrow.scope (hrun.grows hnl) ▸ hp) op' q hk' hq⟩

/-- In the end an issued operation is marked complete: the declaration is pending once the condition holds. -/
theorem Fair.declares_done (hfair : Fair σ μ) (hrun : IsRun σ μ) (hinv : (σ 0).Inv) {n k : Nat} {op : Op}
    (hk : (σ n).ops[k]? = some op) : ∀ᶠ l in atTop, (σ l).DeclareDone k := by
  obtain ⟨m, hnm, hc⟩ := exists_ge_forall_of_eventually (hfair.completable hrun hinv hk) n
  have hop : ∀ l, m ≤ l → ∃ op', (σ l).ops[k]? = some op' ∧ (σ l).completable op' = true := fun l hl => by
    obtain ⟨op', hk', -⟩ := (hrun.grows (hnm.trans hl)).ops k op hk
    exact ⟨op', hk', hc l hl op' hk'⟩
  refine hrun.eventually (hfair.declares k) (n := m) State.DeclareDone.grows (fun l hl hnot => ?_) fun l hl hmove => ?_
  · obtain ⟨op', hk', hc'⟩ := hop l hl
    exact declareDone_of_not_pending hk' hc' hnot
  · obtain ⟨op', hk', hc'⟩ := hop l hl
    rw [hrun.agent (by simp [hmove]), hmove]
    exact declareOp_done hk' hc'

/-- In the end an issued operation is complete and performed on every PE of its scope (70_reset_and_hazards R111). -/
theorem Fair.operation_done (hfair : Fair σ μ) (hrun : IsRun σ μ) (hinv : (σ 0).Inv) {n k : Nat} {op : Op}
    (hk : (σ n).ops[k]? = some op) :
    ∀ᶠ l in atTop, ∃ op', (σ l).ops[k]? = some op' ∧ op'.complete = true ∧
      ∀ p ∈ (σ l).scope op', op'.performedOn p = true := by
  filter_upwards [hfair.declares_done hrun hinv hk, hfair.performs_scope hrun hk] with l hdeclared hperf
  obtain ⟨op', hk', hcomplete⟩ := hdeclared
  exact ⟨op', hk', hcomplete, hperf op' hk'⟩

end

end Sys2Proof.Machine

namespace Sys2Proof.Proofs
open Sys2Proof.Machine

/-- Settles O53: a removal, the end of an access and a declaration that stay pending are made, and no access that comes
after a removal is waited for, so the condition of completion comes to hold for good. -/
theorem fairRunsCompleteEveryOperation : Obligations.FairRunsCompleteEveryOperation := by
  unfold Obligations.FairRunsCompleteEveryOperation
  intro σ μ hrun hfair hinv
  constructor
  · intro n k op hk
    exact exists_ge_forall_of_eventually (hfair.operation_done hrun hinv hk) n
  · intro n p a q x hq hx
    obtain ⟨m, hnm, hdone⟩ := exists_ge_forall_of_eventually (hfair.finishes_done hrun hq hx) n
    obtain ⟨q', hq', hgrow⟩ := (hrun.grows hnm).accesses p q hq
    obtain ⟨x', hx', hxx⟩ := hgrow a x hx
    exact ⟨m, q', x', hnm, hq', hx', (hdone m le_rfl).complete hq' hx', hxx.used, hxx.xs⟩

/-- Settles O54: each of the finitely many operations is done in the end, and the PEs are as a final state wants
them. -/
theorem fairRunsEndInFinalStates : Obligations.FairRunsEndInFinalStates := by
  unfold Obligations.FairRunsEndInFinalStates
  intro σ μ n hrun hfair hinv hended
  have hops : ∀ᶠ l in Filter.atTop, ∀ k ∈ Finset.range (σ n).ops.length, ∃ op, (σ l).ops[k]? = some op ∧
      op.complete = true ∧ ∀ p ∈ (σ l).scope op, op.performedOn p = true :=
    (Filter.eventually_all_finset _).mpr fun k hk =>
      hfair.operation_done hrun hinv (List.getElem?_eq_getElem (Finset.mem_range.mp hk))
  obtain ⟨m, hnm, hdone⟩ := exists_ge_forall_of_eventually hops n
  refine ⟨m, hnm, fun l hl => final_iff.mpr ⟨fun p hp => ?pe, fun op hop => ?op⟩⟩
  case pe =>
    obtain ⟨hr, hexit⟩ := (hended l (hnm.trans hl)).2 p hp
    exact ⟨hr, noProgram_or_exited_iff.mp (by simpa using hexit)⟩
  case op =>
    obtain ⟨k, hk⟩ := List.mem_iff_getElem?.mp hop
    have hlt : k < (σ n).ops.length := (hended l (hnm.trans hl)).1 ▸ (List.getElem?_eq_some_iff.mp hk).1
    obtain ⟨op', hk', hop'⟩ := hdone l hl k (Finset.mem_range.mpr hlt)
    obtain rfl := Option.some.inj (hk.symm.trans hk')
    exact hop'

end Sys2Proof.Proofs
end
